-- ==== Sys2Proof/Word.lean ====
section
/-! DEFINITION. The word types of the engine: bytes, 32-bit words, 64-bit registers, and the two
register files as fixed vectors of words (spec/00_scope.md R4, R8). -/

namespace Sys2Proof

/-- A byte, a natural number in 0..255 (R8). -/
abbrev Byte := BitVec 8

/-- A word of `WORD_BITS` = 32 bits (R4, R8). -/
abbrev Word := BitVec 32

/-- A 64-bit register value (`BLK`, `MLEN`). -/
abbrev Dword := BitVec 64

/-- `STATE_WORDS` = 8 words: the state, or a table with one entry per lane (R4). -/
abbrev Words8 := Vector Word 8

/-- `BLOCK_WORDS` = 16 words: a block (R4). -/
abbrev Words16 := Vector Word 16

end Sys2Proof
end

