-- ==== Sys2Proof/Machine/Datapath.lean ====
section
/-! DEFINITION. The 32-bit datapath: the bit and word primitives (spec/40_primitives.md R110 to R115)
and the byte-order functions (spec/20_memory.md R63 to R65). -/

namespace Sys2Proof.Machine

/-- R110: the sum modulo 2^32. -/
def add32 (a b : Word) : Word := a + b

/-- R111: the bitwise exclusive or. -/
def xor32 (a b : Word) : Word := a ^^^ b

/-- R112: the low 32 bits of the product. -/
def mul32 (a b : Word) : Word := a * b

/-- R113: rotate left by n modulo 32: the low bits moved up, the high bits moved down. -/
def rotl32 (x : Word) (n : Nat) : Word :=
  (x <<< (n % 32)) ||| (x >>> (32 - n % 32))

/-- R114: rotate right, as a left rotation by the complement. No step of the engine uses it. -/
def rotr32 (x : Word) (n : Nat) : Word := rotl32 x ((32 - n % 32) % 32)

/-- R115: logical right shift, given for n in 0..31. That it is 0 from 32 on is the model's totalisation,
which no step reaches: `mix` alone shifts, by 16 (DESIGN CHOICE, log 20). -/
def shr32 (x : Word) (n : Nat) : Word := x >>> n

/-- R63: four bytes as a little-endian word, `b0` the least significant. -/
def le32 (b0 b1 b2 b3 : Byte) : Word := b3 ++ b2 ++ b1 ++ b0

/-- Byte k (0..3) of a word: bits 8k+7 : 8k (R65, R66). -/
def byteOf (w : Word) (k : Nat) : Byte := w.extractLsb' (8 * k) 8

/-- R65: a word's four bytes, the least significant first. -/
def le32Bytes (w : Word) : List Byte := [byteOf w 0, byteOf w 1, byteOf w 2, byteOf w 3]

/-- R64: a 64-bit value's eight bytes, the most significant first. -/
def be64Bytes (v : Dword) : List Byte :=
  [v.extractLsb' 56 8, v.extractLsb' 48 8, v.extractLsb' 40 8, v.extractLsb' 32 8,
   v.extractLsb' 24 8, v.extractLsb' 16 8, v.extractLsb' 8 8, v.extractLsb' 0 8]

end Sys2Proof.Machine
end

