-- ==== Sys2Proof/Config.lean ====
section
/-! DEFINITION. The parameters of the engine (spec/00_scope.md R4, R5, R6): the fixed constants, the
open parameters as a structure that the state carries, their unknown values as constants without a
body, and the free value of a host read while busy (spec/10_state.md R41). -/

namespace Sys2Proof.Config

/-- How the text of temporal diffusion is read (R5 `TDIFF_READING`, R148, R150). -/
inductive TdiffReading where
  | interleaved
  | twoPass
  deriving DecidableEq, Repr, Inhabited

/-- Whether the lanes of a fast round read a snapshot (R5 `FAST_LANE_ORDER`, R167, R169). -/
inductive FastLaneOrder where
  | snapshot
  | inPlace
  deriving DecidableEq, Repr, Inhabited

/-- The open parameters of Table R5, fixed while the engine exists (R6(d)). The constraints of R6 are
in the types: words below 2^32, rotation amounts in 0..31, `MSG_CAP` a positive multiple of 4 below
2^61 (held as `MSG_CAP / 4 - 1`). The two readings have the defaults of Table R5. -/
structure Params where
  prime : Words8
  initialState : Words8
  /-- `ROTATIONS[8..15]`; entries 0..7 are decided equal to `FASTROT` (D18). -/
  rotationsHigh : Vector (BitVec 5) 8
  capWordsPred : Fin (2 ^ 59 - 2 + 1)
  tdiffReading : TdiffReading := .interleaved
  fastLaneOrder : FastLaneOrder := .snapshot
  deriving DecidableEq, Repr

/-- `MSG_CAP`, the number of bytes of the message buffer (R5, R6(c), D2). -/
def Params.msgCap (p : Params) : Nat := 4 * (p.capWordsPred.val + 1)

/-! The values the source withholds (spec/91_not_in_source.md N1, N2, N3, N20): no value may be
assumed, so none can be computed or proved. -/

opaque prime : Words8
opaque initialState : Words8
opaque rotationsHigh : Vector (BitVec 5) 8
opaque capWordsPred : Fin (2 ^ 59 - 2 + 1)

/-- FREE VALUE: what the n-th host read of a register other than `STATUS` while `BUSY = 1` returns
(R41, U6; log 11). -/
opaque busyRead : Nat → Word

/-- FREE VALUE: the length field of a message of `l` bytes whose bit length does not fit 64 bits, which
the source leaves undefined (R124, U1, N18; log 24). No command reaches it. -/
opaque unrepresentableLength : (l : Nat) → Dword

/-- The parameters of the instance that `State.reset` describes: withheld values, default readings
(R5; log 6, log 7). -/
def params : Params where
  prime := prime
  initialState := initialState
  rotationsHigh := rotationsHigh
  capWordsPred := capWordsPred

/-! The parameters the source fixes (Table R4). -/

def roundsBase : Nat := 20
def roundsFast : Nat := 8
def padMark : Byte := 0x80
def blockBytes : Nat := 64
def lengthFieldBytes : Nat := 8

/-- `FASTROT[0..7]` = 7, 12, 17, 22, 5, 9, 14, 20 (R4, spec/10_state.md R34; conflict C1). -/
def fastRot : Vector (BitVec 5) 8 := #v[7, 12, 17, 22, 5, 9, 14, 20]

end Sys2Proof.Config
end

