-- ==== Sys2Proof/Machine/Operands.lean ====
section
/-! DEFINITION. Operand access: the words a lane reads, with the index arithmetic of
spec/40_primitives.md R116 and spec/43_diffusion_core.md R153 (the modulo is the canonical rule,
R250), and the constant tables. -/

namespace Sys2Proof.Machine

open Sys2Proof.Config (Params fastRot)

/-- `S[k mod 8]`, or entry `k mod 8` of a table of eight (R116). -/
def lane (v : Words8) (k : Nat) : Word := v[k % 8]'(Nat.mod_lt _ (by decide))

/-- `W[k mod 16]` (R116, R153). -/
def blockWord (v : Words16) (k : Nat) : Word := v[k % 16]'(Nat.mod_lt _ (by decide))

/-- `v` with word `k mod 8` replaced. -/
def setLane (v : Words8) (k : Nat) (x : Word) : Words8 :=
  v.set (k % 8) x (Nat.mod_lt _ (by decide))

/-- `v` with word `k mod 16` replaced. -/
def setBlockWord (v : Words16) (k : Nat) (x : Word) : Words16 :=
  v.set (k % 16) x (Nat.mod_lt _ (by decide))

/-- Eight words computed lane by lane from one snapshot (spec/00_scope.md R9). -/
def lanes (f : Nat → Word) : Words8 := #v[f 0, f 1, f 2, f 3, f 4, f 5, f 6, f 7]

/-- Sixteen words computed by their index. -/
def words16 (f : Nat → Word) : Words16 :=
  #v[f 0, f 1, f 2, f 3, f 4, f 5, f 6, f 7, f 8, f 9, f 10, f 11, f 12, f 13, f 14, f 15]

/-- `FASTROT[r]` (spec/10_state.md R34). `FROUND` is accepted only with r < 8 (R217), so the modulo is
never exercised by an accepted command. -/
def fastRotAmount (r : Nat) : BitVec 5 := fastRot[r % 8]'(Nat.mod_lt _ (by decide))

/-- `ROTATIONS[k mod 16]`: entries 0..7 are `FASTROT`, entries 8..15 the open parameter (R33, D18). -/
def rotationAmount (p : Params) (k : Nat) : BitVec 5 :=
  if k % 16 < 8 then fastRot[k % 8]'(Nat.mod_lt _ (by decide))
  else p.rotationsHigh[k % 8]'(Nat.mod_lt _ (by decide))

end Sys2Proof.Machine
end

