-- ==== Sys2Proof/Syntax.lean ====
section
/-! DEFINITION. The commands of the engine (spec/30_encoding.md R91, one constructor per row of
spec/opcode_table.json), the host's accesses (spec/00_scope.md R10, the lines of R96), and the names of the register
map (spec/10_state.md R38). -/

namespace Sys2Proof

/-- The mode flag and the operand `F`: 0 standard, 1 fast (spec/10_state.md R23, R90). -/
inductive Mode where
  | standard
  | fast
  deriving DecidableEq, Repr

/-- The eleven commands (Table R91). `F` is the only operand a command word carries (R92). -/
inductive Instr where
  | nop
  | clrerr
  | init (f : Mode)
  | sched
  | load
  | tdiff
  | round
  | fround
  | chain
  | compress
  | hash (f : Mode)
  deriving DecidableEq, Repr

/-- What the host (or the platform) can do to the engine: `HostRead(off, n)`, `HostWrite(off, n, v)`
(R10) and the reset event (spec/70_reset_and_hazards.md R240). Offsets and widths are naturals (R61);
a 1-byte write carries its byte in bits 7:0 of `v` (log 15). -/
inductive HostInput where
  | read (off n : Nat)
  | write (off n : Nat) (v : Word)
  | reset
  deriving DecidableEq, Repr

/-- When an input reaches the engine. An idle engine takes its next input at once. While a command
runs, `afterSteps k` lands when k more engine steps have been performed, and `whenIdle` only when
`BUSY = 0` has been seen (the pseudo-line `WAIT` of R97). The spec fixes no timing (R251), so every
interleaving is some sequence of these (log 10). -/
inductive Arrival where
  | afterSteps (k : Nat)
  | whenIdle
  deriving DecidableEq, Repr

/-- An input still to come. -/
structure Pending where
  arrival : Arrival
  input : HostInput
  deriving DecidableEq, Repr

/-- The registers of the map, the rows of Table R38 below the message window. -/
inductive Reg where
  | cmd
  | status
  | mlenLo
  | mlenHi
  | blkLo
  | blkHi
  | rc
  | rn
  | s (i : Fin 8)
  | w (j : Fin 16)
  | seenW (w : Fin 8)
  | uniq
  | einfo
  | msgcapLo
  | msgcapHi
  | hex (q : Fin 16)
  | prime (i : Fin 8)
  | initialState (i : Fin 8)
  | rotations (k : Fin 16)
  | fastrot (r : Fin 8)
  deriving DecidableEq, Repr

/-- What a script line names: a register of Table R38, its last row `MSG[a]`, or a bare offset, as the
scripts of spec/95_test_vectors.md sections 6.3 and 8 write them (`WR 0x1000, ...`). -/
inductive MapName where
  | reg (r : Reg)
  | msg (a : Nat)
  | offset (off : Nat)
  deriving DecidableEq, Repr

/-- The access column of Table R38. -/
inductive Access where
  | rw
  | ro
  | wo
  deriving DecidableEq, Repr

/-- What a legal access touches: a whole register, byte k of a register, or one or four bytes of the
message buffer (spec/20_memory.md R67). -/
inductive Target where
  | reg (r : Reg)
  | regByte (r : Reg) (k : Fin 4)
  | msgByte (a : Nat)
  | msgWord (a : Nat)
  deriving DecidableEq, Repr

end Sys2Proof
end

