-- ==== Sys2Proof/WellFormed.lean ====
section
/-! DEFINITION. What is well formed: command words (spec/30_encoding.md R93, three checks), and
instructions. -/

namespace Sys2Proof

/-- The opcodes of Table R91: `0x00`, `0x01` and `0x10`..`0x18`; every other value is unassigned
(R93). -/
def opcodeAssigned (opc : Byte) : Bool :=
  opc.toNat ≤ 0x01 || (0x10 ≤ opc.toNat && opc.toNat ≤ 0x18)

/-- Whether the opcode is that of `INIT` or `HASH`, the commands that use `F` (R90). -/
def opcodeUsesF (opc : Byte) : Bool := opc == 0x10 || opc == 0x18

/-- Check 1: the reserved bits 31:9 are 0 (R93). -/
def reservedClear (c : Word) : Bool := c.extractLsb' 9 23 == 0

/-- Check 2: the opcode is assigned (R93). -/
def opcodeLegal (c : Word) : Bool := opcodeAssigned (c.extractLsb' 0 8)

/-- Check 3: `F` is set only on a command with a mode operand (R93). -/
def modeOperandLegal (c : Word) : Bool := !c.getLsbD 8 || opcodeUsesF (c.extractLsb' 0 8)

/-- A command word is legal when none of the conditions of R93 holds. -/
def legalWord (c : Word) : Bool := reservedClear c && opcodeLegal c && modeOperandLegal c

/-- Every instruction is well formed: the one operand, `F`, is used as it stands and both its values
are admitted (R92); what could be ill formed, a reserved bit, an opcode or an `F` out of place, cannot
be written as an `Instr` and is checked on the word (`legalWord`). -/
def Instr.wellFormed : Instr → Bool
  | .nop | .clrerr | .sched | .load | .tdiff | .round | .fround | .chain | .compress => true
  | .init .standard | .init .fast | .hash .standard | .hash .fast => true

end Sys2Proof
end

