-- ==== Sys2Proof/Decode.lean ====
section
/-! DEFINITION. The command word: decoder, encoder and the opcode table (spec/30_encoding.md R90 to
R93). -/

namespace Sys2Proof

/-- Why a word is no command: the three conditions of R93. Each raises `ILLEGAL_CMD` (R212). -/
inductive Reject where
  /-- Bits 31:9 are not 0. -/
  | reservedBits
  /-- Bits 7:0 are no opcode of Table R91. -/
  | unassignedOpcode
  /-- `F` is set and the opcode is not `INIT` or `HASH`. -/
  | modeOperand
  deriving DecidableEq, Repr

/-- `OPC`, bits 7:0 (R90). -/
def opcField (c : Word) : Byte := c.extractLsb' 0 8

/-- `F`, bit 8, as it stands (R90, R92). -/
def fField (c : Word) : Mode := if c.getLsbD 8 then .fast else .standard

/-- `RSV`, bits 31:9 (R90). -/
def rsvField (c : Word) : BitVec 23 := c.extractLsb' 9 23

/-- A command without a mode operand: `F` must be 0 (R90, R93). -/
def withoutF (f : Mode) (i : Instr) : Except Reject Instr :=
  match f with
  | .standard => .ok i
  | .fast => .error .modeOperand

/-- The command of an opcode and an `F` (Table R91). -/
def decodeFields (opc : Byte) (f : Mode) : Except Reject Instr :=
  match opc.toNat with
  | 0x00 => withoutF f .nop
  | 0x01 => withoutF f .clrerr
  | 0x10 => .ok (.init f)
  | 0x11 => withoutF f .sched
  | 0x12 => withoutF f .load
  | 0x13 => withoutF f .tdiff
  | 0x14 => withoutF f .round
  | 0x15 => withoutF f .fround
  | 0x16 => withoutF f .chain
  | 0x17 => withoutF f .compress
  | 0x18 => .ok (.hash f)
  | _ => .error .unassignedOpcode

/-- The command a word stands for, or why it is illegal (R91, R93). -/
def decode (c : Word) : Except Reject Instr :=
  if rsvField c = 0 then decodeFields (opcField c) (fField c) else .error .reservedBits

/-- What the decoder reads from an instruction whose `nbits` bits are `w`; a command is one 32-bit
word (R90), so the word's bits are the table's bits. -/
def decodeTableWord (nbits w : Nat) : Option Instr :=
  match decode (BitVec.ofNat 32 (w % 2 ^ nbits)) with
  | .ok i => some i
  | .error _ => none

/-- The bit of the mode operand (R90). -/
def Mode.bit : Mode → BitVec 1
  | .standard => 0
  | .fast => 1

/-- The opcode of a command (Table R91). -/
def Instr.opcode : Instr → Byte
  | .nop => 0x00
  | .clrerr => 0x01
  | .init _ => 0x10
  | .sched => 0x11
  | .load => 0x12
  | .tdiff => 0x13
  | .round => 0x14
  | .fround => 0x15
  | .chain => 0x16
  | .compress => 0x17
  | .hash _ => 0x18

/-- The value of the field `F` in the command's word: the operand of `INIT` and `HASH`, else 0 (R90). -/
def Instr.modeOperand : Instr → Mode
  | .init f => f
  | .hash f => f
  | .nop | .clrerr | .sched | .load | .tdiff | .round | .fround | .chain | .compress => .standard

/-- The command word: `RSV` = 0, `F`, `OPC` (R90). -/
def encode (i : Instr) : Word := (0 : BitVec 23) ++ i.modeOperand.bit ++ i.opcode

/-- A row of Table R91: a word c is selected when `(c and mask) = match`. -/
structure OpcodeRow where
  mnemonic : String
  pattern : Word
  mask : Word
  deriving DecidableEq, Repr

/-- Whether the row selects the word (R91). -/
def OpcodeRow.selects (r : OpcodeRow) (c : Word) : Bool := c &&& r.mask == r.pattern

/-- Table R91: mnemonic, match and mask of the eleven commands. -/
def opcodeTable : List OpcodeRow := [
  ⟨"NOP", 0x00000000, 0xFFFFFFFF⟩,
  ⟨"CLRERR", 0x00000001, 0xFFFFFFFF⟩,
  ⟨"INIT", 0x00000010, 0xFFFFFEFF⟩,
  ⟨"SCHED", 0x00000011, 0xFFFFFFFF⟩,
  ⟨"LOAD", 0x00000012, 0xFFFFFFFF⟩,
  ⟨"TDIFF", 0x00000013, 0xFFFFFFFF⟩,
  ⟨"ROUND", 0x00000014, 0xFFFFFFFF⟩,
  ⟨"FROUND", 0x00000015, 0xFFFFFFFF⟩,
  ⟨"CHAIN", 0x00000016, 0xFFFFFFFF⟩,
  ⟨"COMPRESS", 0x00000017, 0xFFFFFFFF⟩,
  ⟨"HASH", 0x00000018, 0xFFFFFEFF⟩]

/-- The command's mnemonic (Table R91, R95 without the suffix). -/
def Instr.mnemonic : Instr → String
  | .nop => "NOP"
  | .clrerr => "CLRERR"
  | .init _ => "INIT"
  | .sched => "SCHED"
  | .load => "LOAD"
  | .tdiff => "TDIFF"
  | .round => "ROUND"
  | .fround => "FROUND"
  | .chain => "CHAIN"
  | .compress => "COMPRESS"
  | .hash _ => "HASH"

/-- The assembler text of a command: the mnemonic, with the suffix `.S` or `.F` where the command has
the operand `F` (R95). -/
def Instr.asmName : Instr → String
  | .init .standard => "INIT.S"
  | .init .fast => "INIT.F"
  | .hash .standard => "HASH.S"
  | .hash .fast => "HASH.F"
  | .nop => "NOP"
  | .clrerr => "CLRERR"
  | .sched => "SCHED"
  | .load => "LOAD"
  | .tdiff => "TDIFF"
  | .round => "ROUND"
  | .fround => "FROUND"
  | .chain => "CHAIN"
  | .compress => "COMPRESS"

end Sys2Proof
end

