-- ==== Sys2Proof/Machine/State.lean ====
section
/-! DEFINITION. The state of the engine as plain data (spec/10_state.md), the reasons a step can stop,
and the state after reset (Table R42). -/

namespace Sys2Proof.Machine

/-- The phases of the sequencer, `SEQ.PH` (spec/10_state.md R30). -/
inductive Phase where
  | idle
  | pInit
  | pSched
  | pLoad
  | pTdiff
  | pRound
  | pFround
  | pChain
  deriving DecidableEq, Repr

/-- The six error causes of Table R211. They are recorded in the state and stop nothing. -/
inductive ErrorCause where
  | illegalCmd
  | busyAccess
  | badAccess
  | lenRange
  | blkRange
  | badRound
  deriving DecidableEq, Repr

/-- Why the model stops. -/
inductive Fault where
  /-- A byte of `MSG` that nothing has written since reset was read, by SCHED, LOAD, HASH or the host:
  the byte has no value, and R249 and R42 ask a model to fault. Safe: the hardware goes on with some
  byte (log 5). -/
  | unwrittenMessageByte (a : Nat)
  deriving DecidableEq, Repr

/-- Why the model has no meaning for an instruction. -/
inductive Refusal where
  /-- An instruction whose meaning is not written yet; no arm of `exec` raises it. Safe. -/
  | notModelled (mnemonic : String)
  deriving DecidableEq, Repr

/-- The state. Fields up to `msg` are the spec's (spec/10_state.md R20 to R36), but for `seqF`, which
the spec implies (log 12); the last three are the model's own. -/
structure State where
  /-- The parameters of the instance: constants that no step writes (R35, R37; log 6). -/
  cfg : Config.Params
  /-- `S[0..7]`, the state words (R20). -/
  s : Words8
  /-- `W[0..15]`, the block words (R21). -/
  w : Words16
  /-- `SEEN[0..255]`: bit b says that byte value b occurs (R22). -/
  seen : BitVec 256
  /-- `MODE` (R23). -/
  mode : Mode
  /-- `RC`, the round count (R24). -/
  rc : BitVec 6
  /-- `RN`, the round index (R25). -/
  rn : BitVec 6
  /-- `BLK`, the block index (R26). -/
  blk : Dword
  /-- `MLEN`, the message length in bytes (R27). -/
  mlen : Dword
  /-- `BUSY` (R28). -/
  busy : Bool
  /-- `ERR` (R29). -/
  err : Bool
  /-- `ECODE` (R29). -/
  ecode : BitVec 3
  /-- `EINFO` (R29). -/
  einfo : Word
  /-- `SEQ.OP`, the opcode of the command being executed (R30). -/
  seqOp : Byte
  /-- The operand `F` of the command being executed, until its phase `P_INIT` (R190; log 12). -/
  seqF : Mode
  /-- `SEQ.PH` (R30). -/
  seqPh : Phase
  /-- `MSG`: the bytes written since reset, by rising address (R36; log 5). -/
  msg : List Host.Cell
  /-- MODEL: the inputs still to come, in the host's order (R73; log 10). -/
  inbox : List Pending
  /-- MODEL: the values host reads have returned, the newest first (log 21). -/
  replies : List Word
  /-- MODEL: how many free values reads while busy have drawn (R41; log 11). -/
  freeIx : Nat
  deriving DecidableEq, Repr

/-- The state after reset (Table R42, spec/70_reset_and_hazards.md R240). `S`, `W`, `SEEN` and `SEQ.OP`
have no value there; the model's 0 is a DESIGN CHOICE (logs 1 to 4). `MSG` lists no byte. -/
def State.reset : State where
  cfg := Config.params
  s := #v[0, 0, 0, 0, 0, 0, 0, 0]
  w := #v[0, 0, 0, 0, 0, 0, 0, 0, 0, 0, 0, 0, 0, 0, 0, 0]
  seen := 0
  mode := .standard
  rc := 0
  rn := 0
  blk := 0
  mlen := 0
  busy := false
  err := false
  ecode := 0
  einfo := 0
  seqOp := 0
  seqF := .standard
  seqPh := .idle
  msg := []
  inbox := []
  replies := []
  freeIx := 0

end Sys2Proof.Machine
end

