-- ==== Sys2Proof/Machine/Flags.lean ====
section
/-! DEFINITION. The flags the host sees: the `STATUS` word (spec/10_state.md R40), the count of byte
values present (R39), and the code of each error cause (spec/60_exceptions.md R211). The engine has no
arithmetic flags (spec/40_primitives.md R116). -/

namespace Sys2Proof.Machine

/-- `ECODE` of an error cause (Table R211). -/
def errorCode : ErrorCause → BitVec 3
  | .illegalCmd => 1
  | .busyAccess => 2
  | .badAccess => 3
  | .lenRange => 4
  | .blkRange => 5
  | .badRound => 6

/-- `STATUS` (R40): bits 31:7 zero, 6:4 `ECODE`, 3 zero, 2 `FAST` = `MODE`, 1 `ERR`, 0 `BUSY`. -/
def statusWord (s : State) : Word :=
  (0 : BitVec 25) ++ s.ecode ++ (0 : BitVec 1) ++ s.mode.bit ++ BitVec.ofBool s.err
    ++ BitVec.ofBool s.busy

/-- The number of b in 0..255 with `SEEN[b]` = 1 (R39, spec/42_round_schedule.md R141). -/
def uniqueBytes (seen : BitVec 256) : Nat := (List.range 256).countP fun b => seen.getLsbD b

/-- `SEEN_W[w]`: bit b is `SEEN[32w + b]` (R39). -/
def seenWord (seen : BitVec 256) (w : Nat) : Word := seen.extractLsb' (32 * w) 32

end Sys2Proof.Machine
end

