-- ==== Sys2Proof/Machine/Ops.lean ====
section
/-! DEFINITION. The named operations over the message buffer, the error record and the host's port:
reading and writing a byte of `MSG`, error entry and its return, the acceptance of a command
(spec/46_sequencer.md R191), and the reset event. -/

namespace Sys2Proof.Machine

/-- The three outcomes of a step of this machine. -/
abbrev Result := Host.Outcome State Fault Refusal

/-- Run `k` on the next state, or stop. -/
def andThen (o : Result) (k : State → Result) : Result :=
  match o with
  | .next s => k s
  | .fault f => .fault f
  | .refused r => .refused r

/-! ### The message buffer (spec/10_state.md R36, spec/20_memory.md R62) -/

/-- What an address that nothing has written since reset reads as: no value (R42, R249; log 5). -/
def unwrittenReads : Option Byte := none

/-- `MSG[a]`, or no value. -/
def msgRead : List Host.Cell → Nat → Option Byte
  | [], _ => unwrittenReads
  | (b, v) :: m, a => if b = a then some v else msgRead m a

/-- `MSG[a] <- v`, keeping the addresses strictly rising. -/
def msgWrite : List Host.Cell → Nat → Byte → List Host.Cell
  | [], a, v => [(a, v)]
  | (b, x) :: m, a, v =>
    if a < b then (a, v) :: (b, x) :: m
    else if a = b then (a, v) :: m
    else (b, x) :: msgWrite m a v

/-- A 4-byte store at `a`: bits 7:0 at the lowest address (R62, R66). -/
def msgWriteWord (m : List Host.Cell) (a : Nat) (v : Word) : List Host.Cell :=
  msgWrite (msgWrite (msgWrite (msgWrite m a (byteOf v 0)) (a + 1) (byteOf v 1)) (a + 2) (byteOf v 2))
    (a + 3) (byteOf v 3)

/-- The canonical form of `MSG`: addresses strictly rising. An unlisted address has no value, so no
entry can equal what it reads as. -/
def Memory.wf : List Host.Cell → Bool
  | [] => true
  | [_] => true
  | (a, _) :: (b, y) :: m => decide (a < b) && Memory.wf ((b, y) :: m)

/-- The byte at `a` where one has been written; callers have checked that (`firstUnwritten`). -/
def msgByte (m : List Host.Cell) (a : Nat) : Byte := (msgRead m a).getD 0

/-- The lowest of the `n` addresses from `a` on that nothing has written, if there is one. -/
def firstUnwritten (m : List Host.Cell) : (n a : Nat) → Option Nat
  | 0, _ => none
  | n + 1, a =>
    match msgRead m a with
    | none => some a
    | some _ => firstUnwritten m n (a + 1)

/-! ### Error entry and return (spec/60_exceptions.md R219, R221) -/

/-- `raise E(info)`: the first error is kept, later ones are dropped (R219). -/
def raise (e : ErrorCause) (info : Word) (s : State) : State :=
  if s.err then s else { s with err := true, ecode := errorCode e, einfo := info }

/-- The return from the error state: `ERR`, `ECODE`, `EINFO` cleared, nothing restored (R186, R221). -/
def clearError (s : State) : State := { s with err := false, ecode := 0, einfo := 0 }

/-! ### Acceptance of a command (R191) -/

/-- What every command goes through when its word `encode i` is written to `CMD`: busy, then the error
filter, then the command's operand check, then `run`. `CLRERR` passes the error filter (case 2). -/
def issue (i : Instr) (check : Option ErrorCause) (run : State → Result) (s : State) : Result :=
  if s.busy then .next (raise .busyAccess 0 s)
  else if s.err && i != .clrerr then .next s
  else
    match check with
    | some e => .next (raise e (encode i) s)
    | none => run s

/-- A word that is no command, written to `CMD`: busy, then the error filter, then `ILLEGAL_CMD`
(R191 cases 1 to 3, R218). -/
def rejectCommand (c : Word) (s : State) : State :=
  if s.busy then raise .busyAccess 0 s
  else if s.err then s
  else raise .illegalCmd c s

/-- `BUSY <- 1`, `SEQ.OP <- c[7:0]` and `SEQ.PH` at its first phase (R191 case 5); the operand `F` is
held for `P_INIT` (log 12). -/
def accept (i : Instr) (ph : Phase) (s : State) : State :=
  { s with busy := true, seqOp := i.opcode, seqF := i.modeOperand, seqPh := ph }

/-- `SEQ.PH <- ph`; `BUSY` falls with the phase `IDLE` (spec/10_state.md R30, R192). -/
def goTo (ph : Phase) (s : State) : State := { s with seqPh := ph, busy := ph != .idle }

/-! ### The host's port -/

/-- The value a host read returns. -/
def reply (v : Word) (s : State) : State := { s with replies := v :: s.replies }

/-- The reset event: every piece of the engine's state has its reset value, a running command is
abandoned (spec/70_reset_and_hazards.md R240). The parameters are no state (R37, R241) and the host's
side of the port is not the engine's (log 19). -/
def resetEvent (s : State) : State :=
  { State.reset with cfg := s.cfg, inbox := s.inbox, replies := s.replies, freeIx := s.freeIx }

end Sys2Proof.Machine
end

