-- ==== Sys2Proof/Machine/Diffusion.lean ====
section
/-! DEFINITION. The diffusion core of the standard path (spec/43_diffusion_core.md): `mix`, temporal
diffusion, the compression round, the chaining step, and the standard block function. -/

namespace Sys2Proof.Machine

open Sys2Proof.Config (Params)

/-- `mix(a, b, c, p)`, line by line (R146). -/
def mix (a b c p : Word) : Word :=
  let t := add32 (xor32 a b) c
  let t := rotl32 t 13
  let t := mul32 t p
  let t := xor32 t (shr32 t 16)
  let t := rotl32 t 5
  add32 t p

/-- `ns[tg] ^= ROTL32(temp, 4 off)` with `tg = (i + off) mod 8`: one push of the cascade (R147). -/
def cascadePush (temp : Word) (i off : Nat) (ns : Words8) : Words8 :=
  setLane ns (i + off) (xor32 (lane ns (i + off)) (rotl32 temp (4 * off)))

/-- The mix of lane i with its influence `W[i]`: `mix(S[i], S[(i+1) mod 8], W[i], PRIME[i])`. -/
def mixLane (p : Params) (s : Words8) (w : Words16) (i : Nat) : Word :=
  mix (lane s i) (lane s (i + 1)) (blockWord w i) (lane p.prime i)

/-- The body of the loop over i under the interleaved reading: three pushes, then the assignment
(R148). -/
def tdiffLane (p : Params) (s : Words8) (w : Words16) (ns : Words8) (i : Nat) : Words8 :=
  let temp := add32 (lane s i) (blockWord w i)
  let ns := cascadePush temp i 1 ns
  let ns := cascadePush temp i 2 ns
  let ns := cascadePush temp i 3 ns
  setLane ns i (mixLane p s w i)

/-- `tdiff(S, W)` (R148 or R150 as `TDIFF_READING` says). -/
def tdiff (p : Params) (s : Words8) (w : Words16) : Words8 :=
  match p.tdiffReading with
  | .interleaved => [0, 1, 2, 3, 4, 5, 6, 7].foldl (tdiffLane p s w) s
  | .twoPass => lanes (mixLane p s w)

/-- Lane i of a compression round, before the last addition: the value t (R152). -/
def roundTerm (p : Params) (s : Words8) (w : Words16) (rn i : Nat) : Word :=
  let rot := (rotationAmount p rn).toNat
  let t := add32 (xor32 (lane s i) (rotl32 (lane s (i + 1)) rot)) (lane s (i + 5))
  let t := xor32 t (blockWord w (i + rn))
  let t := mul32 t (lane p.prime i)
  rotl32 t 11

/-- `round(S, W, rn)`: all lanes read the round's starting snapshot (R152). -/
def compressionRound (p : Params) (s : Words8) (w : Words16) (rn : Nat) : Words8 :=
  lanes fun i => add32 (lane s i) (roundTerm p s w rn i)

/-- `chain(S)`: the initial-state constants added word by word (R155). -/
def chain (p : Params) (s : Words8) : Words8 :=
  lanes fun i => add32 (lane s i) (lane p.initialState i)

/-- The rounds rn = 0, 1, .., n - 1 in order (R157). -/
def roundsUpTo (p : Params) (w : Words16) (s : Words8) : Nat → Words8
  | 0 => s
  | n + 1 => compressionRound p (roundsUpTo p w s n) w n

/-- `compress_std(S, W, rc)` (R157). -/
def compressStd (p : Params) (s : Words8) (w : Words16) (rc : Nat) : Words8 :=
  chain p (roundsUpTo p w (tdiff p s w) rc)

/-- The phase `P_TDIFF` (R151). -/
def tdiffStep (s : State) : State := { s with s := tdiff s.cfg s.s s.w }

/-- The phase `P_ROUND` (R154). -/
def roundStep (s : State) : State :=
  { s with s := compressionRound s.cfg s.s s.w s.rn.toNat, rn := s.rn + 1 }

/-- The phase `P_CHAIN` (R156). -/
def chainStep (s : State) : State :=
  { s with s := chain s.cfg s.s, blk := s.blk + 1, rn := 0 }

end Sys2Proof.Machine
end

