-- ==== Sys2Proof/Machine/FastPath.lean ====
section
/-! DEFINITION. Fast-path compression (spec/44_fast_path.md): the fast round in both lane orders, and
the fast block function. -/

namespace Sys2Proof.Machine

open Sys2Proof.Config (Params)

/-- Lane i of fast round r, reading the words `x`: `S[i] + (((a xor rotl b) + c) xor d) * PRIME[i]`
(R167, with the precedence of R168). -/
def fastLane (p : Params) (x : Words8) (w : Words16) (r i : Nat) : Word :=
  let rot := (fastRotAmount r).toNat
  let t := xor32 (add32 (xor32 (lane x i) (rotl32 (lane x (i + 1)) rot)) (lane x (i + 5)))
    (blockWord w (i + r))
  add32 (lane x i) (mul32 t (lane p.prime i))

/-- `fround(S, W, r)`: all lanes read the starting state (`snapshot`, R167), or lane i reads the words
already updated by lanes 0..i-1 (`in_place`, R169). -/
def fastRound (p : Params) (s : Words8) (w : Words16) (r : Nat) : Words8 :=
  match p.fastLaneOrder with
  | .snapshot => lanes (fastLane p s w r)
  | .inPlace => [0, 1, 2, 3, 4, 5, 6, 7].foldl (fun x i => setLane x i (fastLane p x w r i)) s

/-- The fast rounds r = 0, 1, .., n - 1 in order (R171). -/
def fastRoundsUpTo (p : Params) (w : Words16) (s : Words8) : Nat → Words8
  | 0 => s
  | n + 1 => fastRound p (fastRoundsUpTo p w s n) w n

/-- `compress_fast(S, W)` (R171). -/
def compressFast (p : Params) (s : Words8) (w : Words16) : Words8 :=
  chain p (fastRoundsUpTo p w s Config.roundsFast)

/-- The operand check of `FROUND`: the source has no ninth fast round (R170, R217). -/
def froundCheck (s : State) : Option ErrorCause :=
  if Config.roundsFast ≤ s.rn.toNat then some .badRound else none

/-- The phase `P_FROUND` (R170). -/
def froundStep (s : State) : State :=
  { s with s := fastRound s.cfg s.s s.w s.rn.toNat, rn := s.rn + 1 }

end Sys2Proof.Machine
end

