-- ==== Sys2Proof/Machine/Framing.lean ====
section
/-! DEFINITION. Message framing (spec/41_framing.md): the padding function, its closed forms, and the
step `LOAD`. A message is a function from address to byte, read at addresses below its length. -/

namespace Sys2Proof.Machine

/-- Step (2) of R120: zero bytes until the running length is 56 modulo 64; `fuel` is at least the
number of them (63 always suffices). -/
def padZeros : (fuel : Nat) → List Byte → List Byte
  | 0, m => m
  | fuel + 1, m => if m.length % 64 = 56 then m else padZeros fuel (m ++ [0])

/-- The bit length `8·L` as the length field holds it, for `L < 2^61` (R120, R122). Beyond that the
source gives no value and no truncation may be assumed (R124, U1, N18): the field is a free value there
(log 24). -/
def bitLength (l : Nat) : Dword :=
  if l < 2 ^ 61 then BitVec.ofNat 64 (8 * l) else Config.unrepresentableLength l

/-- `pad(m)`, the source's algorithm (R120): `0x80`, zero bytes, the bit length big-endian. Of 2^61 bytes
or more the length field is a free value (`bitLength`; log 24). -/
def pad (m : List Byte) : List Byte :=
  padZeros 63 (m ++ [Config.padMark]) ++ be64Bytes (bitLength m.length)

/-- `Z(L)`, the number of zero bytes (R121): (55 - L) mod 64. -/
def zeroCount (l : Nat) : Nat := (55 + 63 * l) % 64

/-- `PLEN(L)`, the padded length (R121). -/
def paddedLength (l : Nat) : Nat := 64 * ((l + 8) / 64 + 1)

/-- `NB(L)`, the number of blocks (R121). -/
def blockCount (l : Nat) : Nat := (l + 8) / 64 + 1

/-- `P(m, j)`, byte j of the padded message of length `l`, for j below `PLEN(l)` (R122). From 2^61 on its
length field is a free value (`bitLength`; log 24). -/
def paddedByte (m : Nat → Byte) (l j : Nat) : Byte :=
  if j < l then m j
  else if j = l then Config.padMark
  else if j < paddedLength l - 8 then 0
  else (bitLength l).extractLsb' (8 * (paddedLength l - 1 - j)) 8

/-- `BW(m, k, j)`, word j of block k (R123). -/
def framedWord (m : Nat → Byte) (l k j : Nat) : Word :=
  le32 (paddedByte m l (64 * k + 4 * j)) (paddedByte m l (64 * k + 4 * j + 1))
    (paddedByte m l (64 * k + 4 * j + 2)) (paddedByte m l (64 * k + 4 * j + 3))

/-- Block k of the padded message as sixteen words (R123). -/
def framedBlock (m : Nat → Byte) (l k : Nat) : Words16 := words16 (framedWord m l k)

/-- Whether the message would not lie inside the buffer (spec/60_exceptions.md R215). -/
def lengthCheck (s : State) : Option ErrorCause :=
  if s.cfg.msgCap < s.mlen.toNat then some .lenRange else none

/-- The operand check of `LOAD` (R126): `LEN_RANGE`, then `BLK_RANGE`. -/
def loadCheck (s : State) : Option ErrorCause :=
  match lengthCheck s with
  | some e => some e
  | none => if blockCount s.mlen.toNat ≤ s.blk.toNat then some .blkRange else none

/-- The phase `P_LOAD` (R126): block `BLK` of the padded message into `W`. It reads the message bytes
of that block, and a byte nothing has written is the model's fault (R249). -/
def loadStep (s : State) : Result :=
  let l := s.mlen.toNat
  let k := s.blk.toNat
  match firstUnwritten s.msg (min l (64 * k + 64) - 64 * k) (64 * k) with
  | some a => .fault (.unwrittenMessageByte a)
  | none => .next { s with w := framedBlock (msgByte s.msg) l k }

end Sys2Proof.Machine
end

