-- ==== Sys2Proof/Machine/Schedule.lean ====
section
/-! DEFINITION. The round schedule (spec/42_round_schedule.md): the function `rounds` and the step
`SCHED`. -/

namespace Sys2Proof.Machine

/-- `SEEN` after marking the bytes `m 0` .. `m (n-1)` (R141). -/
def presence (m : Nat → Byte) : Nat → BitVec 256
  | 0 => 0
  | n + 1 => presence m n ||| BitVec.twoPow 256 (m n).toNat

/-- The round count of standard mode from the number of distinct byte values: 20 + (3u) div 64
(R138). -/
def scheduledRounds (u : Nat) : Nat := Config.roundsBase + (3 * u) / 64

/-- The number of distinct byte values of a message (R137). -/
def distinctBytes (m : List Byte) : Nat := (List.range 256).countP fun b => m.any fun x => x.toNat == b

/-- `rounds(m, fast)` (R135): always 8 in fast mode (R136); in standard mode the source's rule, with
its special case for the empty message and its formula floor(u / 256 * 12) over the rationals
(R137). -/
def rounds (m : List Byte) (f : Mode) : Nat :=
  match f with
  | .fast => Config.roundsFast
  | .standard =>
    if m = [] then Config.roundsBase
    else Config.roundsBase + (distinctBytes m * 12) / 256

/-- The phase `P_SCHED` (R141). In fast mode no byte is read and `SEEN` is cleared (D36); in standard
mode every byte below `MLEN` is read, and one that nothing has written is the model's fault (R249). -/
def schedStep (s : State) : Result :=
  match s.mode with
  | .fast => .next { s with seen := 0, rc := BitVec.ofNat 6 Config.roundsFast }
  | .standard =>
    match firstUnwritten s.msg s.mlen.toNat 0 with
    | some a => .fault (.unwrittenMessageByte a)
    | none =>
      let seen := presence (msgByte s.msg) s.mlen.toNat
      .next { s with seen := seen, rc := BitVec.ofNat 6 (scheduledRounds (uniqueBytes seen)) }

end Sys2Proof.Machine
end

