-- ==== Sys2Proof/Machine/Digest.lean ====
section
/-! DEFINITION. Digest assembly (spec/45_digest_assembly.md): the digest bytes and the hexadecimal
view of the state; and the digest contract (spec/46_sequencer.md R194). -/

namespace Sys2Proof.Machine

open Sys2Proof.Config (Params)

/-- `DG(S)[j]`: byte `j mod 4` of `S[j div 4]` (R175). -/
def digestByte (s : Words8) (j : Nat) : Byte := byteOf (lane s (j / 4)) (j % 4)

/-- The 32 bytes of `DG(S)`. -/
def digestBytes (s : Words8) : List Byte := (List.range 32).map (digestByte s)

/-- The ASCII code of a lower-case hexadecimal digit, n in 0..15 (R176). -/
def hexChar (n : Nat) : Byte := if n < 10 then BitVec.ofNat 8 (0x30 + n) else BitVec.ofNat 8 (0x61 + n - 10)

/-- Character c (0..63) of the hex digest: the high nibble of byte `c / 2` first (R176). -/
def hexDigit (s : Words8) (c : Nat) : Byte :=
  if c % 2 = 0 then hexChar ((digestByte s (c / 2)).toNat / 16)
  else hexChar ((digestByte s (c / 2)).toNat % 16)

/-- The hex digest, 64 characters. -/
def hexDigits (s : Words8) : List Byte := (List.range 64).map (hexDigit s)

/-- `HEX[q]`: characters 4q .. 4q+3, the first in bits 7:0 (R177). -/
def hexWord (s : Words8) (q : Nat) : Word :=
  le32 (hexDigit s (4 * q)) (hexDigit s (4 * q + 1)) (hexDigit s (4 * q + 2)) (hexDigit s (4 * q + 3))

/-- Folding one block into the state by the mode's algorithm (R194). -/
def foldBlock (p : Params) (f : Mode) (rc : Nat) (x : Words8) (w : Words16) : Words8 :=
  match f with
  | .standard => compressStd p x w rc
  | .fast => compressFast p x w

/-- `X_k` for the message `m` of length `l` and the round count `rc` (R194). -/
def chainValue (p : Params) (f : Mode) (rc : Nat) (m : Nat → Byte) (l : Nat) : Nat → Words8
  | 0 => p.initialState
  | k + 1 => foldBlock p f rc (chainValue p f rc m l k) (framedBlock m l k)

/-- A message as a function from address to byte. -/
def messageAt (m : List Byte) (a : Nat) : Byte := m.getD a 0

/-- The final state `X_NB(L)` of the digest computation of a message (R194). -/
def digestState (p : Params) (m : List Byte) (f : Mode) : Words8 :=
  chainValue p f (rounds m f) (messageAt m) m.length (blockCount m.length)

/-- `digest(m, f)` (R194). The source defines it for messages below 2^61 bytes (R124, R179); beyond that
the length field it digests is a free value (`bitLength`; log 24). -/
def digest (p : Params) (m : List Byte) (f : Mode) : List Byte := digestBytes (digestState p m f)

/-- `hex_digest(m, f)` (R194, R176), of 2^61 bytes or more as `digest` (log 24). -/
def hexDigest (p : Params) (m : List Byte) (f : Mode) : List Byte := hexDigits (digestState p m f)

end Sys2Proof.Machine
end

