-- ==== Sys2Proof/Machine/HostPort.lean ====
section
/-! DEFINITION. The host's access to the engine: the register map (spec/10_state.md R38 to R41), the
legal accesses (spec/20_memory.md R67), and what a read or write does, idle and busy. The command
register is the one place it leaves to the sequencer (R70, spec/46_sequencer.md R191). -/

namespace Sys2Proof.Machine

/-- The register at a byte offset, the rows of Table R38 below the window; `none` where the offset is
unmapped or not a register's first byte. -/
def regAt (off : Nat) : Option Reg :=
  if off % 4 ≠ 0 then none
  else if off = 0x000 then some .cmd
  else if off = 0x004 then some .status
  else if off = 0x008 then some .mlenLo
  else if off = 0x00C then some .mlenHi
  else if off = 0x010 then some .blkLo
  else if off = 0x014 then some .blkHi
  else if off = 0x018 then some .rc
  else if off = 0x01C then some .rn
  else if off < 0x040 then some (.s (Fin.ofNat 8 ((off - 0x020) / 4)))
  else if off < 0x080 then some (.w (Fin.ofNat 16 ((off - 0x040) / 4)))
  else if off < 0x0A0 then some (.seenW (Fin.ofNat 8 ((off - 0x080) / 4)))
  else if off = 0x0A0 then some .uniq
  else if off = 0x0A4 then some .einfo
  else if off = 0x0A8 then some .msgcapLo
  else if off = 0x0AC then some .msgcapHi
  else if off < 0x0C0 then none
  else if off < 0x100 then some (.hex (Fin.ofNat 16 ((off - 0x0C0) / 4)))
  else if off < 0x120 then some (.prime (Fin.ofNat 8 ((off - 0x100) / 4)))
  else if off < 0x140 then some (.initialState (Fin.ofNat 8 ((off - 0x120) / 4)))
  else if off < 0x180 then some (.rotations (Fin.ofNat 16 ((off - 0x140) / 4)))
  else if off < 0x1A0 then some (.fastrot (Fin.ofNat 8 ((off - 0x180) / 4)))
  else none

/-- The offset of a register (Table R38), for host scripts (spec/30_encoding.md R96). -/
def regOffset : Reg → Nat
  | .cmd => 0x000
  | .status => 0x004
  | .mlenLo => 0x008
  | .mlenHi => 0x00C
  | .blkLo => 0x010
  | .blkHi => 0x014
  | .rc => 0x018
  | .rn => 0x01C
  | .s i => 0x020 + 4 * i.val
  | .w j => 0x040 + 4 * j.val
  | .seenW w => 0x080 + 4 * w.val
  | .uniq => 0x0A0
  | .einfo => 0x0A4
  | .msgcapLo => 0x0A8
  | .msgcapHi => 0x0AC
  | .hex q => 0x0C0 + 4 * q.val
  | .prime i => 0x100 + 4 * i.val
  | .initialState i => 0x120 + 4 * i.val
  | .rotations k => 0x140 + 4 * k.val
  | .fastrot r => 0x180 + 4 * r.val

/-- The access column of Table R38. -/
def regAccess : Reg → Access
  | .cmd => .wo
  | .mlenLo | .mlenHi | .blkLo | .blkHi | .rc | .rn | .s _ | .w _ => .rw
  | .status | .seenW _ | .uniq | .einfo | .msgcapLo | .msgcapHi | .hex _ => .ro
  | .prime _ | .initialState _ | .rotations _ | .fastrot _ => .ro

/-- The first offset of the message window (R62). -/
def windowBase : Nat := 0x1000

/-- What an access of `n` bytes at `off` touches, where the form is one of R67; `none` for another
width, a misaligned 4-byte access, an unmapped offset, or one past `MSG_CAP`. -/
def accessTarget (cap off n : Nat) : Option Target :=
  if off < windowBase then
    if n = 4 then (regAt off).map .reg
    else if n = 1 then (regAt (off / 4 * 4)).map fun r => .regByte r (Fin.ofNat 4 off)
    else none
  else
    let a := off - windowBase
    if n = 1 ∧ a < cap then some (.msgByte a)
    else if n = 4 ∧ a % 4 = 0 ∧ a + 3 < cap then some (.msgWord a)
    else none

/-- Whether a legal form may be written: not a read-only register, and no single byte of a register
(R67). -/
def targetWritable : Target → Bool
  | .reg r => regAccess r != .ro
  | .regByte _ _ => false
  | .msgByte _ | .msgWord _ => true

/-- What a legal write touches (R67). -/
def writeTarget (cap off n : Nat) : Option Target :=
  (accessTarget cap off n).filter targetWritable

/-- What a register reads as (Table R38, R39, R40; a write-only register reads 0). -/
def regRead (r : Reg) (s : State) : Word :=
  match r with
  | .cmd => 0
  | .status => statusWord s
  | .mlenLo => s.mlen.extractLsb' 0 32
  | .mlenHi => s.mlen.extractLsb' 32 32
  | .blkLo => s.blk.extractLsb' 0 32
  | .blkHi => s.blk.extractLsb' 32 32
  | .rc => s.rc.setWidth 32
  | .rn => s.rn.setWidth 32
  | .s i => lane s.s i.val
  | .w j => blockWord s.w j.val
  | .seenW w => seenWord s.seen w.val
  | .uniq => BitVec.ofNat 32 (uniqueBytes s.seen)
  | .einfo => s.einfo
  | .msgcapLo => (BitVec.ofNat 64 s.cfg.msgCap).extractLsb' 0 32
  | .msgcapHi => (BitVec.ofNat 64 s.cfg.msgCap).extractLsb' 32 32
  | .hex q => hexWord s.s q.val
  | .prime i => lane s.cfg.prime i.val
  | .initialState i => lane s.cfg.initialState i.val
  | .rotations k => (rotationAmount s.cfg k.val).setWidth 32
  | .fastrot r => (fastRotAmount r.val).setWidth 32

/-- A host write of a register while idle (Table R38). `CMD` stores nothing: its write issues a
command, in `step`. A read-only register is never reached (`writeTarget`). -/
def regWrite (r : Reg) (v : Word) (s : State) : State :=
  match r with
  | .mlenLo => { s with mlen := s.mlen.extractLsb' 32 32 ++ v }
  | .mlenHi => { s with mlen := v ++ s.mlen.extractLsb' 0 32 }
  | .blkLo => { s with blk := s.blk.extractLsb' 32 32 ++ v }
  | .blkHi => { s with blk := v ++ s.blk.extractLsb' 0 32 }
  | .rc => { s with rc := v.setWidth 6 }
  | .rn => { s with rn := v.setWidth 6 }
  | .s i => { s with s := setLane s.s i.val v }
  | .w j => { s with w := setBlockWord s.w j.val v }
  | .cmd | .status | .seenW _ | .uniq | .einfo | .msgcapLo | .msgcapHi | .hex _ => s
  | .prime _ | .initialState _ | .rotations _ | .fastrot _ => s

/-- A byte as the data of a 1-byte read. -/
def byteData (b : Byte) : Word := b.setWidth 32

/-- The data of a legal read while idle, or the message address that has no value (R62, R66, R42). -/
def targetRead (t : Target) (s : State) : Except Nat Word :=
  match t with
  | .reg r => .ok (regRead r s)
  | .regByte r k => .ok (byteData (byteOf (regRead r s) k.val))
  | .msgByte a =>
    match firstUnwritten s.msg 1 a with
    | some b => .error b
    | none => .ok (byteData (msgByte s.msg a))
  | .msgWord a =>
    match firstUnwritten s.msg 4 a with
    | some b => .error b
    | none => .ok (le32 (msgByte s.msg a) (msgByte s.msg (a + 1)) (msgByte s.msg (a + 2))
        (msgByte s.msg (a + 3)))

/-- The effect of a legal write while idle (R62, Table R38). A 1-byte write takes bits 7:0 (log 15). -/
def targetWrite (t : Target) (v : Word) (s : State) : State :=
  match t with
  | .reg r => regWrite r v s
  | .regByte _ _ => s
  | .msgByte a => { s with msg := msgWrite s.msg a (byteOf v 0) }
  | .msgWord a => { s with msg := msgWriteWord s.msg a v }

/-- The offset as `EINFO` records it, `zext_32(offset)` (spec/60_exceptions.md R213, R214). Of an offset
that needs more than 32 bits it is the low 32 bits: R214 says so for `BAD_ACCESS`, and the model takes
the same for `BUSY_ACCESS`, of which R213 says nothing more (DEDUCED, log 26). -/
def offsetInfo (off : Nat) : Word := BitVec.ofNat 32 off

/-- An illegal read: not performed, returns 0, raises `BAD_ACCESS` (R67, R214). -/
def badRead (off : Nat) (s : State) : State := reply 0 (raise .badAccess (offsetInfo off) s)

/-- The exact data of a read of `STATUS`, whole or one byte of it; `none` for any other target
(R40, R66). -/
def statusData (t : Target) (s : State) : Option Word :=
  match t with
  | .reg r => if r = .status then some (statusWord s) else none
  | .regByte r k => if r = .status then some (byteData (byteOf (statusWord s) k.val)) else none
  | .msgByte _ | .msgWord _ => none

/-- A free value cut to the width of the access (R41; log 11). -/
def freeData (t : Target) (v : Word) : Word :=
  match t with
  | .reg _ | .msgWord _ => v
  | .regByte _ _ | .msgByte _ => byteData (byteOf v 0)

/-- A host read while busy: `STATUS` is exact, any other legal read returns a free value, and neither
changes anything of the engine (R40, R41); an illegal one raises `BAD_ACCESS` (R214). -/
def readBusy (off n : Nat) (s : State) : State :=
  match accessTarget s.cfg.msgCap off n with
  | none => badRead off s
  | some t =>
    match statusData t s with
    | some v => reply v s
    | none => reply (freeData t (Config.busyRead s.freeIx)) { s with freeIx := s.freeIx + 1 }

/-- A host write while busy: not performed; `BAD_ACCESS` when illegal, else `BUSY_ACCESS` (R213,
R218). -/
def writeBusy (off n : Nat) (s : State) : State :=
  match writeTarget s.cfg.msgCap off n with
  | none => raise .badAccess (offsetInfo off) s
  | some _ => raise .busyAccess (offsetInfo off) s

/-- An input that lands while a command runs. -/
def deliverBusy (i : HostInput) (s : State) : State :=
  match i with
  | .read off n => readBusy off n s
  | .write off n _ => writeBusy off n s
  | .reset => resetEvent s

/-- A host read while idle. -/
def readIdle (off n : Nat) (s : State) : Result :=
  match accessTarget s.cfg.msgCap off n with
  | none => .next (badRead off s)
  | some t =>
    match targetRead t s with
    | .ok v => .next (reply v s)
    | .error a => .fault (.unwrittenMessageByte a)

/-- A host write while idle, other than a command. -/
def writeIdle (off n : Nat) (v : Word) (s : State) : State :=
  match writeTarget s.cfg.msgCap off n with
  | none => raise .badAccess (offsetInfo off) s
  | some t => targetWrite t v s

/-- An input that lands while the engine is idle, other than a command. -/
def deliverIdle (i : HostInput) (s : State) : Result :=
  match i with
  | .read off n => readIdle off n s
  | .write off n v => .next (writeIdle off n v s)
  | .reset => .next (resetEvent s)

/-- The command word of an input, where it is a 4-byte write to `CMD` (R90, R191). -/
def commandWord : HostInput → Option Word
  | .write off n c => if off = 0x000 ∧ n = 4 then some c else none
  | .read _ _ | .reset => none

/-- The idle engine takes its next input: none, or the input and the state without it. This is where a
command word reaches the engine: there is no instruction fetch (spec/20_memory.md R76). -/
def takeInput (s : State) : Option (HostInput × State) :=
  match s.inbox with
  | [] => none
  | p :: rest => some (p.input, { s with inbox := rest })

/-- A command word as the host issues it, landing on an idle engine. -/
def commandInput (c : Word) : Pending := ⟨.whenIdle, .write 0x000 4 c⟩

end Sys2Proof.Machine
end

