-- ==== Sys2Proof/Machine/Sequencer.lean ====
section
/-! DEFINITION. The sequencer (spec/46_sequencer.md R190, R192): the phases and their transitions, the
host's inputs between them, and a command run to its end. -/

namespace Sys2Proof.Machine

/-- Whether the running command is `HASH` (Table R190 `SEQ.OP = HASH`). -/
def runsHash (s : State) : Bool := s.seqOp == (Instr.hash .standard).opcode

/-- Whether the running command is `HASH` or `COMPRESS` (Table R190). -/
def runsComposite (s : State) : Bool := runsHash s || s.seqOp == Instr.compress.opcode

/-- The effect of `INIT` (R187). -/
def initStep (f : Mode) (s : State) : State :=
  { s with s := s.cfg.initialState, mode := f, blk := 0, rn := 0 }

/-- The first phase of a block's compression (Table R190). -/
def compressPhase (s : State) : Phase :=
  match s.mode with
  | .standard => .pTdiff
  | .fast => .pFround

/-- Where `P_LOAD` leads. -/
def afterLoad (s : State) : Phase := if runsHash s then compressPhase s else .idle

/-- Where `P_TDIFF` leads. -/
def afterTdiff (s : State) : Phase :=
  if runsComposite s then (if 0 < s.rc.toNat then .pRound else .pChain) else .idle

/-- Where `P_ROUND` leads, with `RN` after its own update. -/
def afterRound (s : State) : Phase :=
  if runsComposite s then (if s.rn.toNat < s.rc.toNat then .pRound else .pChain) else .idle

/-- Where `P_FROUND` leads, with `RN` after its own update. -/
def afterFround (s : State) : Phase :=
  if runsComposite s then (if s.rn.toNat < Config.roundsFast then .pFround else .pChain) else .idle

/-- Where `P_CHAIN` leads, with `BLK` after its own update. -/
def afterChain (s : State) : Phase :=
  if runsHash s && decide (s.blk.toNat < blockCount s.mlen.toNat) then .pLoad else .idle

/-- One phase: its step, then the transition of Table R190. In the phase `IDLE` there is no step. -/
def phaseStep (s : State) : Result :=
  match s.seqPh with
  | .idle => .next s
  | .pInit => .next (goTo (if runsHash s then .pSched else .idle) (initStep s.seqF s))
  | .pSched => andThen (schedStep s) fun t => .next (goTo (if runsHash t then .pLoad else .idle) t)
  | .pLoad => andThen (loadStep s) fun t => .next (goTo (afterLoad t) t)
  | .pTdiff => .next (goTo (afterTdiff (tdiffStep s)) (tdiffStep s))
  | .pRound => .next (goTo (afterRound (roundStep s)) (roundStep s))
  | .pFround => .next (goTo (afterFround (froundStep s)) (froundStep s))
  | .pChain => .next (goTo (afterChain (chainStep s)) (chainStep s))

/-- An input that lands before the next engine step. -/
def Pending.due (p : Pending) : Bool := p.arrival == .afterSteps 0

/-- Deliver, in order, the inputs of `l` that are due while the engine is busy; the rest stay. -/
def deliverDue : List Pending → State → State
  | [], s => { s with inbox := [] }
  | p :: l, s =>
    if s.busy && Pending.due p then deliverDue l (deliverBusy p.input s)
    else { s with inbox := p :: l }

/-- One engine step has passed for the next input. -/
def elapse : List Pending → List Pending
  | ⟨.afterSteps (k + 1), i⟩ :: l => ⟨.afterSteps k, i⟩ :: l
  | l => l

/-- One engine step while busy: the inputs that are due land, then one phase is performed, unless a
reset event has ended the command (R192, R240). -/
def tick (s : State) : Result :=
  let t := deliverDue s.inbox s
  if t.busy then andThen (phaseStep t) fun u => .next { u with inbox := elapse u.inbox }
  else .next t

/-- Run the engine until it is idle, for at most `n` engine steps. -/
def runBusy : (n : Nat) → State → Result
  | 0, s => .next s
  | n + 1, s => if s.busy then andThen (tick s) (runBusy n) else .next s

/-- Accept the command at its first phase and run it to its end, as one transition (R192); `n` is a
bound on its engine steps. -/
def runCommand (i : Instr) (ph : Phase) (n : Nat) (s : State) : Result :=
  runBusy n (accept i ph s)

/-- The engine steps of `COMPRESS` (Table R190). -/
def compressSteps (s : State) : Nat :=
  match s.mode with
  | .standard => 2 + s.rc.toNat
  | .fast => Config.roundsFast + 1

/-- A bound on the engine steps of `HASH`: 2 + NB * (3 + RC) with the largest six-bit `RC` (R189). -/
def hashStepBound (s : State) : Nat := 2 + blockCount s.mlen.toNat * (3 + 63)

end Sys2Proof.Machine
end

