-- ==== Sys2Proof/Machine/Composite.lean ====
section
/-! DEFINITION. The composite commands `COMPRESS` and `HASH` (spec/46_sequencer.md R188, R189). -/

namespace Sys2Proof.Machine

/-- `COMPRESS`: `RN <- 0` at acceptance, then the block function of the mode (R188, Table R190). -/
def execCompress (s : State) : Result :=
  issue .compress none
    (fun s => runCommand .compress (compressPhase s) (compressSteps s) { s with rn := 0 }) s

/-- `HASH` with operand `F`: the whole digest of `MSG[0..MLEN-1]` (R189). -/
def execHash (f : Mode) (s : State) : Result :=
  issue (.hash f) (lengthCheck s) (runCommand (.hash f) .pInit (hashStepBound s)) s

end Sys2Proof.Machine
end

