-- ==== Sys2Proof/Machine/Primitive.lean ====
section
/-! DEFINITION. The primitive commands: each performs one phase of the sequencer
(spec/46_sequencer.md R190). -/

namespace Sys2Proof.Machine

/-- `INIT` with operand `F` (spec/46_sequencer.md R187). -/
def execInit (f : Mode) (s : State) : Result :=
  issue (.init f) none (runCommand (.init f) .pInit 1) s

/-- `SCHED` (spec/42_round_schedule.md R141). -/
def execSched (s : State) : Result :=
  issue .sched (lengthCheck s) (runCommand .sched .pSched 1) s

/-- `LOAD` (spec/41_framing.md R126). -/
def execLoad (s : State) : Result :=
  issue .load (loadCheck s) (runCommand .load .pLoad 1) s

/-- `TDIFF` (spec/43_diffusion_core.md R151). -/
def execTdiff (s : State) : Result :=
  issue .tdiff none (runCommand .tdiff .pTdiff 1) s

/-- `ROUND` (spec/43_diffusion_core.md R154). -/
def execRound (s : State) : Result :=
  issue .round none (runCommand .round .pRound 1) s

/-- `FROUND` (spec/44_fast_path.md R170). -/
def execFround (s : State) : Result :=
  issue .fround (froundCheck s) (runCommand .fround .pFround 1) s

/-- `CHAIN` (spec/43_diffusion_core.md R156). -/
def execChain (s : State) : Result :=
  issue .chain none (runCommand .chain .pChain 1) s

end Sys2Proof.Machine
end

