-- ==== Sys2Proof/Machine/System.lean ====
section
/-! DEFINITION. The housekeeping commands `NOP` and `CLRERR` (spec/46_sequencer.md R185, R186). -/

namespace Sys2Proof.Machine

/-- `NOP`: no effect, subject to R191 (R185). -/
def execNop (s : State) : Result := issue .nop none (fun s => .next s) s

/-- `CLRERR`: clears the error record; the only command performed while `ERR = 1` (R186). -/
def execClrerr (s : State) : Result := issue .clrerr none (fun s => .next (clearError s)) s

end Sys2Proof.Machine
end

