-- ==== Sys2Proof/Machine/Dispatch.lean ====
section
/-! DEFINITION. The meaning of each command, one arm per constructor. -/

namespace Sys2Proof.Machine

def exec (i : Instr) (s : State) : Host.Outcome State Fault Refusal :=
  match i with
  | .nop => Sys2Proof.Machine.execNop s
  | .clrerr => Sys2Proof.Machine.execClrerr s
  | .init f => Sys2Proof.Machine.execInit f s
  | .sched => Sys2Proof.Machine.execSched s
  | .load => Sys2Proof.Machine.execLoad s
  | .tdiff => Sys2Proof.Machine.execTdiff s
  | .round => Sys2Proof.Machine.execRound s
  | .fround => Sys2Proof.Machine.execFround s
  | .chain => Sys2Proof.Machine.execChain s
  | .compress => Sys2Proof.Machine.execCompress s
  | .hash f => Sys2Proof.Machine.execHash f s

end Sys2Proof.Machine
end

