-- ==== Sys2Proof/Machine/Fetch.lean ====
section
/-! DEFINITION. How the idle engine takes its next input: a command word is decoded and executed, any
other access performed (spec/46_sequencer.md R191, spec/20_memory.md R73, R76). -/

namespace Sys2Proof.Machine

/-- A write of the word c to `CMD` (R191): decoded, then executed or rejected. -/
def stepCommand (c : Word) (s : State) : Result :=
  match decode c with
  | .ok i => exec i s
  | .error _ => .next (rejectCommand c s)

/-- The step of an idle engine. With no input to take it holds its state (spec/60_exceptions.md
R229, spec/70_reset_and_hazards.md R241). -/
def idleStep (s : State) : Result :=
  match takeInput s with
  | none => .next s
  | some (i, t) =>
    match commandWord i with
    | some c => stepCommand c t
    | none => deliverIdle i t

end Sys2Proof.Machine
end

