-- ==== Sys2Proof/Machine/Step.lean ====
section
/-! DEFINITION. One step of the machine: a busy engine performs one engine step (spec/46_sequencer.md
R192), an idle engine takes the host's next input. -/

namespace Sys2Proof.Machine

/-- One step. -/
def step (s : State) : Host.Outcome State Fault Refusal :=
  if s.busy then tick s else idleStep s

/-- `s` with the command word `w` of `nbits` bits as the next input, so that the next step of an idle
engine decodes and executes it (log 10). -/
def State.withFetchWord (s : State) (nbits w : Nat) : State :=
  { s with inbox := commandInput (BitVec.ofNat 32 (w % 2 ^ nbits)) :: s.inbox }

end Sys2Proof.Machine
end

