-- ==== Sys2Proof/Machine/Script.lean ====
section
/-! DEFINITION. Host scripts (spec/30_encoding.md R96, R97): the lines as host inputs, their encoding
as triples, the pseudo-lines, and the script of a digest with what the host makes of its replies. -/

namespace Sys2Proof.Machine

/-- `offset(name)`: the offset of a name of the register map, the message window included (R96,
spec/10_state.md R38). -/
def nameOffset : MapName → Nat
  | .reg r => regOffset r
  | .msg a => windowBase + a
  | .offset off => off

/-- `WR name, value` (R96). -/
def lineWR (x : MapName) (v : Word) : HostInput := .write (nameOffset x) 4 v

/-- `WRB MSG[a], value` (R96). -/
def lineWRB (a : Nat) (v : Byte) : HostInput := .write (windowBase + a) 1 (byteData v)

/-- `RD name` (R96). -/
def lineRD (x : MapName) : HostInput := .read (nameOffset x) 4

/-- `RDB off` (R96). -/
def lineRDB (off : Nat) : HostInput := .read off 1

/-- A command mnemonic on a line of its own: `WR CMD, <its encoding>` (R96). -/
def lineCommand (i : Instr) : HostInput := lineWR (.reg .cmd) (encode i)

/-- The encoding of a line: the triple (kind, offset, data) (R96). R96 names no kinds:
spec/95_test_vectors.md section 8 writes `W4` and `R4` for the 4-byte lines and shows no data for a read;
the texts `W1` and `R1` of the 1-byte lines are the model's choice (DESIGN CHOICE, log 25). -/
def lineTriple : HostInput → Option (String × Nat × Option Word)
  | .write off 4 v => some ("W4", off, some v)
  | .write off 1 v => some ("W1", off, some v)
  | .read off 4 => some ("R4", off, none)
  | .read off 1 => some ("R1", off, none)
  | .write _ _ _ | .read _ _ | .reset => none

/-- `MSG "bytes"` (R97): the bytes from address `a` on, in order. -/
def messageBytes : (a : Nat) → List Byte → List HostInput
  | _, [] => []
  | a, b :: m => lineWRB a b :: messageBytes (a + 1) m

/-- `MSG "bytes"` (R97): the bytes, then the length. -/
def scriptMSG (m : List Byte) : List HostInput :=
  messageBytes 0 m ++
    [lineWR (.reg .mlenLo) (BitVec.ofNat 64 m.length |>.extractLsb' 0 32),
     lineWR (.reg .mlenHi) (BitVec.ofNat 64 m.length |>.extractLsb' 32 32)]

/-- `DIGEST` (R97): `RD S[0]` .. `RD S[7]`. -/
def scriptDIGEST : List HostInput := (List.range 8).map fun i => lineRD (.reg (.s (Fin.ofNat 8 i)))

/-- The digest `DIGEST` yields: `le32_bytes` of each of the eight values read, in the order of the reads
(R97, spec/20_memory.md R65). -/
def digestRead (values : List Word) : List Byte := values.flatMap le32Bytes

/-- The test of `WAIT`: the value read has bit 0 (`BUSY`) equal to 1, so the host polls again (R97). -/
def pollAgain (v : Word) : Bool := v.getLsbD 0

/-- `WAIT` as the host performs it (R97): repeat `RD STATUS` until the value read has bit 0 equal to 0.
Of the values successive reads of `STATUS` would return, those it reads. -/
def waitReads : List Word → List Word
  | [] => []
  | v :: l => if pollAgain v then v :: waitReads l else [v]

/-- `WAIT` as inputs of the engine. The spec fixes no pace of the polls (spec/70_reset_and_hazards.md
R251), so it is an argument: each of `pace` is one more poll, that many engine steps after what stands
before it, and the last poll lands once `BUSY = 0`. A poll beyond the one that ends the loop reads
`BUSY = 0` again and changes nothing (spec/20_memory.md R70; log 10). -/
def scriptWAIT (pace : List Nat) : List Pending :=
  (pace.map fun k => ⟨.afterSteps k, lineRD (.reg .status)⟩) ++ [⟨.whenIdle, lineRD (.reg .status)⟩]

/-- The script of `digest(m, f)` (R97): `MSG m`, then `HASH.S` or `HASH.F`, then `WAIT`, then `DIGEST`. -/
def scriptHash (m : List Byte) (f : Mode) (pace : List Nat) : List Pending :=
  (scriptMSG m ++ [lineCommand (.hash f)]).map (fun i => ⟨.whenIdle, i⟩) ++ scriptWAIT pace ++
    scriptDIGEST.map fun i => ⟨.whenIdle, i⟩

end Sys2Proof.Machine
end

