-- ==== Sys2Proof/Safety.lean ====
section
/-! DEFINITION. What counts as a safe run, in the terms statements use: when a command may be issued,
what a finished command leaves, the invariants of the engine, and the views two runs are compared by. -/

namespace Sys2Proof.Safety

open Sys2Proof.Machine

/-- The host has seen `BUSY = 0` and `ERR = 0` (spec/70_reset_and_hazards.md R242 (1)). -/
abbrev ready (s : State) : Prop := s.busy = false ∧ s.err = false

/-- No input lands while the command runs: the host keeps its hands off until it has seen `BUSY = 0`
(R246), or has nothing more to send. -/
abbrev quiet (s : State) : Prop := ∀ p ∈ s.inbox.head?, p.arrival = .whenIdle

/-- `MLEN <= MSG_CAP` (spec/60_exceptions.md R215). -/
abbrev lengthFits (s : State) : Prop := s.mlen.toNat ≤ s.cfg.msgCap

/-- `BLK < NB(MLEN)` (R216). -/
abbrev blockExists (s : State) : Prop := s.blk.toNat < blockCount s.mlen.toNat

/-- The operand check of a command's acceptance holds (spec/46_sequencer.md R191 case 4). -/
abbrev operandsLegal (i : Instr) (s : State) : Prop :=
  (i = .sched ∨ i = .load ∨ i = .hash .standard ∨ i = .hash .fast → lengthFits s) ∧
  (i = .load → blockExists s) ∧ (i = .fround → s.rn.toNat < 8)

/-- Every byte of the message has been written since reset (R249). -/
abbrev messageWritten (s : State) : Prop :=
  ∀ a, a < s.mlen.toNat → (msgRead s.msg a).isSome = true

/-- The message buffer holds the message `m`: its bytes from address 0, its length in `MLEN`
(R242 (2)). -/
abbrev holdsMessage (s : State) (m : List Byte) : Prop :=
  s.mlen.toNat = m.length ∧ ∀ a, a < m.length → msgRead s.msg a = m[a]?

/-- No reset event among the inputs. -/
abbrev noReset (l : List Pending) : Prop := ∀ p ∈ l, p.input ≠ .reset

/-- A run that ended well: the engine is idle and no error is recorded (spec/46_sequencer.md R193,
R220). -/
def successful (o : Result) : Prop := ∃ t, o = .next t ∧ t.busy = false ∧ t.err = false

/-! ### Views -/

/-- The state without the error record and the host's side of the port: what a host access while busy
cannot change (spec/20_memory.md R74, R213). -/
def engineView (s : State) : State :=
  { s with err := false, ecode := 0, einfo := 0, inbox := [], replies := [], freeIx := 0 }

/-- The state without what an idle engine holds of its last command: every register of the spec
(R196). -/
def registerView (s : State) : State := { s with seqOp := 0, seqF := .standard }

/-- Issued in `s`, the command completes with the registers `u` gives and the engine idle: a next state
that differs from `u` in nothing else, but for `SEQ.OP` and the held operand, which have no meaning while
idle (spec/10_state.md R30). -/
abbrev completesWith (i : Instr) (s u : State) : Prop :=
  ∃ t, exec i s = .next t ∧ registerView t = registerView { u with busy := false, seqPh := .idle }

/-- An outcome seen through a view of its state. -/
def viewOutcome (v : State → State) : Result → Result
  | .next s => .next (v s)
  | .fault f => .fault f
  | .refused r => .refused r

/-- Commands issued one after another, each once the one before has ended (R196). -/
def runMany : List Instr → State → Result
  | [], s => .next s
  | i :: l, s => andThen (exec i s) (runMany l)

/-- `n` steps of the machine. -/
def runSteps : (n : Nat) → State → Result
  | 0, s => .next s
  | n + 1, s => andThen (step s) (runSteps n)

/-! ### What each command writes (the line "Written" of its rule) -/

/-- `S` is written (spec/10_state.md R20). -/
def writesS : Instr → Bool
  | .init _ | .tdiff | .round | .fround | .chain | .compress | .hash _ => true
  | .nop | .clrerr | .sched | .load => false

/-- `W` is written (R21). -/
def writesW : Instr → Bool
  | .load | .hash _ => true
  | .nop | .clrerr | .init _ | .sched | .tdiff | .round | .fround | .chain | .compress => false

/-- `SEEN` and `RC` are written (R22, R24). -/
def writesSchedule : Instr → Bool
  | .sched | .hash _ => true
  | .nop | .clrerr | .init _ | .load | .tdiff | .round | .fround | .chain | .compress => false

/-- `MODE` is written (R23). -/
def writesMode : Instr → Bool
  | .init _ | .hash _ => true
  | .nop | .clrerr | .sched | .load | .tdiff | .round | .fround | .chain | .compress => false

/-- `RN` is written (R25). -/
def writesRN : Instr → Bool
  | .init _ | .round | .fround | .chain | .compress | .hash _ => true
  | .nop | .clrerr | .sched | .load | .tdiff => false

/-- `BLK` is written (R26). -/
def writesBLK : Instr → Bool
  | .init _ | .chain | .compress | .hash _ => true
  | .nop | .clrerr | .sched | .load | .tdiff | .round | .fround => false

/-! ### Invariants -/

/-- The commands whose run visits a phase (Table R190). -/
def phaseOf (op : Byte) (ph : Phase) : Bool :=
  match ph with
  | .idle => false
  | .pInit => op == 0x10 || op == 0x18
  | .pSched => op == 0x11 || op == 0x18
  | .pLoad => op == 0x12 || op == 0x18
  | .pTdiff => op == 0x13 || op == 0x17 || op == 0x18
  | .pRound => op == 0x14 || op == 0x17 || op == 0x18
  | .pFround => op == 0x15 || op == 0x17 || op == 0x18
  | .pChain => op == 0x16 || op == 0x17 || op == 0x18

/-- The sequencer's invariant: `SEQ.PH = IDLE` exactly when `BUSY = 0` (spec/10_state.md R30), and a
busy engine is in a phase of its command, with the operand checks of its acceptance still true and its
loop indices inside their bounds, so that no phase can go wrong (spec/46_sequencer.md R190, R191,
spec/60_exceptions.md R210). -/
abbrev sequencerInv (s : State) : Prop :=
  (s.busy = false ↔ s.seqPh = .idle) ∧
  (s.busy = true →
    phaseOf s.seqOp s.seqPh = true ∧
    (s.seqOp = 0x11 ∨ s.seqOp = 0x12 ∨ s.seqOp = 0x18 → lengthFits s) ∧
    (s.seqPh = .pLoad ∨ (s.seqOp = 0x18 ∧ s.seqPh ≠ .pInit) → blockExists s) ∧
    (s.seqOp = 0x18 ∧ (s.seqPh = .pSched ∨ s.seqPh = .pLoad) → s.rn = 0) ∧
    ((s.seqOp = 0x17 ∨ s.seqOp = 0x18) ∧ s.seqPh = .pTdiff → s.rn = 0) ∧
    ((s.seqOp = 0x17 ∨ s.seqOp = 0x18) ∧ s.seqPh = .pRound → s.rn.toNat < s.rc.toNat) ∧
    (s.seqPh = .pFround → s.rn.toNat < 8))

/-- The error record's invariant: codes 1 to 6 while `ERR = 1`, an empty record while `ERR = 0`
(spec/60_exceptions.md R211, R219, R221). -/
abbrev errorInv (s : State) : Prop :=
  (s.err = true → 1 ≤ s.ecode.toNat ∧ s.ecode.toNat ≤ 6) ∧
  (s.err = false → s.ecode = 0 ∧ s.einfo = 0)

/-- The message buffer's invariant: the canonical form, and no byte at or beyond `MSG_CAP`
(spec/10_state.md R36). -/
abbrev memoryInv (s : State) : Prop :=
  Memory.wf s.msg = true ∧ ∀ c ∈ s.msg, c.1 < s.cfg.msgCap

/-! ### The legal accesses of spec/20_memory.md R67, in its own words -/

/-- An offset inside a register of Table R38 (spec/10_state.md R38, spec/20_memory.md R71). -/
abbrev mapped (off : Nat) : Prop := off < 0x0B0 ∨ (0x0C0 ≤ off ∧ off < 0x1A0)

/-- An offset inside a register whose access column is `RO`. -/
abbrev readOnly (off : Nat) : Prop := (0x004 ≤ off ∧ off < 0x008) ∨ (0x080 ≤ off ∧ off < 0x1A0)

/-- A legal read of `n` bytes at `off` (R67). -/
abbrev legalRead (cap off n : Nat) : Prop :=
  (n = 4 ∧ off % 4 = 0 ∧ mapped off) ∨ (n = 1 ∧ mapped off) ∨
  (n = 1 ∧ 0x1000 ≤ off ∧ off - 0x1000 < cap) ∨
  (n = 4 ∧ 0x1000 ≤ off ∧ (off - 0x1000) % 4 = 0 ∧ off - 0x1000 + 3 < cap)

/-- A legal write of `n` bytes at `off` (R67). -/
abbrev legalWrite (cap off n : Nat) : Prop :=
  (n = 4 ∧ off % 4 = 0 ∧ mapped off ∧ ¬ readOnly off) ∨
  (n = 1 ∧ 0x1000 ≤ off ∧ off - 0x1000 < cap) ∨
  (n = 4 ∧ 0x1000 ≤ off ∧ (off - 0x1000) % 4 = 0 ∧ off - 0x1000 + 3 < cap)

end Sys2Proof.Safety
end

