-- ==== Sys2Proof/Certificates/Slice0/Obligations.lean ====
section
/-! DEFINITION. The statements for the provers, one definition each. -/

open Sys2Proof Sys2Proof.Machine Sys2Proof.Safety

/-! ### Encoding (spec/30_encoding.md) -/

/-- Words written out bit by bit from Table R90 decode to the command of Table R91, or are refused for
the reason of R93. -/
def Obligations.SampleWordsDecode : Prop :=
  decode 0b00000000000000000000000000000000#32 = .ok .nop ∧
  decode 0b00000000000000000000000100010000#32 = .ok (.init .fast) ∧
  decode 0b00000000000000000000000000010101#32 = .ok .fround ∧
  decode 0b00000000000000000000000000011000#32 = .ok (.hash .standard) ∧
  decode 0b00000000000000000000000000011001#32 = .error .unassignedOpcode ∧
  decode 0b00000000000000000000000100010001#32 = .error .modeOperand ∧
  decode 0b00000000000000000000001000011000#32 = .error .reservedBits

/-- Decode and encode agree in both directions: the word of every well-formed command decodes to it,
and a word that decodes is the word of what it decodes to, so no bit of a legal word is dropped
(R90, R92). -/
def Obligations.DecodeAndEncodeAgree : Prop :=
  (∀ i : Instr, i.wellFormed = true → decode (encode i) = .ok i) ∧
  (∀ (c : Word) (i : Instr), decode c = .ok i → encode i = c)

/-- The words the decoder refuses are exactly those R93 calls illegal. -/
def Obligations.RefusedWordsAreTheIllegalOnes : Prop :=
  ∀ c : Word, (∀ i, decode c ≠ .ok i) ↔
    (c.extractLsb' 9 23 ≠ 0 ∨
     c.extractLsb' 0 8 ∉ ([0x00, 0x01, 0x10, 0x11, 0x12, 0x13, 0x14, 0x15, 0x16, 0x17, 0x18] : List Byte) ∨
     (c.getLsbD 8 = true ∧ c.extractLsb' 0 8 ≠ 0x10 ∧ c.extractLsb' 0 8 ≠ 0x18))

/-- A word decodes to a command exactly when the command's row of Table R91 selects it by match and
mask and bit 8 is the command's mode operand (R91, R92). -/
def Obligations.TableRowsSelectTheDecodedCommand : Prop :=
  ∀ (c : Word) (i : Instr), decode c = .ok i ↔
    (∃ row ∈ opcodeTable, row.selects c = true ∧ row.mnemonic = i.mnemonic) ∧
    (c.getLsbD 8 = true ↔ i.modeOperand = .fast)

/-! ### The step -/

/-- An idle engine whose next input is a write to `CMD` of a word that decodes to the command i
executes i on the state without that input; and `withFetchWord` places such an input. That inputs stand
in a list of the state is the model's choice (log 10). -/
def Obligations.StepRunsTheDecodedCommand : Prop :=
  (∀ (s : State) (a : Arrival) (rest : List Pending) (c : Word) (i : Instr),
    s.busy = false → s.inbox = ⟨a, .write 0x000 4 c⟩ :: rest → decode c = .ok i →
    step s = exec i { s with inbox := rest }) ∧
  (∀ (s : State) (i : Instr), s.busy = false →
    step (s.withFetchWord 32 (encode i).toNat) = exec i s)

/-- An idle engine with no input to take holds its state (spec/60_exceptions.md R229). -/
def Obligations.IdleEngineHoldsItsState : Prop :=
  ∀ s : State, s.busy = false → s.inbox = [] → step s = .next s

/-- A busy engine with no input due performs one phase and takes the transition of Table R190; `RN` and
`BLK` are tested after the phase's own update. That `F` is held until `P_INIT` is the model's inference
(log 12); what `P_FROUND` does with `RN` at 8 or above, which no run reaches, its choice (log 20). -/
def Obligations.BusyStepFollowsThePhaseTable : Prop :=
  ∀ s : State, s.busy = true → quiet s →
    (s.seqPh = .pInit →
      step s = .next (goTo (if s.seqOp = 0x18 then .pSched else .idle)
        { s with s := s.cfg.initialState, mode := s.seqF, blk := 0, rn := 0 })) ∧
    (s.seqPh = .pSched →
      step s = andThen (schedStep s) fun t => .next (goTo (if s.seqOp = 0x18 then .pLoad else .idle) t)) ∧
    (s.seqPh = .pLoad →
      step s = andThen (loadStep s) fun t => .next (goTo
        (if s.seqOp = 0x18 then (if s.mode = .standard then .pTdiff else .pFround) else .idle) t)) ∧
    (s.seqPh = .pTdiff →
      step s = .next (goTo
        (if s.seqOp = 0x18 ∨ s.seqOp = 0x17 then (if 0 < s.rc.toNat then .pRound else .pChain) else .idle)
        { s with s := tdiff s.cfg s.s s.w })) ∧
    (s.seqPh = .pRound →
      step s = .next (goTo
        (if s.seqOp = 0x18 ∨ s.seqOp = 0x17 then
          (if (s.rn.toNat + 1) % 64 < s.rc.toNat then .pRound else .pChain) else .idle)
        { s with s := compressionRound s.cfg s.s s.w s.rn.toNat, rn := s.rn + 1 })) ∧
    (s.seqPh = .pFround →
      step s = .next (goTo
        (if s.seqOp = 0x18 ∨ s.seqOp = 0x17 then
          (if (s.rn.toNat + 1) % 64 < 8 then .pFround else .pChain) else .idle)
        { s with s := fastRound s.cfg s.s s.w s.rn.toNat, rn := s.rn + 1 })) ∧
    (s.seqPh = .pChain →
      step s = .next (goTo
        (if s.seqOp = 0x18 ∧ (s.blk.toNat + 1) % 2 ^ 64 < (s.mlen.toNat + 8) / 64 + 1 then .pLoad
          else .idle)
        { s with s := chain s.cfg s.s, blk := s.blk + 1, rn := 0 }))

/-! ### The commands: what each leaves when it completes -/

/-- `NOP` (R185): no effect on any register; ignored while `ERR = 1`, so the same; while busy it raises
`BUSY_ACCESS` at offset 0. -/
def Obligations.NopHasNoEffect : Prop :=
  ∀ s : State,
    (s.busy = false → exec .nop s = .next s) ∧
    (s.busy = true → exec .nop s = .next (raise .busyAccess 0 s))

/-- `CLRERR` (R186): clears the error record and nothing else; it is the only command performed while
`ERR = 1`; with `ERR = 0` and an empty record it has no effect; while busy it is not performed. -/
def Obligations.ClrerrClearsTheErrorRecord : Prop :=
  ∀ s : State,
    (s.busy = false → exec .clrerr s = .next { s with err := false, ecode := 0, einfo := 0 }) ∧
    (s.busy = false → errorInv s → s.err = false → exec .clrerr s = .next s) ∧
    (s.busy = false → s.err = true → ∀ i : Instr, i ≠ .clrerr → exec i s = .next s) ∧
    (s.busy = true → exec .clrerr s = .next (raise .busyAccess 0 s))

/-- `INIT` (R187): the state from `INITIAL_STATE`, the mode latched from `F`, `BLK` and `RN` cleared;
nothing else of the spec's registers changes. -/
def Obligations.InitStartsAComputation : Prop :=
  ∀ (s : State) (f : Mode), ready s → quiet s →
    completesWith (.init f) s
      { s with s := s.cfg.initialState, mode := f, blk := 0, rn := 0 }

/-- `SCHED` (R141): in fast mode `SEEN` is cleared and `RC` is 8, with no byte read; in standard mode
`SEEN[b]` says whether b occurs in the message and `RC` is 20 + (3u) div 64. -/
def Obligations.SchedComputesTheRoundCount : Prop :=
  ∀ s : State, ready s → quiet s → lengthFits s →
    (s.mode = .fast →
      completesWith .sched s { s with seen := 0, rc := 8 }) ∧
    (s.mode = .standard → messageWritten s →
      ∃ (seen : BitVec 256) (rc : BitVec 6),
        (∀ b : Nat, b < 256 →
          (seen.getLsbD b = true ↔ ∃ a, a < s.mlen.toNat ∧ msgRead s.msg a = some (BitVec.ofNat 8 b))) ∧
        rc.toNat = 20 + 3 * ((List.range 256).countP fun b => seen.getLsbD b) / 64 ∧
        completesWith .sched s { s with seen := seen, rc := rc })

/-- `LOAD` (R126): `W[j]` is word j of block `BLK` of the padded message, whose bytes are those of the
source's algorithm `pad` (R120), read little-endian; nothing else of the spec's registers changes. Only
the message's bytes in that block need be written: those of other blocks may have no value. -/
def Obligations.LoadFramesABlockOfThePaddedMessage : Prop :=
  ∀ (s : State) (m : List Byte), ready s → quiet s → lengthFits s → blockExists s →
    s.mlen.toNat = m.length →
    (∀ a, 64 * s.blk.toNat ≤ a → a < 64 * s.blk.toNat + 64 → a < m.length → msgRead s.msg a = m[a]?) →
    ∃ w : Words16,
      (∀ j : Nat, j < 16 →
        ((pad m)[64 * s.blk.toNat + 4 * j]? = some (byteOf (blockWord w j) 0) ∧
         (pad m)[64 * s.blk.toNat + 4 * j + 1]? = some (byteOf (blockWord w j) 1) ∧
         (pad m)[64 * s.blk.toNat + 4 * j + 2]? = some (byteOf (blockWord w j) 2) ∧
         (pad m)[64 * s.blk.toNat + 4 * j + 3]? = some (byteOf (blockWord w j) 3))) ∧
      completesWith .load s { s with w := w }

/-- `TDIFF` (R151): all eight words together, by the closed form R149 under the interleaved reading and
by R150 under the two-pass reading, with `M[i]` the lines of `mix` (R146) on `S[i]`, `S[(i+1) mod 8]`,
`W[i]` and `PRIME[i]`; nothing else of the spec's registers changes. -/
def Obligations.TdiffWritesTheDiffusedState : Prop :=
  ∀ s : State, ready s → quiet s →
    ∃ x : Words8, completesWith .tdiff s { s with s := x } ∧
      let t := fun i => lane s.s i + blockWord s.w i
      let product := fun i =>
        rotl32 ((lane s.s i ^^^ lane s.s ((i + 1) % 8)) + blockWord s.w i) 13 * lane s.cfg.prime i
      let m := fun i => rotl32 (product i ^^^ (product i >>> 16)) 5 + lane s.cfg.prime i
      (s.cfg.tdiffReading = .interleaved →
        lane x 0 = m 0 ^^^ rotl32 (t 5) 12 ^^^ rotl32 (t 6) 8 ^^^ rotl32 (t 7) 4 ∧
        lane x 1 = m 1 ^^^ rotl32 (t 6) 12 ^^^ rotl32 (t 7) 8 ∧
        lane x 2 = m 2 ^^^ rotl32 (t 7) 12 ∧
        ∀ i, 3 ≤ i → i < 8 → lane x i = m i) ∧
      (s.cfg.tdiffReading = .twoPass → ∀ i, i < 8 → lane x i = m i)

/-- `ROUND` (R152, R154): every lane from the starting snapshot by the lines of R152, with the rotation
`ROTATIONS[RN mod 16]`, then `RN` advances modulo 64; nothing else of the spec's registers changes. -/
def Obligations.RoundMixesEveryLane : Prop :=
  ∀ s : State, ready s → quiet s →
    ∃ x : Words8,
      (∀ i : Nat, i < 8 →
        lane x i = lane s.s i +
          rotl32 (((((lane s.s i ^^^ rotl32 (lane s.s ((i + 1) % 8))
              (rotationAmount s.cfg (s.rn.toNat % 16)).toNat)
            + lane s.s ((i + 5) % 8)) ^^^ blockWord s.w ((i + s.rn.toNat) % 16))
            * lane s.cfg.prime i)) 11) ∧
      completesWith .round s { s with s := x, rn := BitVec.ofNat 6 (s.rn.toNat + 1) }

/-- `FROUND` (R167, R169, R170) with `RN < 8`: by the snapshot order every lane reads the starting
state; by the in-place order lane i reads the words lanes below i have written. -/
def Obligations.FroundMixesEveryLane : Prop :=
  ∀ s : State, ready s → quiet s → s.rn.toNat < 8 →
    ∃ x : Words8, completesWith .fround s
        { s with s := x, rn := BitVec.ofNat 6 (s.rn.toNat + 1) } ∧
      let out := fun (a b c : Word) (i : Nat) =>
        a + ((((a ^^^ rotl32 b (fastRotAmount s.rn.toNat).toNat) + c)
          ^^^ blockWord s.w (i + s.rn.toNat)) * lane s.cfg.prime i)
      (s.cfg.fastLaneOrder = .snapshot → ∀ i, i < 8 →
        lane x i = out (lane s.s i) (lane s.s ((i + 1) % 8)) (lane s.s ((i + 5) % 8)) i) ∧
      (s.cfg.fastLaneOrder = .inPlace → ∀ i, i < 8 →
        lane x i = out (lane s.s i)
          (if i < 7 then lane s.s (i + 1) else lane x 0)
          (if i < 3 then lane s.s (i + 5) else lane x (i - 3)) i)

/-- `CHAIN` (R155, R156): the constants added word by word, `BLK` advanced modulo 2^64, `RN` cleared;
nothing else of the spec's registers changes. -/
def Obligations.ChainAddsTheInitialState : Prop :=
  ∀ s : State, ready s → quiet s →
    ∃ x : Words8,
      (∀ i : Nat, i < 8 →
        (lane x i).toNat = ((lane s.s i).toNat + (lane s.cfg.initialState i).toNat) % 2 ^ 32) ∧
      completesWith .chain s
        { s with s := x, blk := BitVec.ofNat 64 (s.blk.toNat + 1), rn := 0 }

/-- `COMPRESS` (R188): the block in `W` folded into `S` by the mode's block function, with `RC` rounds
in standard mode and eight in fast mode whatever `RC` holds; `RN` is 0 and `BLK` advanced at the end. -/
def Obligations.CompressFoldsTheBlock : Prop :=
  ∀ s : State, ready s → quiet s →
    (s.mode = .standard → completesWith .compress s
      { s with s := compressStd s.cfg s.s s.w s.rc.toNat, rn := 0, blk := s.blk + 1 }) ∧
    (s.mode = .fast → completesWith .compress s
      { s with s := compressFast s.cfg s.s s.w, rn := 0, blk := s.blk + 1 })

/-- `HASH` (R189) meets the digest contract (R194): with the message m in the buffer the final state is
`X_NB` of m in mode F, `MODE = F`, `RC = rounds(m, F)`, `W` the last block, `BLK = NB`, `RN = 0`, and
`SEEN` that of `SCHED`. -/
def Obligations.HashComputesTheDigest : Prop :=
  ∀ (s : State) (m : List Byte) (f : Mode), ready s → quiet s → lengthFits s → holdsMessage s m →
    completesWith (.hash f) s
      { s with
        s := digestState s.cfg m f
        mode := f
        rc := BitVec.ofNat 6 (rounds m f)
        seen := match f with
          | .standard => presence (messageAt m) m.length
          | .fast => 0
        w := framedBlock (messageAt m) m.length (blockCount m.length - 1)
        blk := BitVec.ofNat 64 (blockCount m.length)
        rn := 0 }

/-- The steps of `HASH` (R189), with no input due or with any inputs but a reset among them: from its
acceptance the engine is busy for exactly N = 2 + NB (3 + RC) engine steps in standard mode and
2 + NB 10 in fast mode; each of them is a step of the machine; and the whole command is those N steps
(R192), so what is said of `step` at a busy engine is said of a run of `HASH`. -/
def Obligations.HashTakesTheStatedSteps : Prop :=
  ∀ (s : State) (m : List Byte) (f : Mode),
    ready s → quiet s ∨ noReset s.inbox → lengthFits s → holdsMessage s m →
    let accepted := accept (.hash f) .pInit s
    let total := 2 + blockCount m.length *
      (match f with
        | .standard => 3 + rounds m .standard
        | .fast => 10)
    (∀ n, ∃ t : State, runBusy n accepted = .next t ∧ (t.busy = true ↔ n < total)) ∧
    (∀ n, n ≤ total → runSteps n accepted = runBusy n accepted) ∧
    exec (.hash f) s = runSteps total accepted

/-! ### All commands -/

/-- Every command completes: it is refused never, and stops only on a byte of the message that nothing
has written (the model's fault, log 5). -/
def Obligations.EveryCommandCompletes : Prop :=
  ∀ (i : Instr) (s : State), messageWritten s → ∃ t : State, exec i s = .next t

/-- Every command terminates (R192): issued on an idle engine, it leaves an idle engine, whatever inputs
land while it runs. One transition for the whole command is what R192 allows (log 9). -/
def Obligations.EveryCommandEndsIdle : Prop :=
  ∀ (i : Instr) (s t : State), s.busy = false → exec i s = .next t → t.busy = false

/-- The frame of every command, whatever lands while it runs but a reset: a register its rule does not
list as written is unchanged, and so are the parameters, `MLEN` and every byte of `MSG` (spec/10_state.md
R20 to R27, spec/20_memory.md R68). With a quiet host the inputs and replies are unchanged too; and a
command other than `CLRERR`, issued on an idle engine with its operand check met, leaves the error record
(R29). -/
def Obligations.CommandsWriteOnlyTheirRegisters : Prop :=
  ∀ (i : Instr) (s t : State), noReset s.inbox → exec i s = .next t →
    t.cfg = s.cfg ∧ t.mlen = s.mlen ∧ (∀ a, msgRead t.msg a = msgRead s.msg a) ∧
    (writesS i = false → t.s = s.s) ∧
    (writesW i = false → t.w = s.w) ∧
    (writesSchedule i = false → t.seen = s.seen ∧ t.rc = s.rc) ∧
    (writesMode i = false → t.mode = s.mode) ∧
    (writesRN i = false → t.rn = s.rn) ∧
    (writesBLK i = false → t.blk = s.blk) ∧
    (quiet s → t.inbox = s.inbox ∧ t.replies = s.replies ∧ t.freeIx = s.freeIx) ∧
    (quiet s → s.busy = false → operandsLegal i s → i ≠ .clrerr →
      t.err = s.err ∧ t.ecode = s.ecode ∧ t.einfo = s.einfo)

/-- Host accesses cannot disturb a running command (spec/20_memory.md R74, spec/60_exceptions.md R213):
whatever reads and writes land while it runs, the command ends as with none, but for the error record,
the replies and the inputs still to come. -/
def Obligations.HostAccessesCannotDisturbACommand : Prop :=
  ∀ (i : Instr) (s : State) (l : List Pending), noReset l →
    viewOutcome engineView (exec i { s with inbox := l }) =
      viewOutcome engineView (exec i { s with inbox := [] })

/-- The digest depends on the message, the mode and the parameters only (spec/46_sequencer.md R195): two
ready engines that agree on those end `HASH` with the same registers, or stop at the same unwritten
byte (log 5), whatever else they held and whatever `MSG` holds at or beyond `MLEN`. -/
def Obligations.HashDependsOnTheMessageOnly : Prop :=
  ∀ (f : Mode) (s t : State), ready s → quiet s → ready t → quiet t → lengthFits s →
    s.cfg = t.cfg → s.mlen = t.mlen →
    (∀ a, a < s.mlen.toNat → msgRead s.msg a = msgRead t.msg a) →
    (∃ s' t', exec (.hash f) s = .next s' ∧ exec (.hash f) t = .next t' ∧
      s'.s = t'.s ∧ s'.w = t'.w ∧ s'.seen = t'.seen ∧ s'.mode = t'.mode ∧ s'.rc = t'.rc ∧
      s'.rn = t'.rn ∧ s'.blk = t'.blk) ∨
    (∃ r, exec (.hash f) s = .fault r ∧ exec (.hash f) t = .fault r)

/-- Composite commands are sequences of primitives (R196): `HASH` leaves every register as `INIT` with
the same F, `SCHED`, then NB times `LOAD`, `COMPRESS`. -/
def Obligations.HashEqualsItsCommandSequence : Prop :=
  ∀ (s : State) (f : Mode), ready s → quiet s → lengthFits s →
    viewOutcome registerView (exec (.hash f) s) =
      viewOutcome registerView (runMany
        (.init f :: .sched ::
          (List.replicate (blockCount s.mlen.toNat) [Instr.load, Instr.compress]).flatten) s)

/-- Composite commands are sequences of primitives (R196): `COMPRESS` leaves every register as `RN`
written 0, then `TDIFF`, `RC` times `ROUND` and `CHAIN` in standard mode, eight times `FROUND` and
`CHAIN` in fast mode. -/
def Obligations.CompressEqualsItsCommandSequence : Prop :=
  ∀ s : State, ready s → quiet s →
    (s.mode = .standard →
      viewOutcome registerView (exec .compress s) =
        viewOutcome registerView (runMany
          (.tdiff :: (List.replicate s.rc.toNat Instr.round ++ [.chain])) { s with rn := 0 })) ∧
    (s.mode = .fast →
      viewOutcome registerView (exec .compress s) =
        viewOutcome registerView (runMany
          (List.replicate 8 Instr.fround ++ [.chain]) { s with rn := 0 }))

/-! ### Errors (spec/60_exceptions.md) -/

/-- Error entry (R219): the record is written when `ERR = 0`, with the code Table R211 gives each of the
six causes, and nothing changes when `ERR = 1`. -/
def Obligations.FirstErrorIsKept : Prop :=
  ∀ (e : ErrorCause) (info : Word) (s : State),
    (s.err = false → raise e info s = { s with
      err := true
      ecode := match e with
        | .illegalCmd => 1
        | .busyAccess => 2
        | .badAccess => 3
        | .lenRange => 4
        | .blkRange => 5
        | .badRound => 6
      einfo := info }) ∧
    (s.err = true → raise e info s = s)

/-- An illegal word written to `CMD` while idle with `ERR = 0` (R212): not performed, recorded with the
word; with `ERR = 1` the write is ignored. -/
def Obligations.IllegalWordRaisesIllegalCmd : Prop :=
  ∀ (s : State) (a : Arrival) (rest : List Pending) (c : Word),
    s.busy = false → s.inbox = ⟨a, .write 0x000 4 c⟩ :: rest → legalWord c = false →
    (s.err = false → step s = .next { s with inbox := rest, err := true, ecode := 1, einfo := c }) ∧
    (s.err = true → step s = .next { s with inbox := rest })

/-- Fail-stop (R220): while `ERR = 1` a command word other than that of `CLRERR` is ignored. -/
def Obligations.OnlyClrerrIsPerformedAfterAnError : Prop :=
  ∀ (s : State) (a : Arrival) (rest : List Pending) (c : Word),
    s.busy = false → s.err = true → s.inbox = ⟨a, .write 0x000 4 c⟩ :: rest →
    (c ≠ 0x00000001 → step s = .next { s with inbox := rest }) ∧
    (c = 0x00000001 →
      step s = .next { s with inbox := rest, err := false, ecode := 0, einfo := 0 })

/-- A command issued to a busy engine is not performed and raises `BUSY_ACCESS` at offset 0 (R191
case 1). -/
def Obligations.CommandsWhileBusyAreDropped : Prop :=
  ∀ (i : Instr) (s : State), s.busy = true → exec i s = .next (raise .busyAccess 0 s)

/-- `LEN_RANGE` (R215): `SCHED`, `LOAD` and `HASH` with `MLEN > MSG_CAP` record the command word and do
nothing; passing the check bounds the bit length by 64 bits. -/
def Obligations.LengthBeyondTheBufferRaisesLenRange : Prop :=
  ∀ s : State, ready s →
    (¬ lengthFits s → ∀ i : Instr, (i = .sched ∨ i = .load ∨ i = .hash .standard ∨ i = .hash .fast) →
      exec i s = .next { s with err := true, ecode := 4, einfo := encode i }) ∧
    (lengthFits s → 8 * s.mlen.toNat < 2 ^ 64)

/-- `BLK_RANGE` (R216): `LOAD` with a length in range and `BLK >= NB(MLEN)` records the command word and
does nothing; `HASH` never raises it. -/
def Obligations.MissingBlockRaisesBlkRange : Prop :=
  ∀ s : State, ready s →
    (lengthFits s → (s.mlen.toNat + 8) / 64 + 1 ≤ s.blk.toNat →
      exec .load s = .next { s with err := true, ecode := 5, einfo := 0x00000012 }) ∧
    (errorInv s → ∀ (f : Mode) (t : State), exec (.hash f) s = .next t → t.ecode ≠ 5)

/-- `BAD_ROUND` (R217): `FROUND` with `RN >= 8` records the command word and does nothing; `COMPRESS`
and `HASH` never raise it. -/
def Obligations.NinthFastRoundRaisesBadRound : Prop :=
  ∀ s : State, ready s →
    (8 ≤ s.rn.toNat →
      exec .fround s = .next { s with err := true, ecode := 6, einfo := 0x00000015 }) ∧
    (errorInv s → ∀ t : State, exec .compress s = .next t → t.ecode ≠ 6) ∧
    (errorInv s → ∀ (f : Mode) (t : State), exec (.hash f) s = .next t → t.ecode ≠ 6)

/-- `BUSY_ACCESS` (R213): a legal-form host write that lands while busy is not performed and records
its offset; the engine step is the one it would have been. A legal read that lands while busy raises
nothing. That a 1-byte read inside `CMD` is among the legal reads (log 13), and that `EINFO` holds the low
32 bits of an offset that needs more (log 26), are the model's readings. -/
def Obligations.WritesWhileBusyAreDropped : Prop :=
  ∀ (s t : State) (off n : Nat), s.busy = true → step { s with inbox := [] } = .next t →
    (∀ v : Word, legalWrite s.cfg.msgCap off n →
      step { s with inbox := [⟨.afterSteps 0, .write off n v⟩] } =
        .next (raise .busyAccess (BitVec.ofNat 32 off) t)) ∧
    (legalRead s.cfg.msgCap off n →
      ∃ (v : Word) (k : Nat), step { s with inbox := [⟨.afterSteps 0, .read off n⟩] } =
        .next { t with replies := v :: t.replies, freeIx := k })

/-- What a legal read that lands while busy returns (spec/10_state.md R40, R41): of `STATUS` its exact
value, of anything else a free value (any value: nothing is said of it but its width; log 11), and nothing of
the engine changes. That a 1-byte read inside `CMD` is among the legal reads is the model's reading
(log 13). -/
def Obligations.StatusIsReadableWhileBusy : Prop :=
  ∀ (s t : State), s.busy = true → step { s with inbox := [] } = .next t →
    step { s with inbox := [⟨.afterSteps 0, .read 0x004 4⟩] } =
      .next { t with replies := statusWord s :: t.replies } ∧
    (∀ k : Nat, k < 4 → step { s with inbox := [⟨.afterSteps 0, .read (0x004 + k) 1⟩] } =
      .next { t with replies := (byteOf (statusWord s) k).setWidth 32 :: t.replies }) ∧
    (∀ off n : Nat, legalRead s.cfg.msgCap off n → off / 4 ≠ 1 →
      ∃ v : Word, (n = 1 → v.toNat < 256) ∧
        step { s with inbox := [⟨.afterSteps 0, .read off n⟩] } =
          .next { t with replies := v :: t.replies, freeIx := t.freeIx + 1 })

/-- `BAD_ACCESS` (R214): an access R67 does not allow is not performed, a read returns 0, and the low 32
bits of the offset are recorded; whether or not the engine is busy. That a 1-byte read of `CMD` is legal
(log 13) and that an offset beyond the window is an illegal access (log 14) are the model's readings. -/
def Obligations.IllegalAccessRaisesBadAccess : Prop :=
  ∀ (s : State) (off n : Nat) (v : Word),
    (s.busy = false → ∀ (a : Arrival) (rest : List Pending),
      (¬ legalRead s.cfg.msgCap off n → s.inbox = ⟨a, .read off n⟩ :: rest →
        step s = .next (raise .badAccess (BitVec.ofNat 32 off)
          { s with inbox := rest, replies := 0 :: s.replies })) ∧
      (¬ legalWrite s.cfg.msgCap off n → s.inbox = ⟨a, .write off n v⟩ :: rest →
        step s = .next (raise .badAccess (BitVec.ofNat 32 off) { s with inbox := rest }))) ∧
    (s.busy = true → ∀ t : State, step { s with inbox := [] } = .next t →
      (¬ legalRead s.cfg.msgCap off n →
        step { s with inbox := [⟨.afterSteps 0, .read off n⟩] } =
          .next (raise .badAccess (BitVec.ofNat 32 off) { t with replies := 0 :: t.replies })) ∧
      (¬ legalWrite s.cfg.msgCap off n →
        step { s with inbox := [⟨.afterSteps 0, .write off n v⟩] } =
          .next (raise .badAccess (BitVec.ofNat 32 off) t)))

/-! ### The host's accesses while idle -/

/-- A 4-byte read while idle returns the content of the register at its offset, row by row of Table R38
(spec/10_state.md R38 to R40, R33, R34, spec/45_digest_assembly.md R177), and changes nothing of the
engine (spec/20_memory.md R70). -/
def Obligations.RegisterReadsHaveNoSideEffect : Prop :=
  ∀ (s : State) (a : Arrival) (rest : List Pending) (off : Nat),
    s.busy = false → s.inbox = ⟨a, .read off 4⟩ :: rest →
    let returns := fun content : Word → Prop =>
      ∃ v, content v ∧ step s = .next { s with inbox := rest, replies := v :: s.replies }
    let fastrot : List Nat := [7, 12, 17, 22, 5, 9, 14, 20]
    let byte := fun j : Nat => (lane s.s (j / 4)).toNat / 2 ^ (8 * (j % 4)) % 256
    let digit := fun c : Nat => if c % 2 = 0 then byte (c / 2) / 16 else byte (c / 2) % 16
    let char := fun n : Nat => if n < 10 then 0x30 + n else 0x61 + (n - 10)
    (off = 0x000 → returns fun v => v = 0) ∧
    (off = 0x004 → returns fun v => v.toNat =
      s.busy.toNat + 2 * s.err.toNat + 4 * (if s.mode = .fast then 1 else 0) + 16 * s.ecode.toNat) ∧
    (off = 0x008 → returns fun v => v.toNat = s.mlen.toNat % 2 ^ 32) ∧
    (off = 0x00C → returns fun v => v.toNat = s.mlen.toNat / 2 ^ 32) ∧
    (off = 0x010 → returns fun v => v.toNat = s.blk.toNat % 2 ^ 32) ∧
    (off = 0x014 → returns fun v => v.toNat = s.blk.toNat / 2 ^ 32) ∧
    (off = 0x018 → returns fun v => v.toNat = s.rc.toNat) ∧
    (off = 0x01C → returns fun v => v.toNat = s.rn.toNat) ∧
    (∀ i, i < 8 → off = 0x020 + 4 * i → returns fun v => v = lane s.s i) ∧
    (∀ j, j < 16 → off = 0x040 + 4 * j → returns fun v => v = blockWord s.w j) ∧
    (∀ w, w < 8 → off = 0x080 + 4 * w →
      returns fun v => ∀ b, b < 32 → v.getLsbD b = s.seen.getLsbD (32 * w + b)) ∧
    (off = 0x0A0 → returns fun v => v.toNat = (List.range 256).countP fun b => s.seen.getLsbD b) ∧
    (off = 0x0A4 → returns fun v => v = s.einfo) ∧
    (off = 0x0A8 → returns fun v => v.toNat = s.cfg.msgCap % 2 ^ 32) ∧
    (off = 0x0AC → returns fun v => v.toNat = s.cfg.msgCap / 2 ^ 32) ∧
    (∀ q, q < 16 → off = 0x0C0 + 4 * q →
      returns fun v => ∀ k, k < 4 → v.toNat / 2 ^ (8 * k) % 256 = char (digit (4 * q + k))) ∧
    (∀ i, i < 8 → off = 0x100 + 4 * i → returns fun v => v = lane s.cfg.prime i) ∧
    (∀ i, i < 8 → off = 0x120 + 4 * i → returns fun v => v = lane s.cfg.initialState i) ∧
    (∀ k, k < 16 → off = 0x140 + 4 * k → returns fun v => v.toNat =
      if k < 8 then fastrot.getD k 0 else (s.cfg.rotationsHigh.toList.getD (k - 8) 0).toNat) ∧
    (∀ r, r < 8 → off = 0x180 + 4 * r → returns fun v => v.toNat = fastrot.getD r 0)

/-- The layout of `STATUS` (spec/10_state.md R40): bit 0 `BUSY`, bit 1 `ERR`, bit 2 `MODE`, bit 3 is 0,
bits 6:4 `ECODE`, bits 31:7 are 0. -/
def Obligations.StatusHasItsLayout : Prop :=
  ∀ s : State,
    (regRead .status s).getLsbD 0 = s.busy ∧ (regRead .status s).getLsbD 1 = s.err ∧
    ((regRead .status s).getLsbD 2 = true ↔ s.mode = .fast) ∧ (regRead .status s).getLsbD 3 = false ∧
    (regRead .status s).extractLsb' 4 3 = s.ecode ∧
    ∀ k, 7 ≤ k → (regRead .status s).getLsbD k = false

/-- The derived views (spec/10_state.md R39): `UNIQ` is the number of set presence bits, at most 256;
bit b of `SEEN_W[w]` is `SEEN[32w + b]`; the halves of `MSG_CAP` make `MSG_CAP`. -/
def Obligations.DerivedViewsShowTheState : Prop :=
  ∀ s : State,
    (regRead .uniq s).toNat = ((List.range 256).countP fun b => s.seen.getLsbD b) ∧
    (regRead .uniq s).toNat ≤ 256 ∧
    (∀ (w : Fin 8) (b : Nat), b < 32 →
      (regRead (.seenW w) s).getLsbD b = s.seen.getLsbD (32 * w.val + b)) ∧
    (regRead .msgcapHi s).toNat * 2 ^ 32 + (regRead .msgcapLo s).toNat = s.cfg.msgCap

/-- A 4-byte write of a writable register while idle (Table R38): the register takes the value, `RC` and
`RN` their low six bits, and nothing else of the engine changes. -/
def Obligations.RegisterWritesStoreTheValue : Prop :=
  ∀ (s : State) (v : Word) (a : Arrival) (rest : List Pending) (off : Nat),
    s.busy = false → s.inbox = ⟨a, .write off 4 v⟩ :: rest →
    (off = 0x008 → ∃ x : Dword, x.extractLsb' 0 32 = v ∧ x.extractLsb' 32 32 = s.mlen.extractLsb' 32 32 ∧
      step s = .next { s with inbox := rest, mlen := x }) ∧
    (off = 0x00C → ∃ x : Dword, x.extractLsb' 32 32 = v ∧ x.extractLsb' 0 32 = s.mlen.extractLsb' 0 32 ∧
      step s = .next { s with inbox := rest, mlen := x }) ∧
    (off = 0x010 → ∃ x : Dword, x.extractLsb' 0 32 = v ∧ x.extractLsb' 32 32 = s.blk.extractLsb' 32 32 ∧
      step s = .next { s with inbox := rest, blk := x }) ∧
    (off = 0x014 → ∃ x : Dword, x.extractLsb' 32 32 = v ∧ x.extractLsb' 0 32 = s.blk.extractLsb' 0 32 ∧
      step s = .next { s with inbox := rest, blk := x }) ∧
    (off = 0x018 → step s = .next { s with inbox := rest, rc := v.extractLsb' 0 6 }) ∧
    (off = 0x01C → step s = .next { s with inbox := rest, rn := v.extractLsb' 0 6 }) ∧
    (∀ i : Nat, i < 8 → off = 0x020 + 4 * i →
      ∃ x : Words8, (∀ k, k < 8 → lane x k = if k = i then v else lane s.s k) ∧
        step s = .next { s with inbox := rest, s := x }) ∧
    (∀ j : Nat, j < 16 → off = 0x040 + 4 * j →
      ∃ x : Words16, (∀ k, k < 16 → blockWord x k = if k = j then v else blockWord s.w k) ∧
        step s = .next { s with inbox := rest, w := x })

/-- Reading the state byte by byte gives the digest bytes, and reading the hexadecimal window byte by
byte gives the lower-case characters of each byte, the high nibble first (spec/20_memory.md R66,
spec/45_digest_assembly.md R175, R176, R177). Of every register a 1-byte read returns byte k of what the
4-byte read of that register returns (R66, R67). That `CMD` is among them is the model's reading
(log 13). -/
def Obligations.ByteReadsGiveTheDigest : Prop :=
  ∀ (s : State) (a : Arrival) (rest : List Pending), s.busy = false →
    let byte := fun j : Nat => (lane s.s (j / 4)).toNat / 2 ^ (8 * (j % 4)) % 256
    let char := fun n : Nat => if n < 10 then 0x30 + n else 0x61 + (n - 10)
    (∀ j : Nat, j < 32 → s.inbox = ⟨a, .read (0x020 + j) 1⟩ :: rest →
      step s = .next { s with inbox := rest, replies := BitVec.ofNat 32 (byte j) :: s.replies }) ∧
    (∀ j : Nat, j < 32 → s.inbox = ⟨a, .read (0x0C0 + 2 * j) 1⟩ :: rest →
      step s = .next
        { s with inbox := rest, replies := BitVec.ofNat 32 (char (byte j / 16)) :: s.replies }) ∧
    (∀ j : Nat, j < 32 → s.inbox = ⟨a, .read (0x0C0 + 2 * j + 1) 1⟩ :: rest →
      step s = .next
        { s with inbox := rest, replies := BitVec.ofNat 32 (char (byte j % 16)) :: s.replies }) ∧
    (∀ off k : Nat, off % 4 = 0 → mapped off → k < 4 → s.inbox = ⟨a, .read (off + k) 1⟩ :: rest →
      ∃ v : Word,
        step { s with inbox := ⟨a, .read off 4⟩ :: rest } =
          .next { s with inbox := rest, replies := v :: s.replies } ∧
        step s = .next { s with
          inbox := rest, replies := BitVec.ofNat 32 (v.toNat / 2 ^ (8 * k) % 256) :: s.replies })

/-- A write in the message window while idle (spec/20_memory.md R62): the byte, or the four bytes
little-endian, at their addresses; every other byte of `MSG` and everything else of the engine is
unchanged. That a 1-byte write carries its byte in bits 7:0 is the model's reading (log 15). -/
def Obligations.WindowWritesStoreTheirBytes : Prop :=
  ∀ (s : State) (a : Nat) (v : Word) (w : Arrival) (rest : List Pending), s.busy = false →
    (a < s.cfg.msgCap → s.inbox = ⟨w, .write (0x1000 + a) 1 v⟩ :: rest →
      ∃ m : List Host.Cell,
        (∀ b, msgRead m b = if b = a then some (byteOf v 0) else msgRead s.msg b) ∧
        step s = .next { s with inbox := rest, msg := m }) ∧
    (a % 4 = 0 → a + 3 < s.cfg.msgCap → s.inbox = ⟨w, .write (0x1000 + a) 4 v⟩ :: rest →
      ∃ m : List Host.Cell,
        (∀ b, msgRead m b = if a ≤ b ∧ b < a + 4 then some (byteOf v (b - a)) else msgRead s.msg b) ∧
        step s = .next { s with inbox := rest, msg := m })

/-- A read in the message window while idle (R62): the written bytes, little-endian; a byte that nothing
has written stops the model (spec/10_state.md R42; log 5), a 4-byte read at the lowest such byte of its
four, the model's choice (log 5). -/
def Obligations.WindowReadsReturnWrittenBytes : Prop :=
  ∀ (s : State) (a : Nat) (w : Arrival) (rest : List Pending), s.busy = false →
    (∀ b, a < s.cfg.msgCap → s.inbox = ⟨w, .read (0x1000 + a) 1⟩ :: rest → msgRead s.msg a = some b →
      step s = .next { s with inbox := rest, replies := b.setWidth 32 :: s.replies }) ∧
    (∀ b0 b1 b2 b3, a % 4 = 0 → a + 3 < s.cfg.msgCap → s.inbox = ⟨w, .read (0x1000 + a) 4⟩ :: rest →
      msgRead s.msg a = some b0 → msgRead s.msg (a + 1) = some b1 → msgRead s.msg (a + 2) = some b2 →
      msgRead s.msg (a + 3) = some b3 →
      step s = .next { s with inbox := rest, replies := le32 b0 b1 b2 b3 :: s.replies }) ∧
    (a < s.cfg.msgCap → s.inbox = ⟨w, .read (0x1000 + a) 1⟩ :: rest → msgRead s.msg a = none →
      step s = .fault (.unwrittenMessageByte a)) ∧
    (∀ b, a % 4 = 0 → a + 3 < s.cfg.msgCap → s.inbox = ⟨w, .read (0x1000 + a) 4⟩ :: rest →
      a ≤ b → b < a + 4 → msgRead s.msg b = none →
      (∀ c, a ≤ c → c < b → (msgRead s.msg c).isSome = true) →
      step s = .fault (.unwrittenMessageByte b))

/-- A command that reads a byte of `MSG` nothing has written stops the model (R249): `SCHED` and `HASH`
at the lowest such byte of the message, `LOAD` at the lowest of its block. That the lowest is named is
the model's choice (log 5). -/
def Obligations.UnwrittenMessageBytesStopTheModel : Prop :=
  ∀ (s : State) (a : Nat), ready s → quiet s → lengthFits s → a < s.mlen.toNat →
    msgRead s.msg a = none →
    ((∀ b, b < a → (msgRead s.msg b).isSome = true) →
      (s.mode = .standard → exec .sched s = .fault (.unwrittenMessageByte a)) ∧
      exec (.hash .standard) s = .fault (.unwrittenMessageByte a) ∧
      exec (.hash .fast) s = .fault (.unwrittenMessageByte a)) ∧
    (s.blk.toNat = a / 64 → (∀ b, 64 * (a / 64) ≤ b → b < a → (msgRead s.msg b).isSome = true) →
      exec .load s = .fault (.unwrittenMessageByte a))

/-- The reset event (spec/70_reset_and_hazards.md R240), landing on an idle engine or while a command
runs: the values Table R42 gives, no byte of `MSG` holding a value, the command abandoned; the
parameters are not reset (R241). The inputs to come and the replies are kept, the model's choice
(log 19). Of the registers Table R42 leaves unspecified nothing is said. -/
def Obligations.ResetEventGivesTheResetValues : Prop :=
  ∀ (s : State) (a : Arrival) (rest : List Pending),
    (s.busy = false ∨ a = .afterSteps 0) → s.inbox = ⟨a, .reset⟩ :: rest →
    ∃ t : State, step s = .next t ∧
      t.mode = .standard ∧ t.rc = 0 ∧ t.rn = 0 ∧ t.blk = 0 ∧ t.mlen = 0 ∧ t.busy = false ∧
      t.err = false ∧ t.ecode = 0 ∧ t.einfo = 0 ∧ t.seqPh = .idle ∧ (∀ b, msgRead t.msg b = none) ∧
      t.cfg = s.cfg ∧ t.inbox = rest ∧ t.replies = s.replies

/-! ### Invariants -/

/-- Every step keeps the sequencer's invariant (spec/10_state.md R30, spec/46_sequencer.md R190, R191). -/
def Obligations.StepKeepsTheSequencerInvariant : Prop :=
  ∀ s t : State, sequencerInv s → step s = .next t → sequencerInv t

/-- Every step keeps the error record's invariant: `ECODE` is 1 to 6 while `ERR = 1`, never 7
(spec/60_exceptions.md R211). -/
def Obligations.StepKeepsTheErrorInvariant : Prop :=
  ∀ s t : State, errorInv s → step s = .next t → errorInv t

/-- Every step keeps the message buffer in its canonical form and inside `MSG_CAP`. -/
def Obligations.StepKeepsTheMemoryInvariant : Prop :=
  ∀ s t : State, memoryInv s → step s = .next t → memoryInv t

/-- No step writes a parameter (spec/00_scope.md R6(d), spec/10_state.md R35). -/
def Obligations.StepKeepsTheParameters : Prop :=
  ∀ s t : State, step s = .next t → t.cfg = s.cfg

/-- The state after reset has the three invariants, and the values Table R42 gives. Nothing is said of
the registers that table leaves unspecified. -/
def Obligations.ResetHasTheInvariants : Prop :=
  sequencerInv State.reset ∧ errorInv State.reset ∧ memoryInv State.reset ∧
  State.reset.mode = .standard ∧ State.reset.rc = 0 ∧ State.reset.rn = 0 ∧ State.reset.blk = 0 ∧
  State.reset.mlen = 0 ∧ State.reset.busy = false ∧ State.reset.err = false ∧
  State.reset.ecode = 0 ∧ State.reset.einfo = 0 ∧ State.reset.seqPh = .idle

/-! ### The computation -/

/-- The datapath primitives as arithmetic on naturals (spec/40_primitives.md R110 to R115); `SHR32` for
the shift counts below 32, of which R115 speaks. -/
def Obligations.PrimitivesAreModularArithmetic : Prop :=
  ∀ (a b : Word) (n : Nat),
    (add32 a b).toNat = (a.toNat + b.toNat) % 2 ^ 32 ∧
    (∀ k, (xor32 a b).getLsbD k = Bool.xor (a.getLsbD k) (b.getLsbD k)) ∧
    (mul32 a b).toNat = a.toNat * b.toNat % 2 ^ 32 ∧
    (rotl32 a n).toNat =
      (if n % 32 = 0 then a.toNat
        else a.toNat * 2 ^ (n % 32) % 2 ^ 32 + a.toNat / 2 ^ (32 - n % 32)) ∧
    rotr32 a n = rotl32 a ((32 - n % 32) % 32) ∧
    (n < 32 → (shr32 a n).toNat = a.toNat / 2 ^ n)

/-- The padded message of fewer than 2^61 bytes (spec/41_framing.md R120, R121; of more nothing is said:
R124, U1): the message, `0x80`, (55 - L) mod 64 zero bytes
and the bit length big-endian; its length is 64 ((L + 8) div 64 + 1), a positive multiple of 64. -/
def Obligations.PaddedMessageHasItsClosedForm : Prop :=
  ∀ m : List Byte, m.length < 2 ^ 61 →
    ∃ z : Nat, z < 64 ∧ ((z : Int) = (55 - (m.length : Int)) % 64) ∧
      pad m = m ++ [0x80] ++ List.replicate z 0 ++ be64Bytes (BitVec.ofNat 64 (8 * m.length)) ∧
      (pad m).length = 64 * ((m.length + 8) / 64 + 1)

/-- Byte j of the padded message as the engine computes it on demand is byte j of the source's
algorithm (R122), for a message of fewer than 2^61 bytes (R124, U1). -/
def Obligations.PaddedByteIsTheByteOfPad : Prop :=
  ∀ (m : List Byte) (j : Nat), m.length < 2 ^ 61 → j < paddedLength m.length →
    (pad m)[j]? = some (paddedByte (messageAt m) m.length j)

/-- The round count (spec/42_round_schedule.md R135 to R138): 8 in fast mode, 20 + (3u) div 64 in standard
mode, in 20..32. -/
def Obligations.RoundCountHasItsIntegerForm : Prop :=
  ∀ m : List Byte,
    rounds m .fast = 8 ∧ distinctBytes m ≤ 256 ∧
    rounds m .standard = 20 + 3 * distinctBytes m / 64 ∧
    20 ≤ rounds m .standard ∧ rounds m .standard ≤ 32

/-- A message that uses a superset of the byte values never has fewer rounds, and the count depends on
the set of byte values only (R140). -/
def Obligations.RoundCountIsMonotonic : Prop :=
  ∀ m n : List Byte,
    ((∀ b ∈ m, b ∈ n) → rounds m .standard ≤ rounds n .standard) ∧
    ((∀ b, b ∈ m ↔ b ∈ n) → rounds m .standard = rounds n .standard)

/-- `round(S, W, rn)` depends on rn only through rn mod 16 (spec/43_diffusion_core.md R153). -/
def Obligations.RoundsRepeatEverySixteen : Prop :=
  ∀ (p : Config.Params) (s : Words8) (w : Words16) (rn : Nat),
    compressionRound p s w rn = compressionRound p s w (rn % 16)

/-- `compress_fast(S, W)` does not depend on `W[15]` (spec/44_fast_path.md R171), in either lane
order. -/
def Obligations.FastPathIgnoresTheLastBlockWord : Prop :=
  ∀ (p : Config.Params) (s : Words8) (w : Words16) (x : Word),
    compressFast p s (setBlockWord w 15 x) = compressFast p s w

/-- Whenever the sum `(a xor b) + c` is 0, `mix` returns p, whatever p is (R146). -/
def Obligations.MixOfZeroSumIsThePrime : Prop :=
  ∀ a b c p : Word, (a ^^^ b) + c = 0 → mix a b c p = p

/-- With an all-zero state and block: `TDIFF` gives the primes under both readings (R151), and `ROUND`
and `FROUND` leave the state zero (R154, R170). R167 gives the fast round for indices 0 to 7; at 8 and
above it is the model's totalisation, which no accepted command reaches (log 20). -/
def Obligations.ZeroStateCornerCases : Prop :=
  ∀ (p : Config.Params) (r : Nat) (s : Words8) (w : Words16),
    (∀ i, i < 8 → lane s i = 0) → (∀ j, j < 16 → blockWord w j = 0) →
    tdiff p s w = p.prime ∧ compressionRound p s w r = s ∧ fastRound p s w r = s

/-! ### Host scripts (spec/30_encoding.md R96, R97) -/

/-- The host's script of `digest(m, f)` (spec/30_encoding.md R97) returns the digest of the contract R194:
from every ready engine, at every pace of the polls, the script `MSG m`, `HASH`, `WAIT`, `DIGEST` runs to
its end with no error recorded; `WAIT` ends on a value with bit 0 equal to 0; and the bytes of the eight
values `DIGEST` reads are `digest(m, f)`. The values stand in `replies`, the newest first (log 21), and a
poll may land while the command runs or after it (log 10). -/
def Obligations.HashScriptReturnsTheDigest : Prop :=
  ∀ (s : State) (m : List Byte) (f : Mode) (pace : List Nat),
    ready s → m.length ≤ s.cfg.msgCap → s.inbox = scriptHash m f pace →
    ∃ (n : Nat) (t : State) (polled words : List Word),
      runSteps n s = .next t ∧ t.inbox = [] ∧ t.busy = false ∧ t.err = false ∧
      t.replies = (polled ++ words).reverse ++ s.replies ∧
      polled.length = pace.length + 1 ∧ words.length = 8 ∧
      (∃ v ∈ waitReads polled, v.getLsbD 0 = false) ∧
      digestRead words = digest s.cfg m f
end

