-- ==== Sys2Proof/Laws/Datapath.lean ====
section
/-! SUPPORT. Bytes of words, rotations of zero, and the presence map: what each operation answers. -/

namespace Sys2Proof.Machine

/-- Byte k of a word as a number. -/
theorem byteOf_toNat (w : Word) (k : Nat) : (byteOf w k).toNat = w.toNat / 2 ^ (8 * k) % 256 := by
  simp [byteOf, BitVec.extractLsb'_toNat, Nat.shiftRight_eq_div_pow]

/-- The bytes of a word built from four bytes. -/
theorem byteOf_le32 (a b c d : Byte) :
    byteOf (le32 a b c d) 0 = a ∧ byteOf (le32 a b c d) 1 = b ∧
    byteOf (le32 a b c d) 2 = c ∧ byteOf (le32 a b c d) 3 = d := by
  refine ⟨?_, ?_, ?_, ?_⟩ <;>
    (apply BitVec.eq_of_getLsbD_eq; intro k hk
     simp only [byteOf, le32, BitVec.getLsbD_extractLsb', BitVec.getLsbD_append]; simp [hk])
  all_goals (interval_cases k <;> simp)

@[simp] theorem rotl32_zero (n : Nat) : rotl32 0 n = 0 := by unfold rotl32; simp

/-- Adding one to a bit vector that does not wrap. -/
theorem toNat_add_one {w : Nat} (x : BitVec w) (h : x.toNat + 1 < 2 ^ w) :
    (x + 1).toNat = x.toNat + 1 := by
  rw [BitVec.toNat_add]
  cases w with
  | zero => simp at h
  | succ w => simpa using Nat.mod_eq_of_lt h

/-- `SEEN[b]` after marking n bytes says whether b is one of them. -/
theorem presence_getLsbD (m : Nat → Byte) (n b : Nat) (hb : b < 256) :
    (presence m n).getLsbD b = true ↔ ∃ a, a < n ∧ m a = BitVec.ofNat 8 b := by
  induction n with
  | zero => simp [presence]
  | succ n ih =>
    simp only [presence, BitVec.getLsbD_or, Bool.or_eq_true, ih, BitVec.getLsbD_twoPow]
    constructor
    · rintro (⟨a, h, h'⟩ | h)
      · exact ⟨a, by omega, h'⟩
      · refine ⟨n, by omega, BitVec.eq_of_toNat_eq ?_⟩
        simp only [Bool.and_eq_true, decide_eq_true_eq] at h
        simp; omega
    · rintro ⟨a, h, h'⟩
      by_cases ha : a = n
      · subst ha; right; simp [h', hb]; omega
      · left; exact ⟨a, by omega, h'⟩

theorem uniqueBytes_le (seen : BitVec 256) : uniqueBytes seen ≤ 256 :=
  le_trans List.countP_le_length (by simp)

/-- The presence map depends on the bytes below the length only. -/
theorem presence_congr {f g : Nat → Byte} {n : Nat} (h : ∀ a, a < n → f a = g a) :
    presence f n = presence g n := by
  induction n with
  | zero => rfl
  | succ n ih => simp only [presence]; rw [ih fun a ha => h a (by omega), h n (by omega)]

/-- The length field of a message the spec defines (R124). -/
theorem bitLength_of_lt {l : Nat} (h : l < 2 ^ 61) : bitLength l = BitVec.ofNat 64 (8 * l) := if_pos h

/-- A byte of the padded message depends on the message's bytes below its length only. -/
theorem paddedByte_congr {f g : Nat → Byte} {l j : Nat} (h : j < l → f j = g j) :
    paddedByte f l j = paddedByte g l j := by
  unfold paddedByte; split
  next h' => exact h h'
  next => rfl

end Sys2Proof.Machine
end

