-- ==== Sys2Proof/Laws/State.lean ====
section
/-! SUPPORT. One lemma per field per named update of the state: what `(update s).field` is. -/

namespace Sys2Proof.Machine

/-! ### `clearError` -/

@[simp] theorem clearError_cfg (s : State) : (clearError s).cfg = s.cfg := rfl
@[simp] theorem clearError_s (s : State) : (clearError s).s = s.s := rfl
@[simp] theorem clearError_w (s : State) : (clearError s).w = s.w := rfl
@[simp] theorem clearError_seen (s : State) : (clearError s).seen = s.seen := rfl
@[simp] theorem clearError_mode (s : State) : (clearError s).mode = s.mode := rfl
@[simp] theorem clearError_rc (s : State) : (clearError s).rc = s.rc := rfl
@[simp] theorem clearError_rn (s : State) : (clearError s).rn = s.rn := rfl
@[simp] theorem clearError_blk (s : State) : (clearError s).blk = s.blk := rfl
@[simp] theorem clearError_mlen (s : State) : (clearError s).mlen = s.mlen := rfl
@[simp] theorem clearError_busy (s : State) : (clearError s).busy = s.busy := rfl
@[simp] theorem clearError_err (s : State) : (clearError s).err = false := rfl
@[simp] theorem clearError_ecode (s : State) : (clearError s).ecode = 0 := rfl
@[simp] theorem clearError_einfo (s : State) : (clearError s).einfo = 0 := rfl
@[simp] theorem clearError_seqOp (s : State) : (clearError s).seqOp = s.seqOp := rfl
@[simp] theorem clearError_seqF (s : State) : (clearError s).seqF = s.seqF := rfl
@[simp] theorem clearError_seqPh (s : State) : (clearError s).seqPh = s.seqPh := rfl
@[simp] theorem clearError_msg (s : State) : (clearError s).msg = s.msg := rfl
@[simp] theorem clearError_inbox (s : State) : (clearError s).inbox = s.inbox := rfl
@[simp] theorem clearError_replies (s : State) : (clearError s).replies = s.replies := rfl
@[simp] theorem clearError_freeIx (s : State) : (clearError s).freeIx = s.freeIx := rfl

/-! ### `accept` -/

@[simp] theorem accept_cfg (i : Instr) (ph : Phase) (s : State) : (accept i ph s).cfg = s.cfg := rfl
@[simp] theorem accept_s (i : Instr) (ph : Phase) (s : State) : (accept i ph s).s = s.s := rfl
@[simp] theorem accept_w (i : Instr) (ph : Phase) (s : State) : (accept i ph s).w = s.w := rfl
@[simp] theorem accept_seen (i : Instr) (ph : Phase) (s : State) : (accept i ph s).seen = s.seen := rfl
@[simp] theorem accept_mode (i : Instr) (ph : Phase) (s : State) : (accept i ph s).mode = s.mode := rfl
@[simp] theorem accept_rc (i : Instr) (ph : Phase) (s : State) : (accept i ph s).rc = s.rc := rfl
@[simp] theorem accept_rn (i : Instr) (ph : Phase) (s : State) : (accept i ph s).rn = s.rn := rfl
@[simp] theorem accept_blk (i : Instr) (ph : Phase) (s : State) : (accept i ph s).blk = s.blk := rfl
@[simp] theorem accept_mlen (i : Instr) (ph : Phase) (s : State) : (accept i ph s).mlen = s.mlen := rfl
@[simp] theorem accept_busy (i : Instr) (ph : Phase) (s : State) : (accept i ph s).busy = true := rfl
@[simp] theorem accept_err (i : Instr) (ph : Phase) (s : State) : (accept i ph s).err = s.err := rfl
@[simp] theorem accept_ecode (i : Instr) (ph : Phase) (s : State) : (accept i ph s).ecode = s.ecode := rfl
@[simp] theorem accept_einfo (i : Instr) (ph : Phase) (s : State) : (accept i ph s).einfo = s.einfo := rfl
@[simp] theorem accept_seqOp (i : Instr) (ph : Phase) (s : State) : (accept i ph s).seqOp = i.opcode := rfl
@[simp] theorem accept_seqF (i : Instr) (ph : Phase) (s : State) : (accept i ph s).seqF = i.modeOperand := rfl
@[simp] theorem accept_seqPh (i : Instr) (ph : Phase) (s : State) : (accept i ph s).seqPh = ph := rfl
@[simp] theorem accept_msg (i : Instr) (ph : Phase) (s : State) : (accept i ph s).msg = s.msg := rfl
@[simp] theorem accept_inbox (i : Instr) (ph : Phase) (s : State) : (accept i ph s).inbox = s.inbox := rfl
@[simp] theorem accept_replies (i : Instr) (ph : Phase) (s : State) : (accept i ph s).replies = s.replies := rfl
@[simp] theorem accept_freeIx (i : Instr) (ph : Phase) (s : State) : (accept i ph s).freeIx = s.freeIx := rfl

/-! ### `goTo` -/

@[simp] theorem goTo_cfg (ph : Phase) (s : State) : (goTo ph s).cfg = s.cfg := rfl
@[simp] theorem goTo_s (ph : Phase) (s : State) : (goTo ph s).s = s.s := rfl
@[simp] theorem goTo_w (ph : Phase) (s : State) : (goTo ph s).w = s.w := rfl
@[simp] theorem goTo_seen (ph : Phase) (s : State) : (goTo ph s).seen = s.seen := rfl
@[simp] theorem goTo_mode (ph : Phase) (s : State) : (goTo ph s).mode = s.mode := rfl
@[simp] theorem goTo_rc (ph : Phase) (s : State) : (goTo ph s).rc = s.rc := rfl
@[simp] theorem goTo_rn (ph : Phase) (s : State) : (goTo ph s).rn = s.rn := rfl
@[simp] theorem goTo_blk (ph : Phase) (s : State) : (goTo ph s).blk = s.blk := rfl
@[simp] theorem goTo_mlen (ph : Phase) (s : State) : (goTo ph s).mlen = s.mlen := rfl
@[simp] theorem goTo_busy (ph : Phase) (s : State) : (goTo ph s).busy = (ph != .idle) := rfl
@[simp] theorem goTo_err (ph : Phase) (s : State) : (goTo ph s).err = s.err := rfl
@[simp] theorem goTo_ecode (ph : Phase) (s : State) : (goTo ph s).ecode = s.ecode := rfl
@[simp] theorem goTo_einfo (ph : Phase) (s : State) : (goTo ph s).einfo = s.einfo := rfl
@[simp] theorem goTo_seqOp (ph : Phase) (s : State) : (goTo ph s).seqOp = s.seqOp := rfl
@[simp] theorem goTo_seqF (ph : Phase) (s : State) : (goTo ph s).seqF = s.seqF := rfl
@[simp] theorem goTo_seqPh (ph : Phase) (s : State) : (goTo ph s).seqPh = ph := rfl
@[simp] theorem goTo_msg (ph : Phase) (s : State) : (goTo ph s).msg = s.msg := rfl
@[simp] theorem goTo_inbox (ph : Phase) (s : State) : (goTo ph s).inbox = s.inbox := rfl
@[simp] theorem goTo_replies (ph : Phase) (s : State) : (goTo ph s).replies = s.replies := rfl
@[simp] theorem goTo_freeIx (ph : Phase) (s : State) : (goTo ph s).freeIx = s.freeIx := rfl

/-! ### `reply` -/

@[simp] theorem reply_cfg (v : Word) (s : State) : (reply v s).cfg = s.cfg := rfl
@[simp] theorem reply_s (v : Word) (s : State) : (reply v s).s = s.s := rfl
@[simp] theorem reply_w (v : Word) (s : State) : (reply v s).w = s.w := rfl
@[simp] theorem reply_seen (v : Word) (s : State) : (reply v s).seen = s.seen := rfl
@[simp] theorem reply_mode (v : Word) (s : State) : (reply v s).mode = s.mode := rfl
@[simp] theorem reply_rc (v : Word) (s : State) : (reply v s).rc = s.rc := rfl
@[simp] theorem reply_rn (v : Word) (s : State) : (reply v s).rn = s.rn := rfl
@[simp] theorem reply_blk (v : Word) (s : State) : (reply v s).blk = s.blk := rfl
@[simp] theorem reply_mlen (v : Word) (s : State) : (reply v s).mlen = s.mlen := rfl
@[simp] theorem reply_busy (v : Word) (s : State) : (reply v s).busy = s.busy := rfl
@[simp] theorem reply_err (v : Word) (s : State) : (reply v s).err = s.err := rfl
@[simp] theorem reply_ecode (v : Word) (s : State) : (reply v s).ecode = s.ecode := rfl
@[simp] theorem reply_einfo (v : Word) (s : State) : (reply v s).einfo = s.einfo := rfl
@[simp] theorem reply_seqOp (v : Word) (s : State) : (reply v s).seqOp = s.seqOp := rfl
@[simp] theorem reply_seqF (v : Word) (s : State) : (reply v s).seqF = s.seqF := rfl
@[simp] theorem reply_seqPh (v : Word) (s : State) : (reply v s).seqPh = s.seqPh := rfl
@[simp] theorem reply_msg (v : Word) (s : State) : (reply v s).msg = s.msg := rfl
@[simp] theorem reply_inbox (v : Word) (s : State) : (reply v s).inbox = s.inbox := rfl
@[simp] theorem reply_replies (v : Word) (s : State) : (reply v s).replies = v :: s.replies := rfl
@[simp] theorem reply_freeIx (v : Word) (s : State) : (reply v s).freeIx = s.freeIx := rfl

/-! ### `resetEvent` -/

@[simp] theorem resetEvent_cfg (s : State) : (resetEvent s).cfg = s.cfg := rfl
@[simp] theorem resetEvent_s (s : State) : (resetEvent s).s = State.reset.s := rfl
@[simp] theorem resetEvent_w (s : State) : (resetEvent s).w = State.reset.w := rfl
@[simp] theorem resetEvent_seen (s : State) : (resetEvent s).seen = State.reset.seen := rfl
@[simp] theorem resetEvent_mode (s : State) : (resetEvent s).mode = State.reset.mode := rfl
@[simp] theorem resetEvent_rc (s : State) : (resetEvent s).rc = State.reset.rc := rfl
@[simp] theorem resetEvent_rn (s : State) : (resetEvent s).rn = State.reset.rn := rfl
@[simp] theorem resetEvent_blk (s : State) : (resetEvent s).blk = State.reset.blk := rfl
@[simp] theorem resetEvent_mlen (s : State) : (resetEvent s).mlen = State.reset.mlen := rfl
@[simp] theorem resetEvent_busy (s : State) : (resetEvent s).busy = State.reset.busy := rfl
@[simp] theorem resetEvent_err (s : State) : (resetEvent s).err = State.reset.err := rfl
@[simp] theorem resetEvent_ecode (s : State) : (resetEvent s).ecode = State.reset.ecode := rfl
@[simp] theorem resetEvent_einfo (s : State) : (resetEvent s).einfo = State.reset.einfo := rfl
@[simp] theorem resetEvent_seqOp (s : State) : (resetEvent s).seqOp = State.reset.seqOp := rfl
@[simp] theorem resetEvent_seqF (s : State) : (resetEvent s).seqF = State.reset.seqF := rfl
@[simp] theorem resetEvent_seqPh (s : State) : (resetEvent s).seqPh = State.reset.seqPh := rfl
@[simp] theorem resetEvent_msg (s : State) : (resetEvent s).msg = State.reset.msg := rfl
@[simp] theorem resetEvent_inbox (s : State) : (resetEvent s).inbox = s.inbox := rfl
@[simp] theorem resetEvent_replies (s : State) : (resetEvent s).replies = s.replies := rfl
@[simp] theorem resetEvent_freeIx (s : State) : (resetEvent s).freeIx = s.freeIx := rfl

/-! ### `initStep` -/

@[simp] theorem initStep_cfg (f : Mode) (s : State) : (initStep f s).cfg = s.cfg := rfl
@[simp] theorem initStep_s (f : Mode) (s : State) : (initStep f s).s = s.cfg.initialState := rfl
@[simp] theorem initStep_w (f : Mode) (s : State) : (initStep f s).w = s.w := rfl
@[simp] theorem initStep_seen (f : Mode) (s : State) : (initStep f s).seen = s.seen := rfl
@[simp] theorem initStep_mode (f : Mode) (s : State) : (initStep f s).mode = f := rfl
@[simp] theorem initStep_rc (f : Mode) (s : State) : (initStep f s).rc = s.rc := rfl
@[simp] theorem initStep_rn (f : Mode) (s : State) : (initStep f s).rn = 0 := rfl
@[simp] theorem initStep_blk (f : Mode) (s : State) : (initStep f s).blk = 0 := rfl
@[simp] theorem initStep_mlen (f : Mode) (s : State) : (initStep f s).mlen = s.mlen := rfl
@[simp] theorem initStep_busy (f : Mode) (s : State) : (initStep f s).busy = s.busy := rfl
@[simp] theorem initStep_err (f : Mode) (s : State) : (initStep f s).err = s.err := rfl
@[simp] theorem initStep_ecode (f : Mode) (s : State) : (initStep f s).ecode = s.ecode := rfl
@[simp] theorem initStep_einfo (f : Mode) (s : State) : (initStep f s).einfo = s.einfo := rfl
@[simp] theorem initStep_seqOp (f : Mode) (s : State) : (initStep f s).seqOp = s.seqOp := rfl
@[simp] theorem initStep_seqF (f : Mode) (s : State) : (initStep f s).seqF = s.seqF := rfl
@[simp] theorem initStep_seqPh (f : Mode) (s : State) : (initStep f s).seqPh = s.seqPh := rfl
@[simp] theorem initStep_msg (f : Mode) (s : State) : (initStep f s).msg = s.msg := rfl
@[simp] theorem initStep_inbox (f : Mode) (s : State) : (initStep f s).inbox = s.inbox := rfl
@[simp] theorem initStep_replies (f : Mode) (s : State) : (initStep f s).replies = s.replies := rfl
@[simp] theorem initStep_freeIx (f : Mode) (s : State) : (initStep f s).freeIx = s.freeIx := rfl

/-! ### `tdiffStep` -/

@[simp] theorem tdiffStep_cfg (s : State) : (tdiffStep s).cfg = s.cfg := rfl
@[simp] theorem tdiffStep_s (s : State) : (tdiffStep s).s = tdiff s.cfg s.s s.w := rfl
@[simp] theorem tdiffStep_w (s : State) : (tdiffStep s).w = s.w := rfl
@[simp] theorem tdiffStep_seen (s : State) : (tdiffStep s).seen = s.seen := rfl
@[simp] theorem tdiffStep_mode (s : State) : (tdiffStep s).mode = s.mode := rfl
@[simp] theorem tdiffStep_rc (s : State) : (tdiffStep s).rc = s.rc := rfl
@[simp] theorem tdiffStep_rn (s : State) : (tdiffStep s).rn = s.rn := rfl
@[simp] theorem tdiffStep_blk (s : State) : (tdiffStep s).blk = s.blk := rfl
@[simp] theorem tdiffStep_mlen (s : State) : (tdiffStep s).mlen = s.mlen := rfl
@[simp] theorem tdiffStep_busy (s : State) : (tdiffStep s).busy = s.busy := rfl
@[simp] theorem tdiffStep_err (s : State) : (tdiffStep s).err = s.err := rfl
@[simp] theorem tdiffStep_ecode (s : State) : (tdiffStep s).ecode = s.ecode := rfl
@[simp] theorem tdiffStep_einfo (s : State) : (tdiffStep s).einfo = s.einfo := rfl
@[simp] theorem tdiffStep_seqOp (s : State) : (tdiffStep s).seqOp = s.seqOp := rfl
@[simp] theorem tdiffStep_seqF (s : State) : (tdiffStep s).seqF = s.seqF := rfl
@[simp] theorem tdiffStep_seqPh (s : State) : (tdiffStep s).seqPh = s.seqPh := rfl
@[simp] theorem tdiffStep_msg (s : State) : (tdiffStep s).msg = s.msg := rfl
@[simp] theorem tdiffStep_inbox (s : State) : (tdiffStep s).inbox = s.inbox := rfl
@[simp] theorem tdiffStep_replies (s : State) : (tdiffStep s).replies = s.replies := rfl
@[simp] theorem tdiffStep_freeIx (s : State) : (tdiffStep s).freeIx = s.freeIx := rfl

/-! ### `roundStep` -/

@[simp] theorem roundStep_cfg (s : State) : (roundStep s).cfg = s.cfg := rfl
@[simp] theorem roundStep_s (s : State) : (roundStep s).s = compressionRound s.cfg s.s s.w s.rn.toNat := rfl
@[simp] theorem roundStep_w (s : State) : (roundStep s).w = s.w := rfl
@[simp] theorem roundStep_seen (s : State) : (roundStep s).seen = s.seen := rfl
@[simp] theorem roundStep_mode (s : State) : (roundStep s).mode = s.mode := rfl
@[simp] theorem roundStep_rc (s : State) : (roundStep s).rc = s.rc := rfl
@[simp] theorem roundStep_rn (s : State) : (roundStep s).rn = s.rn + 1 := rfl
@[simp] theorem roundStep_blk (s : State) : (roundStep s).blk = s.blk := rfl
@[simp] theorem roundStep_mlen (s : State) : (roundStep s).mlen = s.mlen := rfl
@[simp] theorem roundStep_busy (s : State) : (roundStep s).busy = s.busy := rfl
@[simp] theorem roundStep_err (s : State) : (roundStep s).err = s.err := rfl
@[simp] theorem roundStep_ecode (s : State) : (roundStep s).ecode = s.ecode := rfl
@[simp] theorem roundStep_einfo (s : State) : (roundStep s).einfo = s.einfo := rfl
@[simp] theorem roundStep_seqOp (s : State) : (roundStep s).seqOp = s.seqOp := rfl
@[simp] theorem roundStep_seqF (s : State) : (roundStep s).seqF = s.seqF := rfl
@[simp] theorem roundStep_seqPh (s : State) : (roundStep s).seqPh = s.seqPh := rfl
@[simp] theorem roundStep_msg (s : State) : (roundStep s).msg = s.msg := rfl
@[simp] theorem roundStep_inbox (s : State) : (roundStep s).inbox = s.inbox := rfl
@[simp] theorem roundStep_replies (s : State) : (roundStep s).replies = s.replies := rfl
@[simp] theorem roundStep_freeIx (s : State) : (roundStep s).freeIx = s.freeIx := rfl

/-! ### `froundStep` -/

@[simp] theorem froundStep_cfg (s : State) : (froundStep s).cfg = s.cfg := rfl
@[simp] theorem froundStep_s (s : State) : (froundStep s).s = fastRound s.cfg s.s s.w s.rn.toNat := rfl
@[simp] theorem froundStep_w (s : State) : (froundStep s).w = s.w := rfl
@[simp] theorem froundStep_seen (s : State) : (froundStep s).seen = s.seen := rfl
@[simp] theorem froundStep_mode (s : State) : (froundStep s).mode = s.mode := rfl
@[simp] theorem froundStep_rc (s : State) : (froundStep s).rc = s.rc := rfl
@[simp] theorem froundStep_rn (s : State) : (froundStep s).rn = s.rn + 1 := rfl
@[simp] theorem froundStep_blk (s : State) : (froundStep s).blk = s.blk := rfl
@[simp] theorem froundStep_mlen (s : State) : (froundStep s).mlen = s.mlen := rfl
@[simp] theorem froundStep_busy (s : State) : (froundStep s).busy = s.busy := rfl
@[simp] theorem froundStep_err (s : State) : (froundStep s).err = s.err := rfl
@[simp] theorem froundStep_ecode (s : State) : (froundStep s).ecode = s.ecode := rfl
@[simp] theorem froundStep_einfo (s : State) : (froundStep s).einfo = s.einfo := rfl
@[simp] theorem froundStep_seqOp (s : State) : (froundStep s).seqOp = s.seqOp := rfl
@[simp] theorem froundStep_seqF (s : State) : (froundStep s).seqF = s.seqF := rfl
@[simp] theorem froundStep_seqPh (s : State) : (froundStep s).seqPh = s.seqPh := rfl
@[simp] theorem froundStep_msg (s : State) : (froundStep s).msg = s.msg := rfl
@[simp] theorem froundStep_inbox (s : State) : (froundStep s).inbox = s.inbox := rfl
@[simp] theorem froundStep_replies (s : State) : (froundStep s).replies = s.replies := rfl
@[simp] theorem froundStep_freeIx (s : State) : (froundStep s).freeIx = s.freeIx := rfl

/-! ### `chainStep` -/

@[simp] theorem chainStep_cfg (s : State) : (chainStep s).cfg = s.cfg := rfl
@[simp] theorem chainStep_s (s : State) : (chainStep s).s = chain s.cfg s.s := rfl
@[simp] theorem chainStep_w (s : State) : (chainStep s).w = s.w := rfl
@[simp] theorem chainStep_seen (s : State) : (chainStep s).seen = s.seen := rfl
@[simp] theorem chainStep_mode (s : State) : (chainStep s).mode = s.mode := rfl
@[simp] theorem chainStep_rc (s : State) : (chainStep s).rc = s.rc := rfl
@[simp] theorem chainStep_rn (s : State) : (chainStep s).rn = 0 := rfl
@[simp] theorem chainStep_blk (s : State) : (chainStep s).blk = s.blk + 1 := rfl
@[simp] theorem chainStep_mlen (s : State) : (chainStep s).mlen = s.mlen := rfl
@[simp] theorem chainStep_busy (s : State) : (chainStep s).busy = s.busy := rfl
@[simp] theorem chainStep_err (s : State) : (chainStep s).err = s.err := rfl
@[simp] theorem chainStep_ecode (s : State) : (chainStep s).ecode = s.ecode := rfl
@[simp] theorem chainStep_einfo (s : State) : (chainStep s).einfo = s.einfo := rfl
@[simp] theorem chainStep_seqOp (s : State) : (chainStep s).seqOp = s.seqOp := rfl
@[simp] theorem chainStep_seqF (s : State) : (chainStep s).seqF = s.seqF := rfl
@[simp] theorem chainStep_seqPh (s : State) : (chainStep s).seqPh = s.seqPh := rfl
@[simp] theorem chainStep_msg (s : State) : (chainStep s).msg = s.msg := rfl
@[simp] theorem chainStep_inbox (s : State) : (chainStep s).inbox = s.inbox := rfl
@[simp] theorem chainStep_replies (s : State) : (chainStep s).replies = s.replies := rfl
@[simp] theorem chainStep_freeIx (s : State) : (chainStep s).freeIx = s.freeIx := rfl

/-! ### `raise` -/

@[simp] theorem raise_cfg (e : ErrorCause) (c : Word) (s : State) :
    (raise e c s).cfg = s.cfg := by unfold raise; split <;> rfl
@[simp] theorem raise_s (e : ErrorCause) (c : Word) (s : State) :
    (raise e c s).s = s.s := by unfold raise; split <;> rfl
@[simp] theorem raise_w (e : ErrorCause) (c : Word) (s : State) :
    (raise e c s).w = s.w := by unfold raise; split <;> rfl
@[simp] theorem raise_seen (e : ErrorCause) (c : Word) (s : State) :
    (raise e c s).seen = s.seen := by unfold raise; split <;> rfl
@[simp] theorem raise_mode (e : ErrorCause) (c : Word) (s : State) :
    (raise e c s).mode = s.mode := by unfold raise; split <;> rfl
@[simp] theorem raise_rc (e : ErrorCause) (c : Word) (s : State) :
    (raise e c s).rc = s.rc := by unfold raise; split <;> rfl
@[simp] theorem raise_rn (e : ErrorCause) (c : Word) (s : State) :
    (raise e c s).rn = s.rn := by unfold raise; split <;> rfl
@[simp] theorem raise_blk (e : ErrorCause) (c : Word) (s : State) :
    (raise e c s).blk = s.blk := by unfold raise; split <;> rfl
@[simp] theorem raise_mlen (e : ErrorCause) (c : Word) (s : State) :
    (raise e c s).mlen = s.mlen := by unfold raise; split <;> rfl
@[simp] theorem raise_busy (e : ErrorCause) (c : Word) (s : State) :
    (raise e c s).busy = s.busy := by unfold raise; split <;> rfl
@[simp] theorem raise_seqOp (e : ErrorCause) (c : Word) (s : State) :
    (raise e c s).seqOp = s.seqOp := by unfold raise; split <;> rfl
@[simp] theorem raise_seqF (e : ErrorCause) (c : Word) (s : State) :
    (raise e c s).seqF = s.seqF := by unfold raise; split <;> rfl
@[simp] theorem raise_seqPh (e : ErrorCause) (c : Word) (s : State) :
    (raise e c s).seqPh = s.seqPh := by unfold raise; split <;> rfl
@[simp] theorem raise_msg (e : ErrorCause) (c : Word) (s : State) :
    (raise e c s).msg = s.msg := by unfold raise; split <;> rfl
@[simp] theorem raise_inbox (e : ErrorCause) (c : Word) (s : State) :
    (raise e c s).inbox = s.inbox := by unfold raise; split <;> rfl
@[simp] theorem raise_replies (e : ErrorCause) (c : Word) (s : State) :
    (raise e c s).replies = s.replies := by unfold raise; split <;> rfl
@[simp] theorem raise_freeIx (e : ErrorCause) (c : Word) (s : State) :
    (raise e c s).freeIx = s.freeIx := by unfold raise; split <;> rfl
@[simp] theorem raise_err (e : ErrorCause) (c : Word) (s : State) : (raise e c s).err = true := by
  unfold raise; split <;> simp_all
theorem raise_of_err (e : ErrorCause) (c : Word) {s : State} (h : s.err = true) :
    raise e c s = s := if_pos h
theorem raise_of_no_err (e : ErrorCause) (c : Word) {s : State} (h : s.err = false) :
    raise e c s = { s with err := true, ecode := errorCode e, einfo := c } := by
  simp [raise, h]

end Sys2Proof.Machine
end

