-- ==== Sys2Proof/Laws/HostPort.lean ====
section
/-! SUPPORT. The register map and the legal accesses: the decoding of an offset agrees with
spec/10_state.md R38 and spec/20_memory.md R67 in their own words. -/

namespace Sys2Proof.Machine

open Sys2Proof.Safety

/-- The map sends a register's offset to it. -/
theorem regAt_regOffset (r : Reg) : regAt (regOffset r) = some r := by
  cases r <;> (try rename_i i; fin_cases i) <;> rfl

theorem regAt_beyond {off : Nat} (h : 0x1A0 ≤ off) : regAt off = none := by
  by_cases h4 : off % 4 ≠ 0
  · simp only [regAt, if_pos h4]
  · unfold regAt
    rw [if_neg h4]
    repeat rw [if_neg (by omega)]

/-- The map below 0x1A0, offset by offset: what is mapped, and the access column. -/
theorem regAt_table : ∀ off, off < 0x1A0 →
    (regAt off).elim (decide (off % 4 ≠ 0 ∨ ¬ mapped off)) (fun r => decide (off = regOffset r ∧
      off % 4 = 0 ∧ mapped off ∧ (regAccess r = .ro ↔ readOnly off))) = true := by
  decide +kernel

theorem regAt_eq_some_iff (off : Nat) (r : Reg) : regAt off = some r ↔ off = regOffset r := by
  constructor
  · intro h
    by_cases hb : off < 0x1A0
    · have := regAt_table off hb
      rw [h] at this
      exact (of_decide_eq_true this).1
    · rw [regAt_beyond (by omega)] at h; cases h
  · rintro rfl; exact regAt_regOffset r

/-- Everything the map says of an offset. -/
theorem regAt_cases (off : Nat) :
    (∃ r, regAt off = some r ∧ off = regOffset r ∧ off % 4 = 0 ∧ mapped off ∧
      (regAccess r = .ro ↔ readOnly off)) ∨
    (regAt off = none ∧ (off % 4 ≠ 0 ∨ ¬ mapped off)) := by
  by_cases hb : off < 0x1A0
  · have := regAt_table off hb
    cases h : regAt off with
    | some r => rw [h] at this; exact .inl ⟨r, rfl, of_decide_eq_true this⟩
    | none => rw [h] at this; exact .inr ⟨rfl, of_decide_eq_true this⟩
  · exact .inr ⟨regAt_beyond (by omega), .inr (by unfold mapped; omega)⟩

/-- The legal reads are those of R67. -/
theorem accessTarget_isSome_iff (cap off n : Nat) :
    (accessTarget cap off n).isSome = true ↔ legalRead cap off n := by
  unfold accessTarget windowBase legalRead
  split
  next hlt =>
    split
    next h4 =>
      subst h4
      rcases regAt_cases off with ⟨r, hr, _, h1, h2, _⟩ | ⟨hr, h⟩
      · simp [hr, h1, h2]
      · simp only [hr, Option.map_none, Option.isSome_none]; simp; omega
    next h4 =>
      split
      next h1 =>
        subst h1
        rcases regAt_cases (off / 4 * 4) with ⟨r, hr, _, h1, h2, _⟩ | ⟨hr, h⟩
        · have : mapped off := by unfold mapped at *; omega
          simp [hr, this]
        · have : ¬ mapped off := by unfold mapped at *; omega
          simp only [hr, Option.map_none, Option.isSome_none]; simp [this]; omega
      next h1 => simp; omega
  next hlt =>
    simp only []
    split
    next h => simp; omega
    next h =>
      split
      next h' => simp; omega
      next h' => simp; omega

/-- The legal writes are those of R67. -/
theorem writeTarget_isSome_iff (cap off n : Nat) :
    (writeTarget cap off n).isSome = true ↔ legalWrite cap off n := by
  unfold writeTarget accessTarget windowBase legalWrite
  split
  next hlt =>
    split
    next h4 =>
      subst h4
      rcases regAt_cases off with ⟨r, hr, _, h1, h2, h3⟩ | ⟨hr, h⟩
      · simp only [hr, Option.map_some, Option.filter_some, targetWritable]
        by_cases hro : regAccess r = .ro
        · have := h3.1 hro
          simp [hro]; unfold readOnly at this; omega
        · have h3' : ¬ readOnly off := fun h => hro (h3.2 h)
          simp [hro, h1, h2, h3']
      · simp only [hr, Option.map_none, Option.filter_none, Option.isSome_none]; simp; omega
    next h4 =>
      split
      next h1 =>
        subst h1
        rcases regAt_cases (off / 4 * 4) with ⟨r, hr, _, _, _, _⟩ | ⟨hr, h⟩
        · simp [hr, targetWritable]; omega
        · simp [hr]; omega
      next h1 => simp; omega
  next hlt =>
    simp only []
    split
    next h => simp [targetWritable]; omega
    next h =>
      split
      next h' => simp [targetWritable]; omega
      next h' => simp; unfold mapped; omega

theorem accessTarget_eq_none_iff (cap off n : Nat) :
    accessTarget cap off n = none ↔ ¬ legalRead cap off n := by
  rw [← accessTarget_isSome_iff]; cases accessTarget cap off n <;> simp

theorem writeTarget_eq_none_iff (cap off n : Nat) :
    writeTarget cap off n = none ↔ ¬ legalWrite cap off n := by
  rw [← writeTarget_isSome_iff]; cases writeTarget cap off n <;> simp

/-- A 4-byte access at a register's offset touches that register. -/
theorem accessTarget_reg (cap : Nat) (r : Reg) : accessTarget cap (regOffset r) 4 = some (.reg r) := by
  have h : regOffset r < windowBase := by
    unfold windowBase; cases r <;> simp only [regOffset] <;> omega
  simp [accessTarget, h, regAt_regOffset]

/-- Everything the step of an idle engine can do. -/
theorem idleStep_cases (s : State) :
    (s.inbox = [] ∧ idleStep s = .next s) ∨
    (∃ a rest c, s.inbox = ⟨a, .write 0x000 4 c⟩ :: rest ∧
      idleStep s = stepCommand c { s with inbox := rest }) ∨
    (∃ a i rest, s.inbox = ⟨a, i⟩ :: rest ∧ commandWord i = none ∧
      idleStep s = deliverIdle i { s with inbox := rest }) := by
  cases h : s.inbox with
  | nil => exact .inl ⟨rfl, by simp [idleStep, takeInput, h]⟩
  | cons p rest =>
    obtain ⟨a, i⟩ := p
    cases hc : commandWord i with
    | none => exact .inr (.inr ⟨a, i, rest, rfl, hc, by simp [idleStep, takeInput, h, hc]⟩)
    | some c =>
      refine .inr (.inl ⟨a, rest, c, ?_, by simp [idleStep, takeInput, h, hc]⟩)
      cases i with
      | write off n v =>
        simp only [commandWord] at hc
        split at hc
        next hh => obtain ⟨rfl, rfl⟩ := hh; cases hc; rfl
        next => cases hc
      | read off n => cases hc
      | reset => cases hc

end Sys2Proof.Machine
end

