-- ==== Sys2Proof/Laws/Ops.lean ====
section
/-! SUPPORT. Sequencing of outcomes and the acceptance of a command: everything they can do. -/

namespace Sys2Proof.Machine

@[simp] theorem andThen_next (s : State) (k : State → Result) : andThen (.next s) k = k s := rfl
@[simp] theorem andThen_fault (f : Fault) (k : State → Result) :
    andThen (.fault f) k = .fault f := rfl
@[simp] theorem andThen_refused (r : Refusal) (k : State → Result) :
    andThen (.refused r) k = .refused r := rfl

theorem andThen_eq_next {o : Result} {k : State → Result} {t : State} (h : andThen o k = .next t) :
    ∃ s, o = .next s ∧ k s = .next t := by
  cases o with
  | next s => exact ⟨s, rfl, h⟩
  | fault f => cases h
  | refused r => cases h

theorem andThen_assoc (o : Result) (k l : State → Result) :
    andThen (andThen o k) l = andThen o fun s => andThen (k s) l := by cases o <;> rfl

/-- Everything `issue` can do. -/
theorem issue_cases (i : Instr) (check : Option ErrorCause) (run : State → Result) (s : State) :
    (s.busy = true ∧ issue i check run s = .next (raise .busyAccess 0 s)) ∨
    (s.busy = false ∧ s.err = true ∧ i ≠ .clrerr ∧ issue i check run s = .next s) ∨
    (s.busy = false ∧ (s.err = false ∨ i = .clrerr) ∧ ∃ e, check = some e ∧
      issue i check run s = .next (raise e (encode i) s)) ∨
    (s.busy = false ∧ (s.err = false ∨ i = .clrerr) ∧ check = none ∧ issue i check run s = run s) := by
  unfold issue
  by_cases hb : s.busy = true
  · exact .inl ⟨hb, by simp [hb]⟩
  · have hb' : s.busy = false := by simpa using hb
    by_cases he : s.err = true ∧ i ≠ .clrerr
    · exact .inr (.inl ⟨hb', he.1, he.2, by simp [hb', he.1, he.2]⟩)
    · have hor : s.err = false ∨ i = .clrerr := by
        by_cases h1 : s.err = true
        · exact .inr (by by_contra h2; exact he ⟨h1, h2⟩)
        · exact .inl (by simpa using h1)
      have hc : (s.err && i != .clrerr) = false := by
        rcases hor with h | h <;> simp [h]
      cases check with
      | none => exact .inr (.inr (.inr ⟨hb', hor, rfl, by simp [hb', hc]⟩))
      | some e => exact .inr (.inr (.inl ⟨hb', hor, e, rfl, by simp [hb', hc]⟩))

/-- On a ready engine `issue` checks the operands and runs. -/
theorem issue_ready (i : Instr) (check : Option ErrorCause) (run : State → Result) {s : State}
    (hb : s.busy = false) (he : s.err = false) :
    issue i check run s =
      match check with
      | some e => .next (raise e (encode i) s)
      | none => run s := by
  unfold issue; cases check <;> simp [hb, he]

/-- Error entry does one of two things (spec/60_exceptions.md R219). -/
theorem raise_cases (e : ErrorCause) (c : Word) (s : State) :
    (s.err = true ∧ raise e c s = s) ∨
    (s.err = false ∧ raise e c s = { s with err := true, ecode := errorCode e, einfo := c }) := by
  cases h : s.err with
  | true => exact .inl ⟨rfl, raise_of_err e c h⟩
  | false => exact .inr ⟨rfl, raise_of_no_err e c h⟩

end Sys2Proof.Machine
end

