-- ==== Sys2Proof/Laws/Sequencer.lean ====
section
/-! SUPPORT. The sequencer: everything a phase can do, what no phase touches, and the engine steps of a
run whose host is quiet. -/

namespace Sys2Proof.Machine

/-! ### Phases -/

/-- Everything `LOAD`'s phase can do. -/
theorem loadStep_cases (s : State) :
    (∃ a, firstUnwritten s.msg (min s.mlen.toNat (64 * s.blk.toNat + 64) - 64 * s.blk.toNat)
        (64 * s.blk.toNat) = some a ∧ loadStep s = .fault (.unwrittenMessageByte a)) ∨
    (firstUnwritten s.msg (min s.mlen.toNat (64 * s.blk.toNat + 64) - 64 * s.blk.toNat)
        (64 * s.blk.toNat) = none ∧
      loadStep s = .next { s with w := framedBlock (msgByte s.msg) s.mlen.toNat s.blk.toNat }) := by
  unfold loadStep
  cases h : firstUnwritten s.msg (min s.mlen.toNat (64 * s.blk.toNat + 64) - 64 * s.blk.toNat)
        (64 * s.blk.toNat) with
  | none => right; simp [h]
  | some a => left; exact ⟨a, rfl, by simp [h]⟩

/-- Everything `SCHED`'s phase can do. -/
theorem schedStep_cases (s : State) :
    (s.mode = .fast ∧ schedStep s = .next { s with seen := 0, rc := 8 }) ∨
    (s.mode = .standard ∧ ∃ a, firstUnwritten s.msg s.mlen.toNat 0 = some a ∧
      schedStep s = .fault (.unwrittenMessageByte a)) ∨
    (s.mode = .standard ∧ firstUnwritten s.msg s.mlen.toNat 0 = none ∧
      schedStep s = .next { s with
        seen := presence (msgByte s.msg) s.mlen.toNat
        rc := BitVec.ofNat 6 (scheduledRounds (uniqueBytes (presence (msgByte s.msg) s.mlen.toNat))) }) := by
  unfold schedStep
  cases hm : s.mode with
  | fast => left; exact ⟨rfl, rfl⟩
  | standard =>
    right
    cases h : firstUnwritten s.msg s.mlen.toNat 0 with
    | none => right; simp
    | some a => left; exact ⟨rfl, a, rfl, rfl⟩

/-- Everything one phase can do (Table R190). -/
theorem phaseStep_cases (s : State) :
    (s.seqPh = .idle ∧ phaseStep s = .next s) ∨
    (s.seqPh = .pInit ∧
      phaseStep s = .next (goTo (if runsHash s then .pSched else .idle) (initStep s.seqF s))) ∨
    (s.seqPh = .pSched ∧
      ((∃ a, firstUnwritten s.msg s.mlen.toNat 0 = some a ∧ s.mode = .standard ∧
          phaseStep s = .fault (.unwrittenMessageByte a)) ∨
       (∃ seen rc, schedStep s = .next { s with seen := seen, rc := rc } ∧ phaseStep s =
          .next (goTo (if runsHash s then .pLoad else .idle) { s with seen := seen, rc := rc })))) ∨
    (s.seqPh = .pLoad ∧
      ((∃ a, firstUnwritten s.msg (min s.mlen.toNat (64 * s.blk.toNat + 64) - 64 * s.blk.toNat)
          (64 * s.blk.toNat) = some a ∧ phaseStep s = .fault (.unwrittenMessageByte a)) ∨
       (phaseStep s = .next (goTo (afterLoad s)
          { s with w := framedBlock (msgByte s.msg) s.mlen.toNat s.blk.toNat })))) ∨
    (s.seqPh = .pTdiff ∧ phaseStep s = .next (goTo (afterTdiff s) (tdiffStep s))) ∨
    (s.seqPh = .pRound ∧ phaseStep s = .next (goTo (afterRound (roundStep s)) (roundStep s))) ∨
    (s.seqPh = .pFround ∧ phaseStep s = .next (goTo (afterFround (froundStep s)) (froundStep s))) ∨
    (s.seqPh = .pChain ∧ phaseStep s = .next (goTo (afterChain (chainStep s)) (chainStep s))) := by
  cases hp : s.seqPh with
  | idle => simp [phaseStep, hp]
  | pInit => simp [phaseStep, hp]
  | pSched =>
    refine .inr (.inr (.inl ⟨rfl, ?_⟩))
    rcases schedStep_cases s with ⟨_, h⟩ | ⟨hm, a, ha, h⟩ | ⟨_, _, h⟩
    · exact .inr ⟨0, 8, by rw [h, hp], by simp only [phaseStep, hp, h, andThen_next]; rfl⟩
    · exact .inl ⟨a, ha, hm, by simp only [phaseStep, hp, h, andThen_fault]⟩
    · exact .inr ⟨presence (msgByte s.msg) s.mlen.toNat,
        BitVec.ofNat 6 (scheduledRounds (uniqueBytes (presence (msgByte s.msg) s.mlen.toNat))),
        by rw [h, hp], by simp only [phaseStep, hp, h, andThen_next]; rfl⟩
  | pLoad =>
    refine .inr (.inr (.inr (.inl ⟨rfl, ?_⟩)))
    rcases loadStep_cases s with ⟨a, ha, h⟩ | ⟨_, h⟩
    · exact .inl ⟨a, ha, by simp only [phaseStep, hp, h, andThen_fault]⟩
    · exact .inr (by simp only [phaseStep, hp, h, andThen_next]; rfl)
  | pTdiff => simp [phaseStep, hp]; rfl
  | pRound => simp [phaseStep, hp]
  | pFround => simp [phaseStep, hp]
  | pChain => simp [phaseStep, hp]

/-- No phase touches what belongs to the host, the parameters or the error record. -/
theorem phaseStep_keeps {s t : State} (h : phaseStep s = .next t) :
    t.cfg = s.cfg ∧ t.mlen = s.mlen ∧ t.msg = s.msg ∧ t.err = s.err ∧ t.ecode = s.ecode ∧
    t.einfo = s.einfo ∧ t.seqOp = s.seqOp ∧ t.seqF = s.seqF ∧ t.inbox = s.inbox ∧
    t.replies = s.replies ∧ t.freeIx = s.freeIx := by
  rcases phaseStep_cases s with ⟨_, h'⟩ | ⟨_, h'⟩ | ⟨_, ⟨a, _, _, h'⟩ | ⟨x, y, _, h'⟩⟩ |
    ⟨_, ⟨a, _, h'⟩ | h'⟩ | ⟨_, h'⟩ | ⟨_, h'⟩ | ⟨_, h'⟩ | ⟨_, h'⟩ <;> rw [h'] at h <;> cases h <;> simp

/-! ### Inputs and runs -/

theorem elapse_of_quiet {l : List Pending} (h : ∀ p ∈ l.head?, p.arrival = .whenIdle) :
    elapse l = l := by
  cases l with
  | nil => rfl
  | cons p l =>
    obtain ⟨a, i⟩ := p
    have : a = .whenIdle := h _ rfl
    subst this; rfl

theorem deliverDue_of_quiet {l : List Pending} (s : State)
    (h : ∀ p ∈ l.head?, p.arrival = .whenIdle) : deliverDue l s = { s with inbox := l } := by
  cases l with
  | nil => rfl
  | cons p l =>
    have : p.arrival = .whenIdle := h _ rfl
    simp [deliverDue, Pending.due, this]

/-- With a quiet host one engine step is one phase. -/
theorem tick_of_quiet {s : State} (hb : s.busy = true)
    (h : ∀ p ∈ s.inbox.head?, p.arrival = .whenIdle) : tick s = phaseStep s := by
  have hd : deliverDue s.inbox s = s := deliverDue_of_quiet s h
  simp only [tick, hd, hb, if_true]
  cases hp : phaseStep s with
  | next t =>
    have hk := (phaseStep_keeps hp).2.2.2.2.2.2.2.2.1
    rw [andThen_next, hk, elapse_of_quiet h, ← hk]
  | fault f => rfl
  | refused r => rfl

@[simp] theorem runBusy_zero (s : State) : runBusy 0 s = .next s := rfl

theorem runBusy_idle (n : Nat) {s : State} (h : s.busy = false) : runBusy n s = .next s := by
  cases n <;> simp [runBusy, h]

theorem runBusy_succ (n : Nat) {s : State} (h : s.busy = true) :
    runBusy (n + 1) s = andThen (tick s) (runBusy n) := by simp [runBusy, h]

theorem runBusy_add (m n : Nat) (s : State) :
    runBusy (m + n) s = andThen (runBusy m s) (runBusy n) := by
  induction m generalizing s with
  | zero => simp
  | succ m ih =>
    by_cases h : s.busy = true
    · rw [Nat.succ_add_eq_add_succ, Nat.add_succ, runBusy_succ _ h, runBusy_succ _ h, andThen_assoc]
      congr 1; funext t; exact ih t
    · have h' : s.busy = false := by simpa using h
      simp [runBusy_idle, h']

end Sys2Proof.Machine
end

