-- ==== Sys2Proof/Laws/Exec.lean ====
section
/-! SUPPORT. Running a command: everything an input, an engine step, a command and an idle step can do,
and the induction over a run, said once. -/

namespace Sys2Proof.Machine

open Sys2Proof.Safety

/-! ### Inputs that land while a command runs -/

/-- Two states the engine sees alike agree on every field it computes with. -/
theorem eq_of_engineView_eq {s t : State} (h : engineView s = engineView t) :
    s.cfg = t.cfg ∧ s.s = t.s ∧ s.w = t.w ∧ s.seen = t.seen ∧ s.mode = t.mode ∧ s.rc = t.rc ∧
    s.rn = t.rn ∧ s.blk = t.blk ∧ s.mlen = t.mlen ∧ s.busy = t.busy ∧ s.seqOp = t.seqOp ∧
    s.seqF = t.seqF ∧ s.seqPh = t.seqPh ∧ s.msg = t.msg := by
  cases s; cases t; simpa [engineView] using h

@[simp] theorem engineView_raise (e : ErrorCause) (c : Word) (s : State) :
    engineView (raise e c s) = engineView s := by
  rcases raise_cases e c s with ⟨_, h⟩ | ⟨_, h⟩ <;> simp only [h, engineView]

/-- A host access while busy changes nothing the engine computes with. -/
theorem engineView_deliverBusy {i : HostInput} (hi : i ≠ .reset) (s : State) :
    engineView (deliverBusy i s) = engineView s := by
  cases i with
  | read off n =>
    simp only [deliverBusy, readBusy]
    split
    · exact engineView_raise .badAccess (offsetInfo off) s
    · split <;> rfl
  | write off n v =>
    simp only [deliverBusy, writeBusy]
    split <;> exact engineView_raise _ _ s
  | reset => exact absurd rfl hi

/-- Everything the inputs that land before an engine step can do: nothing the engine sees, or the reset
event. -/
theorem deliverDue_cases (l : List Pending) (s : State) (hb : s.busy = true) :
    engineView (deliverDue l s) = engineView s ∨
    ∃ v l', deliverDue l s = { resetEvent v with inbox := l' } ∧ v.cfg = s.cfg ∧
      ∃ p ∈ l, p.input = .reset := by
  induction l generalizing s with
  | nil => exact .inl rfl
  | cons p l ih =>
    by_cases h : (s.busy && Pending.due p) = true
    · simp only [deliverDue, if_pos h]
      by_cases hr : p.input = .reset
      · refine .inr ⟨s, l, ?_, rfl, p, by simp, hr⟩
        rw [hr]
        cases l <;> simp [deliverDue, deliverBusy, resetEvent, State.reset]
      · have hs := engineView_deliverBusy hr s
        rcases ih (deliverBusy p.input s) ((congrArg State.busy hs).trans hb) with
          h | ⟨v, l', h1, h2, q, hq, h3⟩
        · exact .inl (h.trans hs)
        · exact .inr ⟨v, l', h1, h2.trans (eq_of_engineView_eq hs).1, q, by simp [hq], h3⟩
    · simp only [deliverDue, if_neg h]
      exact .inl rfl

/-- The inputs left after a delivery are a suffix of those before. -/
theorem deliverDue_inbox_suffix (l : List Pending) (s : State) : (deliverDue l s).inbox <:+ l := by
  induction l generalizing s with
  | nil => simp [deliverDue]
  | cons p l ih =>
    simp only [deliverDue]
    split
    · exact (ih _).trans (List.suffix_cons _ _)
    · exact List.suffix_refl _

theorem elapse_noReset {l : List Pending} (h : noReset l) : noReset (elapse l) := by
  cases l with
  | nil => exact h
  | cons p l =>
    obtain ⟨a, i⟩ := p
    cases a with
    | whenIdle => exact h
    | afterSteps k =>
      cases k with
      | zero => exact h
      | succ k =>
        intro p hp
        simp only [elapse, List.mem_cons] at hp
        rcases hp with rfl | hp
        · exact h ⟨.afterSteps (k + 1), i⟩ (by simp)
        · exact h p (by simp [hp])

/-- Everything one engine step can do: a phase on a state the engine sees as `s`, or a reset event has
left the engine idle. -/
theorem tick_cases {s : State} (hb : s.busy = true) :
    (∃ u, engineView u = engineView s ∧ u = deliverDue s.inbox s ∧
      tick s = andThen (phaseStep u) fun v => .next { v with inbox := elapse v.inbox }) ∨
    (∃ v l, v.cfg = s.cfg ∧ tick s = .next { resetEvent v with inbox := l } ∧
      ∃ p ∈ s.inbox, p.input = .reset) := by
  rcases deliverDue_cases s.inbox s hb with h | ⟨v, l, h, hv, hp⟩
  · refine .inl ⟨_, h, rfl, ?_⟩
    have : (deliverDue s.inbox s).busy = true := (congrArg State.busy h).trans hb
    simp only [tick, this, if_true]
  · exact .inr ⟨v, l, hv, by simp only [tick, h]; rfl, hp⟩

/-! ### Runs -/

/-- What every engine step of a busy engine keeps, a run keeps. -/
theorem runBusy_keeps (P : State → Prop)
    (hP : ∀ s t, P s → s.busy = true → tick s = .next t → P t) (n : Nat) {s t : State} (h : P s)
    (hr : runBusy n s = .next t) : P t := by
  induction n generalizing s with
  | zero => cases hr; exact h
  | succ n ih =>
    by_cases hb : s.busy = true
    · rw [runBusy_succ _ hb] at hr
      obtain ⟨u, hu, hr⟩ := andThen_eq_next hr
      exact ih (hP s u h hb hu) hr
    · rw [runBusy_idle _ (by simpa using hb)] at hr; cases hr; exact h

/-- What every delivery, every phase and the passing of an engine step keep, an engine step keeps. -/
theorem tick_keeps (P : State → Prop) (hi : ∀ i s, P s → P (deliverBusy i s))
    (hl : ∀ s l, P s → P { s with inbox := l }) (hp : ∀ s t, P s → phaseStep s = .next t → P t)
    {s t : State} (h : P s) (ht : tick s = .next t) : P t := by
  have hd : ∀ l s, P s → P (deliverDue l s) := by
    intro l
    induction l with
    | nil => intro s h; exact hl _ _ h
    | cons p l ih =>
      intro s h
      simp only [deliverDue]
      split
      · exact ih _ (hi _ _ h)
      · exact hl _ _ h
  have hd := hd s.inbox s h
  simp only [tick] at ht
  split at ht
  · obtain ⟨u, hu, h'⟩ := andThen_eq_next ht
    cases h'; exact hl _ _ (hp _ _ hd hu)
  · cases ht; exact hd

/-- A command of one phase with a quiet host performs that phase. -/
theorem runCommand_one (i : Instr) (ph : Phase) {s : State} (hq : quiet s) :
    runCommand i ph 1 s = phaseStep (accept i ph s) := by
  have h0 : ∀ o : Result, andThen o (runBusy 0) = o := by intro o; cases o <;> rfl
  unfold runCommand
  rw [runBusy_succ _ (accept_busy i ph s), h0]
  exact tick_of_quiet (s := accept i ph s) (accept_busy i ph s) hq

/-! ### Commands -/

/-- What `COMPRESS` does at its acceptance before its first phase; no other command does anything. -/
def acceptedState : Instr → State → State
  | .compress, s => { s with rn := 0 }
  | .nop, s | .clrerr, s | .init _, s | .sched, s | .load, s | .tdiff, s | .round, s | .fround, s => s
  | .chain, s | .hash _, s => s

theorem lengthCheck_eq_some {s : State} {e : ErrorCause} (h : lengthCheck s = some e) :
    e = .lenRange ∧ ¬ lengthFits s := by
  unfold lengthCheck at h; split at h <;> simp_all

theorem lengthCheck_eq_none {s : State} : lengthCheck s = none ↔ lengthFits s := by
  unfold lengthCheck lengthFits; split <;> simp <;> omega

theorem loadCheck_eq_some {s : State} {e : ErrorCause} (h : loadCheck s = some e) :
    (e = .lenRange ∧ ¬ lengthFits s) ∨ (e = .blkRange ∧ lengthFits s ∧ ¬ blockExists s) := by
  unfold loadCheck at h
  split at h
  next e' h' => cases h; exact .inl (lengthCheck_eq_some h')
  next h' =>
    split at h
    · cases h; exact .inr ⟨rfl, lengthCheck_eq_none.1 h', by unfold blockExists; omega⟩
    · cases h

theorem loadCheck_eq_none {s : State} : loadCheck s = none ↔ lengthFits s ∧ blockExists s := by
  unfold loadCheck
  cases h : lengthCheck s with
  | some e => simp [(lengthCheck_eq_some h).2]
  | none => simp [lengthCheck_eq_none.1 h]

theorem froundCheck_eq_some {s : State} {e : ErrorCause} (h : froundCheck s = some e) :
    e = .badRound ∧ 8 ≤ s.rn.toNat := by
  unfold froundCheck Config.roundsFast at h; split at h <;> simp_all

theorem froundCheck_eq_none {s : State} : froundCheck s = none ↔ s.rn.toNat < 8 := by
  unfold froundCheck Config.roundsFast; split <;> simp <;> omega

/-- Everything a command can do (spec/46_sequencer.md R191): be dropped on a busy engine, be ignored
after an error, fail its operand check, complete at once (`NOP`, `CLRERR`), or run. -/
theorem exec_cases (i : Instr) (s : State) :
    (s.busy = true ∧ exec i s = .next (raise .busyAccess 0 s)) ∨
    (s.busy = false ∧ s.err = true ∧ i ≠ .clrerr ∧ exec i s = .next s) ∨
    (s.busy = false ∧ s.err = false ∧ ¬ operandsLegal i s ∧ ∃ e,
      (e = .lenRange ∨ (e = .blkRange ∧ i = .load) ∨ (e = .badRound ∧ i = .fround)) ∧
      exec i s = .next (raise e (encode i) s)) ∨
    (s.busy = false ∧ i = .nop ∧ exec i s = .next s) ∨
    (s.busy = false ∧ i = .clrerr ∧ exec i s = .next (clearError s)) ∨
    (s.busy = false ∧ s.err = false ∧ operandsLegal i s ∧ i ≠ .nop ∧ i ≠ .clrerr ∧
      ∃ n ph, exec i s = runBusy n (accept i ph (acceptedState i s))) := by
  have key : ∀ (j : Instr) (check : Option ErrorCause) (n : Nat) (ph : Phase) (s0 : State),
      j ≠ .nop → j ≠ .clrerr → s0 = acceptedState j s →
      (∀ e, check = some e → ¬ operandsLegal j s ∧
        (e = .lenRange ∨ (e = .blkRange ∧ j = .load) ∨ (e = .badRound ∧ j = .fround))) →
      (check = none → operandsLegal j s) →
      exec j s = issue j check (fun _ => runBusy n (accept j ph s0)) s →
      (s.busy = true ∧ exec j s = .next (raise .busyAccess 0 s)) ∨
      (s.busy = false ∧ s.err = true ∧ j ≠ .clrerr ∧ exec j s = .next s) ∨
      (s.busy = false ∧ s.err = false ∧ ¬ operandsLegal j s ∧ ∃ e,
        (e = .lenRange ∨ (e = .blkRange ∧ j = .load) ∨ (e = .badRound ∧ j = .fround)) ∧
        exec j s = .next (raise e (encode j) s)) ∨
      (s.busy = false ∧ j = .nop ∧ exec j s = .next s) ∨
      (s.busy = false ∧ j = .clrerr ∧ exec j s = .next (clearError s)) ∨
      (s.busy = false ∧ s.err = false ∧ operandsLegal j s ∧ j ≠ .nop ∧ j ≠ .clrerr ∧
        ∃ n ph, exec j s = runBusy n (accept j ph (acceptedState j s))) := by
    intro j check n ph s0 h1 h2 h3 hc hl hx
    rw [hx]
    rcases issue_cases j check (fun _ => runBusy n (accept j ph s0)) s with h | ⟨a, b, c, h⟩ |
      ⟨a, b, e, he, h⟩ | ⟨a, b, hn, h⟩
    · exact .inl h
    · exact .inr (.inl ⟨a, b, c, h⟩)
    · exact .inr (.inr (.inl ⟨a, b.resolve_right h2, (hc e he).1, e, (hc e he).2, h⟩))
    · exact .inr (.inr (.inr (.inr (.inr
        ⟨a, b.resolve_right h2, hl hn, h1, h2, n, ph, by rw [h, h3]⟩))))
  have free : ∀ j : Instr, j = .tdiff ∨ j = .round ∨ j = .chain ∨ j = .compress ∨
      j = .init .standard ∨ j = .init .fast → operandsLegal j s := by
    rintro j (rfl | rfl | rfl | rfl | rfl | rfl) <;> simp [operandsLegal]
  cases i with
  | nop =>
    rcases issue_cases .nop none (fun s => .next s) s with h | ⟨a, b, c, h⟩ | ⟨_, _, e, he, _⟩ |
      ⟨a, _, _, h⟩
    · exact .inl h
    · exact .inr (.inl ⟨a, b, c, h⟩)
    · cases he
    · exact .inr (.inr (.inr (.inl ⟨a, rfl, h⟩)))
  | clrerr =>
    rcases issue_cases .clrerr none (fun s => .next (clearError s)) s with h | ⟨_, _, c, _⟩ |
      ⟨_, _, e, he, _⟩ | ⟨a, _, _, h⟩
    · exact .inl h
    · exact absurd rfl c
    · cases he
    · exact .inr (.inr (.inr (.inr (.inl ⟨a, rfl, h⟩))))
  | init f =>
    exact key _ none 1 .pInit s (by simp) (by simp) rfl (by simp)
      (fun _ => free _ (by cases f <;> simp)) rfl
  | sched =>
    exact key _ (lengthCheck s) 1 .pSched s (by simp) (by simp) rfl
      (fun e h => ⟨fun h' => (lengthCheck_eq_some h).2 (h'.1 (by simp)),
        .inl (lengthCheck_eq_some h).1⟩)
      (fun h => ⟨fun _ => lengthCheck_eq_none.1 h, by simp, by simp⟩) rfl
  | load =>
    refine key _ (loadCheck s) 1 .pLoad s (by simp) (by simp) rfl (fun e h => ?_)
      (fun h => ⟨fun _ => (loadCheck_eq_none.1 h).1, fun _ => (loadCheck_eq_none.1 h).2, by simp⟩) rfl
    rcases loadCheck_eq_some h with ⟨h1, h2⟩ | ⟨h1, _, h2⟩
    · exact ⟨fun h' => h2 (h'.1 (by simp)), .inl h1⟩
    · exact ⟨fun h' => h2 (h'.2.1 rfl), .inr (.inl ⟨h1, rfl⟩)⟩
  | tdiff => exact key _ none 1 .pTdiff s (by simp) (by simp) rfl (by simp) (fun _ => free _ (by simp)) rfl
  | round => exact key _ none 1 .pRound s (by simp) (by simp) rfl (by simp) (fun _ => free _ (by simp)) rfl
  | fround =>
    refine key _ (froundCheck s) 1 .pFround s (by simp) (by simp) rfl (fun e h => ?_)
      (fun h => ⟨by simp, by simp, fun _ => froundCheck_eq_none.1 h⟩) rfl
    obtain ⟨h1, h2⟩ := froundCheck_eq_some h
    exact ⟨fun h' => by have := h'.2.2 rfl; omega, .inr (.inr ⟨h1, rfl⟩)⟩
  | chain => exact key _ none 1 .pChain s (by simp) (by simp) rfl (by simp) (fun _ => free _ (by simp)) rfl
  | compress =>
    exact key _ none (compressSteps s) (compressPhase s) { s with rn := 0 } (by simp) (by simp) rfl
      (by simp) (fun _ => free _ (by simp)) rfl
  | hash f =>
    exact key _ (lengthCheck s) (hashStepBound s) .pInit s (by simp) (by simp) rfl
      (fun e h => ⟨fun h' => (lengthCheck_eq_some h).2 (h'.1 (by cases f <;> simp)),
        .inl (lengthCheck_eq_some h).1⟩)
      (fun h => ⟨fun _ => lengthCheck_eq_none.1 h, by simp, by simp⟩) rfl

/-! ### Inputs that land while idle -/

/-- Everything a command word can do on an idle engine: a command, or it is ignored or recorded. -/
theorem stepCommand_cases (c : Word) {s : State} (hb : s.busy = false) :
    (∃ i, decode c = .ok i ∧ stepCommand c s = exec i s) ∨
    ((∃ r, decode c = .error r) ∧
      (stepCommand c s = .next s ∨ stepCommand c s = .next (raise .illegalCmd c s))) := by
  unfold stepCommand
  cases h : decode c with
  | ok i => exact .inl ⟨i, rfl, rfl⟩
  | error r =>
    refine .inr ⟨⟨r, rfl⟩, ?_⟩
    simp only [rejectCommand, hb]
    cases s.err <;> simp

/-- What a register write leaves alone. -/
theorem regWrite_keeps (r : Reg) (v : Word) (s : State) :
    (regWrite r v s).cfg = s.cfg ∧ (regWrite r v s).busy = s.busy ∧ (regWrite r v s).err = s.err ∧
    (regWrite r v s).ecode = s.ecode ∧ (regWrite r v s).einfo = s.einfo ∧
    (regWrite r v s).seqPh = s.seqPh ∧ (regWrite r v s).seqOp = s.seqOp ∧
    (regWrite r v s).seqF = s.seqF ∧ (regWrite r v s).msg = s.msg ∧
    (regWrite r v s).inbox = s.inbox ∧ (regWrite r v s).replies = s.replies ∧
    (regWrite r v s).freeIx = s.freeIx := by
  cases r <;> simp [regWrite]

/-- A message byte or word the port touches lies inside the buffer. -/
theorem accessTarget_window {cap off n : Nat} {t : Target} (h : accessTarget cap off n = some t) :
    (∀ a, t = .msgByte a → a < cap) ∧ (∀ a, t = .msgWord a → a + 3 < cap) := by
  unfold accessTarget at h
  split at h
  · split at h
    · cases hr : regAt off <;> rw [hr] at h <;> cases h; simp
    · split at h
      · cases hr : regAt (off / 4 * 4) <;> rw [hr] at h <;> cases h; simp
      · cases h
  · simp only [] at h
    split at h
    next hc => rw [← Option.some.inj h]; simpa using hc.2
    next =>
      split at h
      next hc => rw [← Option.some.inj h]; simpa using hc.2.2
      next => cases h

/-- Everything an access other than a command can do to an idle engine, as far as the parameters, the
sequencer, the error record and the buffer go. -/
theorem deliverIdle_cases {i : HostInput} {s t : State} (h : deliverIdle i s = .next t) :
    t = resetEvent s ∨
    (t.cfg = s.cfg ∧ t.busy = s.busy ∧ t.seqPh = s.seqPh ∧
      ((t.err = s.err ∧ t.ecode = s.ecode ∧ t.einfo = s.einfo) ∨
       ∃ c, t.err = (raise .badAccess c s).err ∧ t.ecode = (raise .badAccess c s).ecode ∧
        t.einfo = (raise .badAccess c s).einfo) ∧
      (t.msg = s.msg ∨ (∃ a v, a < s.cfg.msgCap ∧ t.msg = msgWrite s.msg a v) ∨
       ∃ a v, a + 3 < s.cfg.msgCap ∧ t.msg = msgWriteWord s.msg a v)) := by
  have hbad : ∀ c, (raise .badAccess c s).cfg = s.cfg ∧ (raise .badAccess c s).busy = s.busy ∧
      (raise .badAccess c s).seqPh = s.seqPh ∧ (raise .badAccess c s).msg = s.msg := by
    intro c
    simp
  cases i with
  | reset => simp only [deliverIdle] at h; cases h; exact .inl rfl
  | read off n =>
    right
    simp only [deliverIdle, readIdle] at h
    split at h
    · cases h
      have := hbad (offsetInfo off)
      exact ⟨this.1, this.2.1, this.2.2.1, .inr ⟨_, rfl, rfl, rfl⟩, .inl this.2.2.2⟩
    · split at h
      · cases h; exact ⟨rfl, rfl, rfl, .inl ⟨rfl, rfl, rfl⟩, .inl rfl⟩
      · cases h
  | write off n v =>
    right
    simp only [deliverIdle, writeIdle] at h
    cases h
    split
    · have := hbad (offsetInfo off)
      exact ⟨this.1, this.2.1, this.2.2.1, .inr ⟨_, rfl, rfl, rfl⟩, .inl this.2.2.2⟩
    next tg htg =>
      have hw := accessTarget_window (Option.filter_eq_some_iff.1 htg).1
      cases tg with
      | reg r =>
        obtain ⟨h1, h2, h3, h4, h5, h6, _, _, h7, _⟩ := regWrite_keeps r v s
        exact ⟨h1, h2, h6, .inl ⟨h3, h4, h5⟩, .inl h7⟩
      | regByte r k => exact ⟨rfl, rfl, rfl, .inl ⟨rfl, rfl, rfl⟩, .inl rfl⟩
      | msgByte a => exact ⟨rfl, rfl, rfl, .inl ⟨rfl, rfl, rfl⟩, .inr (.inl ⟨a, _, hw.1 a rfl, rfl⟩)⟩
      | msgWord a => exact ⟨rfl, rfl, rfl, .inl ⟨rfl, rfl, rfl⟩, .inr (.inr ⟨a, _, hw.2 a rfl, rfl⟩)⟩

/-- What every part of an idle step keeps, an idle step keeps. -/
theorem idleStep_keeps (P : State → Prop) (hl : ∀ s l, P s → P { s with inbox := l })
    (hr : ∀ e c s, P s → P (raise e c s)) (hx : ∀ i s t, P s → exec i s = .next t → P t)
    (hd : ∀ i s t, P s → deliverIdle i s = .next t → P t) {s t : State} (hb : s.busy = false)
    (h : P s) (ht : idleStep s = .next t) : P t := by
  rcases idleStep_cases s with ⟨_, h'⟩ | ⟨a, rest, c, _, h'⟩ | ⟨a, i, rest, _, _, h'⟩ <;> rw [h'] at ht
  · cases ht; exact h
  · rcases stepCommand_cases c (s := { s with inbox := rest }) hb with ⟨i, _, h'⟩ | ⟨_, h' | h'⟩ <;>
      rw [h'] at ht
    · exact hx _ _ _ (hl _ _ h) ht
    · cases ht; exact hl _ _ h
    · cases ht; exact hr _ _ _ (hl _ _ h)
  · exact hd _ _ _ (hl _ _ h) ht

/-! ### Steps of the machine and engine steps -/

theorem step_of_busy {s : State} (h : s.busy = true) : step s = tick s := by simp [step, h]

theorem step_of_idle {s : State} (h : s.busy = false) : step s = idleStep s := by simp [step, h]

/-- While a run stays busy, the steps of the machine are its engine steps. -/
theorem runSteps_eq_runBusy {n : Nat} {s : State}
    (h : ∀ k, k < n → ∃ t, runBusy k s = .next t ∧ t.busy = true) : runSteps n s = runBusy n s := by
  induction n generalizing s with
  | zero => rfl
  | succ n ih =>
    obtain ⟨_, h0, hb⟩ := h 0 (Nat.succ_pos n)
    cases h0
    rw [runBusy_succ n hb, ← step_of_busy hb]
    cases hs : step s with
    | fault f => simp [runSteps, hs]
    | refused r => simp [runSteps, hs]
    | next t =>
      simp only [runSteps, hs, andThen_next]
      refine ih fun k hk => ?_
      obtain ⟨u, h1, h2⟩ := h (k + 1) (Nat.succ_lt_succ hk)
      rw [runBusy_succ k hb, ← step_of_busy hb, hs] at h1
      exact ⟨u, h1, h2⟩

end Sys2Proof.Machine
end

