-- ==== Sys2Proof/Laws/Memory.lean ====
section
/-! SUPPORT. The message buffer: what a write does to every byte, and that every operation keeps the
canonical form. -/

namespace Sys2Proof.Machine

/-- What a byte write does to every byte. -/
theorem msgRead_msgWrite (m : List Host.Cell) (a b : Nat) (v : Byte) :
    msgRead (msgWrite m a v) b = if b = a then some v else msgRead m b := by
  induction m with
  | nil => by_cases h : a = b <;> simp [msgWrite, msgRead, h, eq_comm]
  | cons c m ih =>
    obtain ⟨x, y⟩ := c
    simp only [msgWrite]
    split
    · simp only [msgRead]; grind
    · split
      · simp only [msgRead]; grind
      · simp only [msgRead, ih]; grind

theorem wf_cons_iff (c : Host.Cell) (m : List Host.Cell) :
    Memory.wf (c :: m) = true ↔ (∀ d ∈ m.head?, c.1 < d.1) ∧ Memory.wf m = true := by
  cases m with
  | nil => simp [Memory.wf]
  | cons d m => obtain ⟨a, _⟩ := c; obtain ⟨b, _⟩ := d; simp [Memory.wf]

theorem head_msgWrite (m : List Host.Cell) (a : Nat) (v : Byte) :
    ∀ d ∈ (msgWrite m a v).head?, d.1 = a ∨ ∃ e ∈ m.head?, d.1 = e.1 := by
  cases m with
  | nil => simp [msgWrite]
  | cons c m =>
    obtain ⟨x, y⟩ := c
    simp only [msgWrite]
    split
    · simp
    · split <;> simp

/-- A write keeps the canonical form. -/
theorem wf_msgWrite (m : List Host.Cell) (a : Nat) (v : Byte) (h : Memory.wf m = true) :
    Memory.wf (msgWrite m a v) = true := by
  induction m with
  | nil => rfl
  | cons c m ih =>
    obtain ⟨x, y⟩ := c
    have hc := (wf_cons_iff _ _).1 h
    simp only [msgWrite]
    split
    next hlt => exact (wf_cons_iff _ _).2 ⟨by simpa using hlt, h⟩
    next hlt =>
      split
      next heq => exact (wf_cons_iff _ _).2 ⟨by simpa [heq] using hc.1, hc.2⟩
      next hne =>
        refine (wf_cons_iff _ _).2 ⟨fun d hd => ?_, ih hc.2⟩
        rcases head_msgWrite m a v d hd with h' | ⟨e, he, h'⟩
        · show x < d.1; omega
        · have := hc.1 e he; show x < d.1; simp_all

/-- Where the entries of a written buffer come from. -/
theorem mem_msgWrite {m : List Host.Cell} {a : Nat} {v : Byte} {c : Host.Cell}
    (h : c ∈ msgWrite m a v) : c.1 = a ∨ c ∈ m := by
  induction m with
  | nil => simp_all [msgWrite]
  | cons d m ih =>
    obtain ⟨x, y⟩ := d
    simp only [msgWrite] at h
    split at h
    · simp at h; rcases h with h | h <;> simp_all
    · split at h
      · simp at h; rcases h with h | h <;> simp_all
      · simp at h; rcases h with h | h
        · simp [h]
        · rcases ih h with h | h <;> simp [h]

/-- A 4-byte write keeps the canonical form. -/
theorem wf_msgWriteWord (m : List Host.Cell) (a : Nat) (v : Word) (h : Memory.wf m = true) :
    Memory.wf (msgWriteWord m a v) = true := by
  simp only [msgWriteWord]; repeat apply wf_msgWrite
  exact h

theorem mem_msgWriteWord {m : List Host.Cell} {a : Nat} {v : Word} {c : Host.Cell}
    (h : c ∈ msgWriteWord m a v) : (a ≤ c.1 ∧ c.1 < a + 4) ∨ c ∈ m := by
  simp only [msgWriteWord] at h
  rcases mem_msgWrite h with h | h
  · omega
  rcases mem_msgWrite h with h | h
  · omega
  rcases mem_msgWrite h with h | h
  · omega
  rcases mem_msgWrite h with h | h
  · omega
  · exact .inr h

/-- What a 4-byte write does to every byte. -/
theorem msgRead_msgWriteWord (m : List Host.Cell) (a b : Nat) (v : Word) :
    msgRead (msgWriteWord m a v) b =
      if a ≤ b ∧ b < a + 4 then some (byteOf v (b - a)) else msgRead m b := by
  simp only [msgWriteWord, msgRead_msgWrite]
  by_cases h0 : b = a
  · subst h0; simp
  by_cases h1 : b = a + 1
  · subst h1; simp
  by_cases h2 : b = a + 2
  · subst h2; simp
  by_cases h3 : b = a + 3
  · subst h3; simp
  have : ¬ (a ≤ b ∧ b < a + 4) := by omega
  simp [h0, h1, h2, h3, this]

/-- `firstUnwritten` finds nothing exactly when the whole range is written. -/
theorem firstUnwritten_eq_none_iff (m : List Host.Cell) (n a : Nat) :
    firstUnwritten m n a = none ↔ ∀ b, a ≤ b → b < a + n → (msgRead m b).isSome = true := by
  induction n generalizing a with
  | zero => simp [firstUnwritten]; omega
  | succ n ih =>
    simp only [firstUnwritten]
    cases h : msgRead m a with
    | none => simp only [reduceCtorEq, false_iff]; intro hh; simpa [h] using hh a (le_refl _) (by omega)
    | some v =>
      simp only [ih]
      constructor
      · intro hh b h1 h2
        by_cases hb : b = a
        · simp [hb, h]
        · exact hh b (by omega) (by omega)
      · intro hh b h1 h2; exact hh b (by omega) (by omega)

/-- `firstUnwritten` finds the lowest unwritten address of the range. -/
theorem firstUnwritten_eq_some_iff (m : List Host.Cell) (n a x : Nat) :
    firstUnwritten m n a = some x ↔ a ≤ x ∧ x < a + n ∧ msgRead m x = none ∧
      ∀ b, a ≤ b → b < x → (msgRead m b).isSome = true := by
  induction n generalizing a with
  | zero => simp [firstUnwritten]; omega
  | succ n ih =>
    simp only [firstUnwritten]
    cases h : msgRead m a with
    | none =>
      simp only [Option.some.injEq]
      constructor
      · rintro rfl; exact ⟨le_refl _, by omega, h, fun b h1 h2 => by omega⟩
      · rintro ⟨h1, h2, h3, h4⟩
        by_contra hne
        simpa [h] using h4 a (le_refl _) (by omega)
    | some v =>
      simp only [ih]
      constructor
      · rintro ⟨h1, h2, h3, h4⟩
        refine ⟨by omega, by omega, h3, fun b hb1 hb2 => ?_⟩
        by_cases hb : b = a
        · simp [hb, h]
        · exact h4 b (by omega) hb2
      · rintro ⟨h1, h2, h3, h4⟩
        have : x ≠ a := by rintro rfl; simp [h] at h3
        exact ⟨by omega, by omega, h3, fun b hb1 hb2 => h4 b (by omega) hb2⟩

theorem msgRead_nil (a : Nat) : msgRead [] a = none := rfl

/-- The buffer after reset has the canonical form. -/
theorem wf_reset : Memory.wf State.reset.msg = true := rfl

end Sys2Proof.Machine
end

