-- ==== Sys2Proof/Laws/Operands.lean ====
section
/-! SUPPORT. Lanes and block words: what building and replacing them does to every index. -/

namespace Sys2Proof.Machine

@[simp] theorem lane_lanes (f : Nat → Word) {i : Nat} (h : i < 8) : lane (lanes f) i = f i := by
  interval_cases i <;> rfl

@[simp] theorem blockWord_words16 (f : Nat → Word) {i : Nat} (h : i < 16) :
    blockWord (words16 f) i = f i := by
  interval_cases i <;> rfl

theorem lane_mod (v : Words8) (k : Nat) : lane v (k % 8) = lane v k := by simp [lane]
theorem blockWord_mod (v : Words16) (k : Nat) : blockWord v (k % 16) = blockWord v k := by
  simp [blockWord]

theorem lane_setLane (v : Words8) (k j : Nat) (x : Word) :
    lane (setLane v k x) j = if j % 8 = k % 8 then x else lane v j := by
  simp only [lane, setLane, Vector.getElem_set, eq_comm]

theorem blockWord_setBlockWord (v : Words16) (k j : Nat) (x : Word) :
    blockWord (setBlockWord v k x) j = if j % 16 = k % 16 then x else blockWord v j := by
  simp only [blockWord, setBlockWord, Vector.getElem_set, eq_comm]

theorem words8_ext {v w : Words8} (h : ∀ i, i < 8 → lane v i = lane w i) : v = w := by
  apply Vector.ext
  intro i hi
  have := h i hi
  simpa [lane, Nat.mod_eq_of_lt hi] using this

theorem words16_ext {v w : Words16} (h : ∀ i, i < 16 → blockWord v i = blockWord w i) : v = w := by
  apply Vector.ext
  intro i hi
  have := h i hi
  simpa [blockWord, Nat.mod_eq_of_lt hi] using this

end Sys2Proof.Machine
end

