-- ==== Sys2Proof/Laws/PerInstr.lean ====
section
/-! SUPPORT. Statements made for every command, one lemma per constructor: the words of a command and
its row of the opcode table (spec/30_encoding.md R91, R92). -/

namespace Sys2Proof.Laws

/-- The word of a command is legal, decodes to it, carries its opcode and its `F`, and is selected by
the rows of Table R91 that bear its mnemonic and by no other row. -/
def TableRow.Statement (i : Instr) : Prop :=
  legalWord (encode i) = true ∧ decode (encode i) = .ok i ∧
  opcField (encode i) = i.opcode ∧ fField (encode i) = i.modeOperand ∧
  i.mnemonic ∈ opcodeTable.map OpcodeRow.mnemonic ∧
  ∀ row ∈ opcodeTable, row.selects (encode i) = (row.mnemonic == i.mnemonic)

theorem TableRow.nop : TableRow.Statement .nop := by unfold TableRow.Statement; decide
theorem TableRow.clrerr : TableRow.Statement .clrerr := by unfold TableRow.Statement; decide
theorem TableRow.init : ∀ f, TableRow.Statement (.init f) := by
  intro f; cases f <;> unfold TableRow.Statement <;> decide
theorem TableRow.sched : TableRow.Statement .sched := by unfold TableRow.Statement; decide
theorem TableRow.load : TableRow.Statement .load := by unfold TableRow.Statement; decide
theorem TableRow.tdiff : TableRow.Statement .tdiff := by unfold TableRow.Statement; decide
theorem TableRow.round : TableRow.Statement .round := by unfold TableRow.Statement; decide
theorem TableRow.fround : TableRow.Statement .fround := by unfold TableRow.Statement; decide
theorem TableRow.chain : TableRow.Statement .chain := by unfold TableRow.Statement; decide
theorem TableRow.compress : TableRow.Statement .compress := by unfold TableRow.Statement; decide
theorem TableRow.hash : ∀ f, TableRow.Statement (.hash f) := by
  intro f; cases f <;> unfold TableRow.Statement <;> decide

end Sys2Proof.Laws
end

