-- ==== Sys2Proof/Laws/Script.lean ====
section
/-! SUPPORT. Host scripts: when `WAIT` ends, and what it reads. -/

namespace Sys2Proof.Machine

/-- `WAIT` ends exactly when some poll reads bit 0 equal to 0. -/
theorem waitReads_ends_iff (l : List Word) :
    (∃ v ∈ waitReads l, pollAgain v = false) ↔ ∃ v ∈ l, pollAgain v = false := by
  induction l with
  | nil => simp [waitReads]
  | cons x l ih =>
    cases hx : pollAgain x with
    | true => simp [waitReads, hx, ih]
    | false => simp [waitReads, hx]

/-- `WAIT` reads a first part of the values. -/
theorem waitReads_prefix (l : List Word) : waitReads l <+: l := by
  induction l with
  | nil => exact List.nil_prefix
  | cons x l ih =>
    cases hx : pollAgain x with
    | true => simpa [waitReads, hx] using ih
    | false => simp [waitReads, hx]

end Sys2Proof.Machine
end

