-- ==== Sys2Proof/Tests/Slice0.lean ====
section
/-! SUPPORT. Tests of the model against the vectors of spec/95_test_vectors.md under its parameter set
T1, the refusals of ill-formed words, and for each statement with hypotheses a state that meets them. -/

namespace Sys2Proof.Tests

-- One kernel evaluation at a time: run together, they hold a thread each.
set_option Elab.async false

open Sys2Proof.Machine Sys2Proof.Safety

/-! ### Helpers -/

/-- The parameter set T1 (spec/95_test_vectors.md, section 2). -/
def T1 : Config.Params where
  prime := #v[0x1234567D, 0x345678BF, 0x56789B07, 0x789ABCF5, 0x9ABCDF07, 0xBCDEF01D, 0xDEF01259,
    0xF0123457]
  initialState := #v[0x01234567, 0x89ABCDEF, 0xFEDCBA98, 0x76543210, 0x0F1E2D3C, 0x4B5A6978,
    0x8796A5B4, 0xC3D2E1F0]
  rotationsHigh := #v[4, 11, 16, 23, 6, 10, 15, 21]
  capWordsPred := 1023

/-- The engine under T1 right after reset. -/
def engine : State := { State.reset with cfg := T1 }

/-- The test block `Wt` of section 2. -/
def wt : Words16 := words16 fun k => BitVec.ofNat 32 (0x11111111 * (k + 1))

/-- The start of the rows of sections 4 and 5. -/
def primed : State := { engine with s := T1.initialState, w := wt }

/-- The message "abc" in the buffer. -/
def abc : List Byte := [0x61, 0x62, 0x63]

/-- The engine with "abc" in the buffer. -/
def holding : State := { engine with msg := [(0, 0x61), (1, 0x62), (2, 0x63)], mlen := 3 }

/-- The engine with a message of 64 bytes whose byte 63 nothing has written. -/
def holed : State :=
  { engine with msg := (List.range 63).map fun a => (a, 0x61), mlen := 64 }

/-- The state as a list of words, none where the machine stopped. -/
def wordsS : Result → List Word
  | .next t => t.s.toList
  | .fault _ | .refused _ => []

/-- One number read from a next state. -/
def probe (f : State → Nat) : Result → Option Nat
  | .next t => some (f t)
  | .fault _ | .refused _ => none

/-- The engine with one input, and an engine busy in a phase with one input. -/
def given (i : HostInput) : State := { engine with inbox := [⟨.afterSteps 0, i⟩] }

/-- A busy engine in a phase of `HASH`. -/
def busyIn (ph : Phase) : State := { engine with busy := true, seqOp := 0x18, seqPh := ph }

/-! ### Words that are no command: each check of R93 refuses one (section 6.2) -/

theorem test_reserved_bits_refused : reservedClear 0x00000218 = false ∧
    legalWord 0x00000218 = false ∧ decode 0x00000218 = .error .reservedBits := ⟨rfl, rfl, rfl⟩

theorem test_unassigned_opcode_refused : opcodeLegal 0x00000019 = false ∧
    legalWord 0x00000019 = false ∧ decode 0x00000019 = .error .unassignedOpcode := ⟨rfl, rfl, rfl⟩

theorem test_mode_operand_refused : modeOperandLegal 0x00000111 = false ∧
    legalWord 0x00000111 = false ∧ decode 0x00000111 = .error .modeOperand := ⟨rfl, rfl, rfl⟩

/-- Every opcode between the assigned ranges is refused. -/
theorem test_opcode_0F_refused : decodeTableWord 32 0x0F = none := rfl

/-! ### Every command's decoding: RSV, F and OPC written out from Table R90 and Table R91 -/

theorem test_decode_nop : decode 0b00000000000000000000000000000000#32 = .ok .nop := rfl
theorem test_decode_clrerr : decode 0b00000000000000000000000000000001#32 = .ok .clrerr := rfl
theorem test_decode_init_standard :
    decode 0b00000000000000000000000000010000#32 = .ok (.init .standard) := rfl
theorem test_decode_init_fast :
    decode 0b00000000000000000000000100010000#32 = .ok (.init .fast) := rfl
theorem test_decode_sched : decode 0b00000000000000000000000000010001#32 = .ok .sched := rfl
theorem test_decode_load : decode 0b00000000000000000000000000010010#32 = .ok .load := rfl
theorem test_decode_tdiff : decode 0b00000000000000000000000000010011#32 = .ok .tdiff := rfl
theorem test_decode_round : decode 0b00000000000000000000000000010100#32 = .ok .round := rfl
theorem test_decode_fround : decode 0b00000000000000000000000000010101#32 = .ok .fround := rfl
theorem test_decode_chain : decode 0b00000000000000000000000000010110#32 = .ok .chain := rfl
theorem test_decode_compress : decode 0b00000000000000000000000000010111#32 = .ok .compress := rfl
theorem test_decode_hash_standard :
    decode 0b00000000000000000000000000011000#32 = .ok (.hash .standard) := rfl
theorem test_decode_hash_fast :
    decode 0b00000000000000000000000100011000#32 = .ok (.hash .fast) := rfl

/-! ### One step of each command (sections 3 to 7) -/

theorem test_nop_leaves_all : exec .nop primed = .next primed := rfl

theorem test_clrerr_clears : exec .clrerr { engine with err := true, ecode := 6, einfo := 0x15 } =
    .next engine := rfl

theorem test_init_fast : wordsS (exec (.init .fast) engine) = T1.initialState.toList ∧
    probe (fun t => (statusWord t).toNat) (exec (.init .fast) engine) = some 0x4 := by decide +kernel

theorem test_sched_abc :
    probe (fun t => t.rc.toNat) (exec .sched holding) = some 20 ∧
    probe (fun t => (seenWord t.seen 3).toNat) (exec .sched holding) = some 0x0000000E := by
  decide +kernel

theorem test_load_abc :
    probe (fun t => (blockWord t.w 0).toNat) (exec .load holding) = some 0x80636261 ∧
    probe (fun t => (blockWord t.w 15).toNat) (exec .load holding) = some 0x18000000 := by
  decide +kernel

theorem test_tdiff_empty_block :
    wordsS (exec .tdiff { primed with w := setBlockWord (words16 fun _ => 0) 0 0x80 }) =
      [0x51C556BF, 0x838655C1, 0x811FBD4A, 0x4879C571, 0x6C0E855E, 0x5F4358FB, 0xF1110D79,
       0xD03852C0] := by decide +kernel

theorem test_tdiff_two_pass :
    wordsS (exec .tdiff { primed with
        cfg := { T1 with tdiffReading := .twoPass }
        w := setBlockWord (words16 fun _ => 0) 0 0x80 }) =
      [0x5CD97981, 0x3B3CED7B, 0xAF00B177, 0x4879C571, 0x6C0E855E, 0x5F4358FB, 0xF1110D79,
       0xD03852C0] := by decide +kernel

theorem test_round_17 : wordsS (exec .round { primed with rn := 17 }) =
    [0x5FCF20C7, 0x88E5ADC2, 0x4981B4C2, 0x041A4048, 0xC3ECBFB5, 0x11121E56, 0x102DEF87,
     0x1FF1ED23] := by decide +kernel

theorem test_round_63_wraps :
    wordsS (exec .round { primed with rn := 63 }) =
      [0x008EB744, 0x506FEAF7, 0xF4866111, 0x22870C1F, 0xA386143B, 0x8DA1D3B8, 0x05261683,
       0x10060CB8] ∧
    probe (fun t => t.rn.toNat) (exec .round { primed with rn := 63 }) = some 0 := by decide +kernel

theorem test_fround_7 : wordsS (exec .fround { primed with rn := 7 }) =
    [0xD0E37F56, 0xAB221A6E, 0xD677653F, 0x7E305C5A, 0xEBE6F01F, 0xDB55A1F3, 0x61F00958,
     0x496A7699] := by decide +kernel

theorem test_fround_in_place :
    wordsS (exec .fround { primed with cfg := { T1 with fastLaneOrder := .inPlace } }) =
      [0xDA7FFF49, 0x120CA509, 0xF20C2FF8, 0x4DBD7F84, 0x8ED78E7D, 0x05093419, 0xC79D0BB2,
       0xC2497D0E] := by decide +kernel

theorem test_chain_wraps :
    wordsS (exec .chain { primed with blk := 0xFFFFFFFFFFFFFFFF, rn := 5 }) =
      [0x02468ACE, 0x13579BDE, 0xFDB97530, 0xECA86420, 0x1E3C5A78, 0x96B4D2F0, 0x0F2D4B68,
       0x87A5C3E0] ∧
    probe (fun t => t.blk.toNat + t.rn.toNat)
      (exec .chain { primed with blk := 0xFFFFFFFFFFFFFFFF, rn := 5 }) = some 0 := by decide +kernel

theorem test_compress_fast : wordsS (exec .compress { primed with mode := .fast }) =
    [0x2CF83E7E, 0x4F176FC3, 0x5E6641EC, 0x97D65944, 0x2668BA56, 0xF0FD7F74, 0x1EAA9F42,
     0x0E5DB3F2] := by decide +kernel

/-- `COMPRESS` with `RC = 0` runs `TDIFF` and `CHAIN` only (section 6.4). -/
theorem test_compress_no_rounds :
    wordsS (exec .compress { primed with w := setBlockWord (words16 fun _ => 0) 0 0x80 }) =
      [0x52E89C26, 0x0D3223B0, 0x7FFC77E2, 0xBECDF781, 0x7B2CB29A, 0xAA9DC273, 0x78A7B32D,
       0x940B34B0] := by decide +kernel

theorem test_hash_empty : wordsS (exec (.hash .standard) engine) =
    [0xFFAE6A03, 0x18A7C8AC, 0xAC7D0F18, 0xF7DC6B47, 0x0AD9A9E5, 0xA879719D, 0x84BE8EB2,
     0x960F04E8] := by decide +kernel

theorem test_hash_fast_abc : wordsS (exec (.hash .fast) holding) =
    [0xAB6C4E4E, 0xA6E31A4B, 0x8D455461, 0xCD6BCC7C, 0x6C710D1A, 0x0B45FF36, 0x0BE70F09,
     0x5E02B165] := by decide +kernel

/-! ### The host's port (section 6.3) -/

/-- Section 8, program P2: the line `WR 0x1000, 0x00636261` by its name `MSG[0]`, and its triple. -/
theorem test_line_window_word :
    lineTriple (lineWR (.msg 0) 0x00636261) = some ("W4", 0x1000, some 0x00636261) ∧
    lineWR (.offset 0x1000) 0x00636261 = lineWR (.msg 0) 0x00636261 := by decide +kernel

/-- `WAIT` reads past `00000023` (section 6.3) and stops at the first value with bit 0 equal to 0. -/
theorem test_wait_stops : waitReads [0x23, 0x23, 0x22, 0x22] = [0x23, 0x23, 0x22] := by decide +kernel

/-- `WR 0x1FFC, 0xAABBCCDD`: the lowest byte at the lowest address. -/
theorem test_window_word : probe (fun t => (msgByte t.msg 4092).toNat)
    (step (given (.write 0x1FFC 4 0xAABBCCDD))) = some 0xDD := by decide +kernel

theorem test_window_past_cap : probe (fun t => t.einfo.toNat) (step (given (.write 0x2000 1 0))) =
    some 0x2000 := by decide +kernel

theorem test_read_only_register : probe (fun t => (statusWord t).toNat)
    (step (given (.write 0x004 4 0))) = some 0x32 := by decide +kernel

/-- Section 6.1: `HEX[0]` of the state whose first word is `FFAE6A03`. -/
theorem test_hex_word : hexWord (setLane (lanes fun _ => 0) 0 0xFFAE6A03) 0 = 0x61363330 := by
  decide +kernel

/-- The first command after reset is decoded and executed, though the parameters have no value. -/
theorem test_first_command : probe (fun t => t.rc.toNat)
    (step (State.reset.withFetchWord 32 0x00000018)) = some 20 := by decide +kernel

/-! ### For each statement with hypotheses, states and operands that meet them -/

/-- The engine with the error record of an illegal word. -/
def failed : State := { engine with err := true, ecode := 1, einfo := 0x19 }

/-- The engine with a message of 56 bytes, two blocks, at its last block. -/
def atLastBlock : State :=
  { engine with msg := (List.range 56).map fun a => (a, 0x61), mlen := 56, blk := 1 }

/-- An engine waiting for one input that reaches it once it is idle. -/
def waiting (s : State) (i : HostInput) : State := { s with inbox := [⟨.whenIdle, i⟩] }

theorem witness_DecodeAndEncodeAgree : (Instr.hash .fast).wellFormed = true ∧
    decode 0x00000118 = .ok (.hash .fast) := ⟨rfl, rfl⟩

theorem witness_StepRunsTheDecodedCommand :
    (given (.write 0x000 4 0x14)).busy = false ∧
    (given (.write 0x000 4 0x14)).inbox = ⟨.afterSteps 0, .write 0x000 4 0x14⟩ :: [] ∧
    decode 0x14 = .ok .round := ⟨rfl, rfl, rfl⟩

theorem witness_IdleEngineHoldsItsState : engine.busy = false ∧ engine.inbox = [] := ⟨rfl, rfl⟩

/-- One state for each row of Table R190. -/
theorem witness_BusyStepFollowsThePhaseTable :
    ∀ ph ∈ [Phase.pInit, .pSched, .pLoad, .pTdiff, .pRound, .pFround, .pChain],
      (busyIn ph).busy = true ∧ quiet (busyIn ph) ∧ (busyIn ph).seqPh = ph := by decide +kernel

theorem witness_NopHasNoEffect : engine.busy = false ∧ (busyIn .pInit).busy = true := ⟨rfl, rfl⟩

theorem witness_ClrerrClearsTheErrorRecord :
    failed.busy = false ∧ (engine.busy = false ∧ errorInv engine ∧ engine.err = false) ∧
    (failed.busy = false ∧ failed.err = true ∧ Instr.nop ≠ .clrerr) ∧
    (busyIn .pChain).busy = true := by decide +kernel

theorem witness_InitStartsAComputation : ready engine ∧ quiet engine := by decide +kernel

/-- Fast mode at the largest length that fits, standard mode with a written message. -/
theorem witness_SchedComputesTheRoundCount :
    (ready { engine with mode := .fast, mlen := 4096 } ∧
      quiet { engine with mode := .fast, mlen := 4096 } ∧
      lengthFits { engine with mode := .fast, mlen := 4096 }) ∧
    (ready holding ∧ quiet holding ∧ lengthFits holding ∧ holding.mode = .standard ∧
      messageWritten holding) := by decide +kernel

/-- A message of 65 bytes of which only the last block's one byte is written. -/
theorem witness_LoadFramesABlockOfThePaddedMessage :
    let s : State := { engine with msg := [(64, 0x62)], mlen := 65, blk := 1 }
    let m := List.replicate 64 0x61 ++ [0x62]
    ready s ∧ quiet s ∧ lengthFits s ∧ blockExists s ∧ s.mlen.toNat = m.length ∧
    (∀ a, 64 * s.blk.toNat ≤ a → a < 64 * s.blk.toNat + 64 → a < m.length → msgRead s.msg a = m[a]?) ∧
    msgRead s.msg 0 = none := by
  refine ⟨by decide +kernel, by decide +kernel, by decide +kernel, by decide +kernel, rfl, ?_, rfl⟩
  intro a h1 _ h3
  obtain rfl : a = 64 := Nat.le_antisymm (Nat.lt_succ_iff.mp h3) h1
  rfl

theorem witness_TdiffWritesTheDiffusedState :
    (ready primed ∧ quiet primed ∧ primed.cfg.tdiffReading = .interleaved) ∧
    (ready { primed with cfg := { T1 with tdiffReading := .twoPass } } ∧
      quiet { primed with cfg := { T1 with tdiffReading := .twoPass } }) := by decide +kernel

theorem witness_RoundMixesEveryLane : ready { primed with rn := 63 } ∧
    quiet { primed with rn := 63 } := by decide +kernel

theorem witness_FroundMixesEveryLane :
    (ready { primed with rn := 7 } ∧ quiet { primed with rn := 7 } ∧
      ({ primed with rn := 7 } : State).rn.toNat < 8 ∧ primed.cfg.fastLaneOrder = .snapshot) ∧
    (ready { primed with cfg := { T1 with fastLaneOrder := .inPlace } } ∧
      quiet { primed with cfg := { T1 with fastLaneOrder := .inPlace } }) := by decide +kernel

theorem witness_ChainAddsTheInitialState : ready { primed with blk := 0xFFFFFFFFFFFFFFFF } ∧
    quiet { primed with blk := 0xFFFFFFFFFFFFFFFF } := by decide +kernel

theorem witness_CompressFoldsTheBlock :
    (ready { primed with rc := 63 } ∧ quiet { primed with rc := 63 } ∧ primed.mode = .standard) ∧
    (ready { primed with mode := .fast } ∧ quiet { primed with mode := .fast }) := by decide +kernel

theorem witness_HashComputesTheDigest :
    ready holding ∧ quiet holding ∧ lengthFits holding ∧ holdsMessage holding abc := by
  decide +kernel

/-- The empty message: the engine takes 25 steps, so it is busy after 24 and idle after 25; with no
input, and with a read due at once. -/
theorem witness_HashTakesTheStatedSteps :
    ready engine ∧ quiet engine ∧ lengthFits engine ∧ holdsMessage engine [] ∧
    (24 : Nat) < 2 + blockCount 0 * (3 + rounds [] .standard) ∧
    25 ≤ 2 + blockCount 0 * (3 + rounds [] .standard) ∧
    ¬ 25 < 2 + blockCount 0 * (3 + rounds [] .standard) ∧
    ready (given (.read 0x004 4)) ∧ noReset (given (.read 0x004 4)).inbox ∧
    lengthFits (given (.read 0x004 4)) ∧ holdsMessage (given (.read 0x004 4)) [] := by decide +kernel

theorem witness_EveryCommandCompletes : messageWritten holding := by decide +kernel

theorem witness_EveryCommandEndsIdle : primed.busy = false ∧ ∃ t, exec .tdiff primed = .next t :=
  ⟨rfl, _, rfl⟩

theorem witness_CommandsWriteOnlyTheirRegisters :
    noReset (given (.read 0x004 4)).inbox ∧ quiet primed ∧
    (∃ t, exec .round (given (.read 0x004 4)) = .next t) ∧ (∃ t, exec .round primed = .next t) ∧
    primed.busy = false ∧ operandsLegal .round primed ∧ Instr.round ≠ .clrerr :=
  ⟨by decide +kernel, by decide +kernel, ⟨_, rfl⟩, ⟨_, rfl⟩, rfl, by simp [operandsLegal], by simp⟩

theorem witness_HostAccessesCannotDisturbACommand :
    noReset [⟨.afterSteps 1, .write 0x008 4 1⟩, ⟨.afterSteps 0, .read 0x004 4⟩] := by decide +kernel

/-- Two engines that differ in `S`, `MODE` and a byte beyond the message. -/
theorem witness_HashDependsOnTheMessageOnly :
    ready holding ∧ quiet holding ∧ lengthFits holding ∧
    ready { primed with mode := .fast, mlen := 3, msg := holding.msg ++ [(3, 0xFF)] } ∧
    quiet { primed with mode := .fast, mlen := 3, msg := holding.msg ++ [(3, 0xFF)] } ∧
    holding.cfg = primed.cfg ∧
    ∀ a, a < holding.mlen.toNat → msgRead holding.msg a = msgRead (holding.msg ++ [(3, 0xFF)]) a := by
  decide +kernel

theorem witness_HashEqualsItsCommandSequence :
    ready atLastBlock ∧ quiet atLastBlock ∧ lengthFits atLastBlock := by decide +kernel

theorem witness_CompressEqualsItsCommandSequence :
    (ready { primed with rc := 63 } ∧ quiet { primed with rc := 63 } ∧ primed.mode = .standard) ∧
    (ready { primed with mode := .fast } ∧ quiet { primed with mode := .fast }) := by decide +kernel

theorem witness_FirstErrorIsKept : engine.err = false ∧ failed.err = true := ⟨rfl, rfl⟩

theorem witness_IllegalWordRaisesIllegalCmd :
    (waiting engine (.write 0x000 4 0x19)).busy = false ∧ legalWord 0x19 = false ∧
    engine.err = false ∧ (waiting failed (.write 0x000 4 0x19)).busy = false ∧ failed.err = true :=
  ⟨rfl, rfl, rfl, rfl, rfl⟩

theorem witness_OnlyClrerrIsPerformedAfterAnError :
    (waiting failed (.write 0x000 4 0x18)).busy = false ∧
    (waiting failed (.write 0x000 4 0x18)).err = true ∧ (0x18 : Word) ≠ 0x00000001 ∧
    (waiting failed (.write 0x000 4 0x01)).err = true := by decide +kernel

theorem witness_CommandsWhileBusyAreDropped : (busyIn .pRound).busy = true := rfl

/-- One byte too many, and the largest length that fits. -/
theorem witness_LengthBeyondTheBufferRaisesLenRange :
    (ready { engine with mlen := 4097 } ∧ ¬ lengthFits { engine with mlen := 4097 }) ∧
    (ready { engine with mlen := 4096 } ∧ lengthFits { engine with mlen := 4096 }) := by
  decide +kernel

theorem witness_MissingBlockRaisesBlkRange :
    (ready { engine with blk := 1 } ∧ lengthFits { engine with blk := 1 } ∧
      (engine.mlen.toNat + 8) / 64 + 1 ≤ ({ engine with blk := 1 } : State).blk.toNat) ∧
    errorInv engine ∧ ∃ t, exec (.hash .fast) engine = .next t :=
  ⟨by decide +kernel, by decide +kernel, _, rfl⟩

theorem witness_NinthFastRoundRaisesBadRound :
    (ready { engine with rn := 8 } ∧ 8 ≤ ({ engine with rn := 8 } : State).rn.toNat) ∧
    errorInv engine ∧ (∃ t, exec .compress engine = .next t) ∧
    ∃ t, exec (.hash .fast) engine = .next t :=
  ⟨by decide +kernel, by decide +kernel, ⟨_, rfl⟩, ⟨_, rfl⟩⟩

/-- The last read-write register and the last word of the window for a write, the last mapped byte for
a read. -/
theorem witness_WritesWhileBusyAreDropped :
    (busyIn .pTdiff).busy = true ∧ (∃ t, step { busyIn .pTdiff with inbox := [] } = .next t) ∧
    legalWrite T1.msgCap 0x07C 4 ∧ legalWrite T1.msgCap 0x1FFC 4 ∧ legalRead T1.msgCap 0x19F 1 :=
  ⟨rfl, ⟨_, rfl⟩, by decide +kernel, by decide +kernel, by decide +kernel⟩

/-- Both neighbours of `STATUS`. -/
theorem witness_StatusIsReadableWhileBusy :
    (busyIn .pTdiff).busy = true ∧ (∃ t, step { busyIn .pTdiff with inbox := [] } = .next t) ∧
    (legalRead T1.msgCap 0x003 1 ∧ 0x003 / 4 ≠ 1) ∧ (legalRead T1.msgCap 0x008 4 ∧ 0x008 / 4 ≠ 1) :=
  ⟨rfl, ⟨_, rfl⟩, by decide +kernel, by decide +kernel⟩

/-- An unmapped read, a byte past the buffer and a write of a read-only register; idle and busy. -/
theorem witness_IllegalAccessRaisesBadAccess :
    (given (.read 0x0B0 4)).busy = false ∧ ¬ legalRead T1.msgCap 0x0B0 4 ∧
    ¬ legalWrite T1.msgCap 0x2000 1 ∧ ¬ legalWrite T1.msgCap 0x004 4 ∧
    (busyIn .pTdiff).busy = true ∧ ∃ t, step { busyIn .pTdiff with inbox := [] } = .next t :=
  ⟨rfl, by decide +kernel, by decide +kernel, by decide +kernel, rfl, _, rfl⟩

/-- One offset for each row of Table R38, the last register of each range. -/
theorem witness_RegisterReadsHaveNoSideEffect :
    ∀ off ∈ [0x000, 0x004, 0x008, 0x00C, 0x010, 0x014, 0x018, 0x01C, 0x020 + 4 * 7, 0x040 + 4 * 15,
        0x080 + 4 * 7, 0x0A0, 0x0A4, 0x0A8, 0x0AC, 0x0C0 + 4 * 15, 0x100 + 4 * 7, 0x120 + 4 * 7,
        0x140 + 4 * 15, 0x180 + 4 * 7],
      (given (.read off 4)).busy = false ∧
      (given (.read off 4)).inbox = ⟨.afterSteps 0, .read off 4⟩ :: [] := by decide +kernel

theorem witness_StatusHasItsLayout : (7 : Nat) ≤ 31 := by decide

theorem witness_DerivedViewsShowTheState : (31 : Nat) < 32 := by decide

/-- One offset for each clause, the last register of each range. -/
theorem witness_RegisterWritesStoreTheValue :
    ∀ off ∈ [0x008, 0x00C, 0x010, 0x014, 0x018, 0x01C, 0x020 + 4 * 7, 0x040 + 4 * 15],
      (given (.write off 4 0xFFFFFFFF)).busy = false ∧
      (given (.write off 4 0xFFFFFFFF)).inbox = ⟨.afterSteps 0, .write off 4 0xFFFFFFFF⟩ :: [] := by
  decide +kernel

/-- The last byte of the digest, and its two characters; the last byte of the first register and of the
last. -/
theorem witness_ByteReadsGiveTheDigest :
    (∀ off ∈ [0x020 + 31, 0x0C0 + 2 * 31, 0x0C0 + 2 * 31 + 1, 0x000 + 3, 0x19C + 3],
      (given (.read off 1)).busy = false ∧
      (given (.read off 1)).inbox = ⟨.afterSteps 0, .read off 1⟩ :: []) ∧
    (0x000 % 4 = 0 ∧ mapped 0x000) ∧ 0x19C % 4 = 0 ∧ mapped 0x19C := by decide +kernel

/-- The last byte and the last word of the buffer. -/
theorem witness_WindowWritesStoreTheirBytes :
    (given (.write (0x1000 + 4095) 1 0x55)).busy = false ∧ 4095 < T1.msgCap ∧
    (given (.write (0x1000 + 4092) 4 0x55)).busy = false ∧ 4092 % 4 = 0 ∧ 4092 + 3 < T1.msgCap := by
  decide +kernel

/-- A written byte, a written word, an unwritten byte, and a word whose last byte is unwritten. -/
theorem witness_WindowReadsReturnWrittenBytes :
    (2 < T1.msgCap ∧ msgRead holding.msg 2 = some 0x63) ∧
    (4 % 4 = 0 ∧ 4 + 3 < T1.msgCap ∧ msgRead holed.msg 4 = some 0x61 ∧
      msgRead holed.msg 5 = some 0x61 ∧ msgRead holed.msg 6 = some 0x61 ∧
      msgRead holed.msg 7 = some 0x61) ∧
    (3 < T1.msgCap ∧ msgRead holding.msg 3 = none) ∧
    (0 % 4 = 0 ∧ 0 + 3 < T1.msgCap ∧ msgRead holding.msg 3 = none ∧
      ∀ c, c < 3 → (msgRead holding.msg c).isSome = true) := by decide +kernel

/-- The last byte of the first block is missing. -/
theorem witness_UnwrittenMessageBytesStopTheModel :
    ready holed ∧ quiet holed ∧ lengthFits holed ∧ 63 < holed.mlen.toNat ∧
    msgRead holed.msg 63 = none ∧ (∀ b, b < 63 → (msgRead holed.msg b).isSome = true) ∧
    holed.mode = .standard ∧ holed.blk.toNat = 63 / 64 := by decide +kernel

theorem witness_ResetEventGivesTheResetValues :
    ((waiting failed .reset).busy = false ∧
      (waiting failed .reset).inbox = ⟨.whenIdle, .reset⟩ :: []) ∧
    ({ busyIn .pRound with inbox := [⟨.afterSteps 0, .reset⟩] } : State).busy = true := by
  decide +kernel

/-- An idle and a busy state. -/
theorem witness_StepKeepsTheSequencerInvariant :
    sequencerInv primed ∧ (∃ t, step primed = .next t) ∧ sequencerInv (busyIn .pTdiff) ∧
    ∃ t, step (busyIn .pTdiff) = .next t :=
  ⟨by decide +kernel, ⟨_, rfl⟩, by decide +kernel, ⟨_, rfl⟩⟩

theorem witness_StepKeepsTheErrorInvariant :
    errorInv failed ∧ ∃ t, step (waiting failed (.write 0x000 4 0x01)) = .next t :=
  ⟨by decide +kernel, _, rfl⟩

theorem witness_StepKeepsTheMemoryInvariant :
    memoryInv holding ∧ ∃ t, step (waiting holding (.write 0x1000 1 0x62)) = .next t :=
  ⟨by decide +kernel, _, rfl⟩

theorem witness_StepKeepsTheParameters :
    ∃ t, step (waiting holding (.write 0x000 4 0x17)) = .next t := ⟨_, rfl⟩

theorem witness_PaddedMessageHasItsClosedForm : abc.length < 2 ^ 61 := by decide +kernel

/-- The last padded byte of the empty message and of "abc". -/
theorem witness_PaddedByteIsTheByteOfPad :
    (([] : List Byte).length < 2 ^ 61 ∧ 63 < paddedLength ([] : List Byte).length) ∧
    (abc.length < 2 ^ 61 ∧ 63 < paddedLength abc.length) := by decide +kernel

theorem witness_RoundCountIsMonotonic :
    (∀ b ∈ ([0x61] : List Byte), b ∈ abc) ∧ ∀ b ∈ abc, b ∈ ([0x63, 0x61, 0x62, 0x61] : List Byte) := by
  decide +kernel

theorem witness_MixOfZeroSumIsThePrime : ((0xFFFFFFFF : Word) ^^^ 0) + 1 = 0 := by decide +kernel

theorem witness_ZeroStateCornerCases :
    (∀ i, i < 8 → lane (lanes fun _ => 0) i = 0) ∧
    ∀ j, j < 16 → blockWord (words16 fun _ => 0) j = 0 := by decide +kernel

/-- Two polls while the command runs and the last one. -/
theorem witness_HashScriptReturnsTheDigest :
    ready { engine with inbox := scriptHash abc .fast [0, 3] } ∧ abc.length ≤ T1.msgCap := by
  decide +kernel

end Sys2Proof.Tests
end

