-- ==== Sys2Proof/Proofs/Parameters.lean ====
section
/-! The parameters along a step (spec/00_scope.md R6(d), spec/10_state.md R35): every part of a step
leaves `cfg` alone, the reset event included, because `resetEvent` carries it over (R241). -/

namespace Sys2Proof.Machine

/-! ### A busy engine -/

@[simp] theorem deliverBusy_cfg (i : HostInput) (s : State) : (deliverBusy i s).cfg = s.cfg := by
  by_cases hi : i = .reset
  · subst hi; exact resetEvent_cfg s
  · exact (eq_of_engineView_eq (engineView_deliverBusy hi s)).1

theorem phaseStep_cfg {s t : State} (h : phaseStep s = .next t) : t.cfg = s.cfg :=
  (phaseStep_keeps h).1

theorem tick_cfg {s t : State} (h : tick s = .next t) : t.cfg = s.cfg :=
  tick_keeps (·.cfg = s.cfg)
    (hi := fun i u hu => (deliverBusy_cfg i u).trans hu)
    (hl := fun _ _ hu => hu)
    (hp := fun _ _ hu hv => (phaseStep_cfg hv).trans hu)
    rfl h

theorem runBusy_cfg {n : Nat} {s t : State} (h : runBusy n s = .next t) : t.cfg = s.cfg :=
  runBusy_keeps (·.cfg = s.cfg) (fun _ _ hu _ hv => (tick_cfg hv).trans hu) n rfl h

/-! ### An idle engine -/

@[simp] theorem acceptedState_cfg (i : Instr) (s : State) : (acceptedState i s).cfg = s.cfg := by
  cases i <;> rfl

/-- A command writes no parameter, whichever of the outcomes of R191 it has. -/
theorem exec_cfg {i : Instr} {s t : State} (h : exec i s = .next t) : t.cfg = s.cfg := by
  rcases exec_cases i s with ⟨_, hbusy⟩ | ⟨_, _, _, hignored⟩ | ⟨_, _, _, e, _, hcheck⟩ |
    ⟨_, _, hnop⟩ | ⟨_, _, hclrerr⟩ | ⟨_, _, _, _, _, n, ph, hrun⟩
  · rw [hbusy] at h; cases h; exact raise_cfg _ _ s
  · rw [hignored] at h; cases h; rfl
  · rw [hcheck] at h; cases h; exact raise_cfg _ _ s
  · rw [hnop] at h; cases h; rfl
  · rw [hclrerr] at h; cases h; exact clearError_cfg s
  · rw [hrun] at h
    simpa using runBusy_cfg h

theorem deliverIdle_cfg {i : HostInput} {s t : State} (h : deliverIdle i s = .next t) :
    t.cfg = s.cfg := by
  rcases deliverIdle_cases h with rfl | ⟨hcfg, _⟩
  · exact resetEvent_cfg s
  · exact hcfg

theorem idleStep_cfg {s t : State} (hb : s.busy = false) (h : idleStep s = .next t) :
    t.cfg = s.cfg :=
  idleStep_keeps (·.cfg = s.cfg)
    (hl := fun _ _ hu => hu)
    (hr := fun e c u hu => (raise_cfg e c u).trans hu)
    (hx := fun _ _ _ hu hv => (exec_cfg hv).trans hu)
    (hd := fun _ _ _ hu hv => (deliverIdle_cfg hv).trans hu)
    hb rfl h

/-! ### The step -/

/-- Settles O49: a busy engine performs an engine step, an idle one takes an input, and neither writes
a parameter. -/
theorem stepKeepsTheParameters : Obligations.StepKeepsTheParameters := by
  intro s t h
  cases hb : s.busy with
  | true => rw [step_of_busy hb] at h; exact tick_cfg h
  | false => rw [step_of_idle hb] at h; exact idleStep_cfg hb h

end Sys2Proof.Machine
end

/-! The sequencer's invariant and the message buffer's invariant along a step. -/

namespace Sys2Proof.Machine

open Sys2Proof.Safety

/-! ### A command on a ready engine -/

/-- The phase a command is accepted in (Table R190); `NOP` and `CLRERR` have none. -/
def firstPhase : Instr → State → Phase
  | .nop, _ | .clrerr, _ => .idle
  | .init _, _ | .hash _, _ => .pInit
  | .sched, _ => .pSched
  | .load, _ => .pLoad
  | .tdiff, _ => .pTdiff
  | .round, _ => .pRound
  | .fround, _ => .pFround
  | .chain, _ => .pChain
  | .compress, s => compressPhase s

/-- The bound on its engine steps a command is run with. -/
def stepBound : Instr → State → Nat
  | .compress, s => compressSteps s
  | .hash _, s => hashStepBound s
  | .nop, _ | .clrerr, _ | .init _, _ | .sched, _ | .load, _ | .tdiff, _ | .round, _ => 1
  | .fround, _ | .chain, _ => 1

/-- The state in which a command starts to run. -/
def startState (i : Instr) (s : State) : State := accept i (firstPhase i s) (acceptedState i s)

/-- A ready engine runs a command whose operand check is met from its first phase (R191 case 5). -/
theorem exec_of_legal {i : Instr} {s : State} (hb : s.busy = false) (he : s.err = false)
    (hop : operandsLegal i s) (hnop : i ≠ .nop) (hclrerr : i ≠ .clrerr) :
    exec i s = runBusy (stepBound i s) (startState i s) := by
  obtain ⟨hlen, hblk, hrn⟩ := hop
  cases i with
  | nop => exact absurd rfl hnop
  | clrerr => exact absurd rfl hclrerr
  | init f => exact issue_ready _ none _ hb he
  | sched =>
    have hcheck : lengthCheck s = none := lengthCheck_eq_none.2 (hlen (by simp))
    exact (issue_ready _ _ _ hb he).trans (by rw [hcheck]; rfl)
  | load =>
    have hcheck : loadCheck s = none := loadCheck_eq_none.2 ⟨hlen (by simp), hblk rfl⟩
    exact (issue_ready _ _ _ hb he).trans (by rw [hcheck]; rfl)
  | tdiff => exact issue_ready _ none _ hb he
  | round => exact issue_ready _ none _ hb he
  | fround =>
    have hcheck : froundCheck s = none := froundCheck_eq_none.2 (hrn rfl)
    exact (issue_ready _ _ _ hb he).trans (by rw [hcheck]; rfl)
  | chain => exact issue_ready _ none _ hb he
  | compress =>
    exact issue_ready .compress none (fun s =>
      runCommand .compress (compressPhase s) (compressSteps s) { s with rn := 0 }) hb he
  | hash f =>
    have hcheck : lengthCheck s = none := lengthCheck_eq_none.2 (hlen (by cases f <;> simp))
    exact (issue_ready _ _ _ hb he).trans (by rw [hcheck]; rfl)

/-- What error entry, `CLRERR`, the start of a command and an engine step keep, a command keeps. -/
theorem exec_keeps (P : State → Prop) (hraise : ∀ e c s, P s → P (raise e c s))
    (hclear : ∀ s, P s → P (clearError s))
    (hstart : ∀ i s, P s → operandsLegal i s → i ≠ .nop → i ≠ .clrerr → P (startState i s))
    (htick : ∀ s t, P s → s.busy = true → tick s = .next t → P t)
    {i : Instr} {s t : State} (h : P s) (hx : exec i s = .next t) : P t := by
  rcases exec_cases i s with ⟨_, hbusy⟩ | ⟨_, _, _, hignored⟩ | ⟨_, _, _, e, _, hcheck⟩ |
    ⟨_, _, hnop⟩ | ⟨_, _, hclrerr⟩ | ⟨hb, he, hop, hn, hc, _⟩
  · rw [hbusy] at hx; cases hx; exact hraise _ _ _ h
  · rw [hignored] at hx; cases hx; exact h
  · rw [hcheck] at hx; cases hx; exact hraise _ _ _ h
  · rw [hnop] at hx; cases hx; exact h
  · rw [hclrerr] at hx; cases hx; exact hclear _ h
  · rw [exec_of_legal hb he hop hn hc] at hx
    exact runBusy_keeps P htick _ (hstart i s h hop hn hc) hx

/-! ### The sequencer's invariant -/

theorem sequencerInv_of_idle {s : State} (hb : s.busy = false) (hp : s.seqPh = .idle) :
    sequencerInv s :=
  ⟨by simp [hb, hp], by simp [hb]⟩

/-- The invariant speaks only of what the engine computes with. -/
theorem sequencerInv_congr {s t : State} (h : engineView s = engineView t) (hs : sequencerInv s) :
    sequencerInv t := by
  obtain ⟨hcfg, -, -, -, -, hrc, hrn, hblk, hmlen, hbusy, hop, -, hph, -⟩ := eq_of_engineView_eq h
  simpa only [sequencerInv, lengthFits, blockExists, hcfg, hrc, hrn, hblk, hmlen, hbusy, hop, hph]
    using hs

/-- What a transition of Table R190 to the phase `ph` has to meet. -/
theorem sequencerInv_goTo {ph : Phase} {u : State} (hop : ph ≠ .idle → phaseOf u.seqOp ph = true)
    (hlen : u.seqOp = 0x11 ∨ u.seqOp = 0x12 ∨ u.seqOp = 0x18 → lengthFits u)
    (hblk : ph = .pLoad ∨ (u.seqOp = 0x18 ∧ ph ≠ .idle) → blockExists u)
    (hstart : ph = .pSched ∨ ph = .pLoad ∨ ph = .pTdiff → u.rn = 0)
    (hround : ph = .pRound → u.rn.toNat < u.rc.toNat)
    (hfround : ph = .pFround → u.rn.toNat < 8) : sequencerInv (goTo ph u) := by
  by_cases hidle : ph = .idle
  · exact sequencerInv_of_idle (by simp [hidle]) (by simp [hidle])
  · refine ⟨by simp [hidle], fun _ => ⟨hop hidle, hlen, fun h => hblk ?_, fun h => hstart ?_,
      fun h => hstart ?_, fun h => hround h.2, hfround⟩⟩
    · exact h.imp id fun h => ⟨h.1, hidle⟩
    · exact h.2.imp id .inl
    · exact .inr (.inr h.2)

theorem runsHash_iff (s : State) : runsHash s = true ↔ s.seqOp = 0x18 := by
  simp [runsHash, Instr.opcode]

theorem runsComposite_iff (s : State) :
    runsComposite s = true ↔ s.seqOp = 0x18 ∨ s.seqOp = 0x17 := by
  simp [runsComposite, runsHash, Instr.opcode]

theorem compressPhase_cases (s : State) :
    (s.mode = .standard ∧ compressPhase s = .pTdiff) ∨ (s.mode = .fast ∧ compressPhase s = .pFround) := by
  cases h : s.mode <;> simp [compressPhase, h]

/-- Where `P_LOAD` leads. -/
theorem afterLoad_cases (s : State) :
    afterLoad s = .idle ∨ (s.seqOp = 0x18 ∧ (afterLoad s = .pTdiff ∨ afterLoad s = .pFround)) := by
  by_cases h : runsHash s = true
  · rcases compressPhase_cases s with ⟨_, h'⟩ | ⟨_, h'⟩ <;>
      simp [afterLoad, h, h', (runsHash_iff s).1 h]
  · exact .inl (by simp [afterLoad, h])

/-- Where `P_TDIFF` leads. -/
theorem afterTdiff_cases (s : State) :
    afterTdiff s = .idle ∨ ((s.seqOp = 0x18 ∨ s.seqOp = 0x17) ∧
      ((afterTdiff s = .pRound ∧ 0 < s.rc.toNat) ∨ afterTdiff s = .pChain)) := by
  rw [← runsComposite_iff]
  unfold afterTdiff
  split <;> [split <;> simp [*]; simp]

/-- Where `P_ROUND` leads. -/
theorem afterRound_cases (s : State) :
    afterRound s = .idle ∨ ((s.seqOp = 0x18 ∨ s.seqOp = 0x17) ∧
      ((afterRound s = .pRound ∧ s.rn.toNat < s.rc.toNat) ∨ afterRound s = .pChain)) := by
  rw [← runsComposite_iff]
  unfold afterRound
  split <;> [split <;> simp [*]; simp]

/-- Where `P_FROUND` leads. -/
theorem afterFround_cases (s : State) :
    afterFround s = .idle ∨ ((s.seqOp = 0x18 ∨ s.seqOp = 0x17) ∧
      ((afterFround s = .pFround ∧ s.rn.toNat < 8) ∨ afterFround s = .pChain)) := by
  rw [← runsComposite_iff]
  unfold afterFround Config.roundsFast
  split <;> [split <;> simp [*]; simp]

/-- Where `P_CHAIN` leads. -/
theorem afterChain_cases (s : State) :
    afterChain s = .idle ∨ (s.seqOp = 0x18 ∧ blockExists s ∧ afterChain s = .pLoad) := by
  rw [← runsHash_iff]
  unfold afterChain
  split <;> simp_all

/-- A composite command goes on to a phase of its block's compression. -/
theorem sequencerInv_goTo_compression {ph : Phase} {u : State}
    (hop : u.seqOp = 0x18 ∨ u.seqOp = 0x17)
    (hlen : u.seqOp = 0x11 ∨ u.seqOp = 0x12 ∨ u.seqOp = 0x18 → lengthFits u)
    (hhash : u.seqOp = 0x18 → blockExists u)
    (hph : (ph = .pTdiff ∧ u.rn = 0) ∨ (ph = .pRound ∧ u.rn.toNat < u.rc.toNat) ∨
      (ph = .pFround ∧ u.rn.toNat < 8) ∨ ph = .pChain) : sequencerInv (goTo ph u) := by
  rcases hph with ⟨rfl, hrn⟩ | ⟨rfl, hrn⟩ | ⟨rfl, hrn⟩ | rfl <;>
    refine sequencerInv_goTo (fun _ => ?_) hlen (by simpa using hhash) (by simp [*]) (by simp [*])
      (by simp [*]) <;>
    rcases hop with hop | hop <;> simp [phaseOf, hop]

/-- A phase of a busy engine keeps the invariant: each transition of Table R190 meets the conditions of
the phase it leads to. -/
theorem sequencerInv_phaseStep {s t : State} (hb : s.busy = true) (hs : sequencerInv s)
    (h : phaseStep s = .next t) : sequencerInv t := by
  obtain ⟨-, hlen, hblk, hrn, htdiff, -, -⟩ := hs.2 hb
  have hhash : s.seqPh ≠ .pInit → s.seqOp = 0x18 → blockExists s := fun hp h => hblk (.inr ⟨h, hp⟩)
  rcases phaseStep_cases s with ⟨_, h'⟩ | ⟨_, h'⟩ | ⟨hp, ⟨a, _, _, h'⟩ | ⟨x, y, _, h'⟩⟩ |
    ⟨hp, ⟨a, _, h'⟩ | h'⟩ | ⟨hp, h'⟩ | ⟨hp, h'⟩ | ⟨hp, h'⟩ | ⟨_, h'⟩ <;> rw [h'] at h <;> cases h
  · exact hs
  · cases hh : runsHash s
    · exact sequencerInv_of_idle rfl rfl
    · have hop := (runsHash_iff s).1 hh
      exact sequencerInv_goTo (by simp [phaseOf, hop]) hlen (by simp [blockExists, blockCount])
        (fun _ => rfl) (by simp) (by simp)
  · cases hh : runsHash s
    · exact sequencerInv_of_idle rfl rfl
    · have hop := (runsHash_iff s).1 hh
      exact sequencerInv_goTo (by simp [phaseOf, hop]) hlen (fun _ => hhash (by simp [hp]) hop)
        (fun _ => hrn ⟨hop, .inl hp⟩) (by simp) (by simp)
  · rcases afterLoad_cases s with ha | ⟨hop, ha⟩
    · rw [ha]; exact sequencerInv_of_idle rfl rfl
    · have hrn0 : s.rn = 0 := hrn ⟨hop, .inr hp⟩
      exact sequencerInv_goTo_compression (.inl hop) hlen (hhash (by simp [hp]))
        (ha.imp (⟨·, hrn0⟩) fun ha => .inr (.inl ⟨ha, by simp [hrn0]⟩))
  · rcases afterTdiff_cases s with ha | ⟨hop, ha⟩
    · rw [ha]; exact sequencerInv_of_idle rfl rfl
    · have hrn0 : s.rn = 0 := htdiff ⟨hop.symm, hp⟩
      exact sequencerInv_goTo_compression hop hlen (hhash (by simp [hp]))
        (.inr (ha.imp (fun ha => ⟨ha.1, by simpa [hrn0] using ha.2⟩) .inr))
  · rcases afterRound_cases (roundStep s) with ha | ⟨hop, ha⟩
    · rw [ha]; exact sequencerInv_of_idle rfl rfl
    · exact sequencerInv_goTo_compression hop hlen (hhash (by simp [hp])) (.inr (ha.imp id .inr))
  · rcases afterFround_cases (froundStep s) with ha | ⟨hop, ha⟩
    · rw [ha]; exact sequencerInv_of_idle rfl rfl
    · exact sequencerInv_goTo_compression hop hlen (hhash (by simp [hp])) (.inr (.inr ha))
  · rcases afterChain_cases (chainStep s) with ha | ⟨hop, hblk', ha⟩ <;> rw [ha]
    · exact sequencerInv_of_idle rfl rfl
    · have hop' : s.seqOp = 0x18 := hop
      exact sequencerInv_goTo (by simp [phaseOf, hop']) hlen (fun _ => hblk') (fun _ => rfl)
        (by simp) (by simp)

/-- An input that lands while a command runs keeps the invariant. -/
theorem sequencerInv_deliverBusy {i : HostInput} {s : State} (hs : sequencerInv s) :
    sequencerInv (deliverBusy i s) := by
  by_cases hi : i = .reset
  · subst hi; exact sequencerInv_of_idle rfl rfl
  · exact sequencerInv_congr (engineView_deliverBusy hi s).symm hs

theorem sequencerInv_raise {e : ErrorCause} {c : Word} {s : State} (hs : sequencerInv s) :
    sequencerInv (raise e c s) :=
  sequencerInv_congr (engineView_raise e c s).symm hs

theorem sequencerInv_tick {s t : State} (hb : s.busy = true) (hs : sequencerInv s)
    (h : tick s = .next t) : sequencerInv t := by
  rcases tick_cases hb with ⟨u, hu, -, h'⟩ | ⟨v, l, -, h', -⟩ <;> rw [h'] at h
  · obtain ⟨v, hv, hnext⟩ := andThen_eq_next h
    cases hnext
    have hub : u.busy = true := (congrArg State.busy hu).trans hb
    have hinv : sequencerInv v := sequencerInv_phaseStep hub (sequencerInv_congr hu.symm hs) hv
    exact hinv
  · cases h; exact sequencerInv_of_idle rfl rfl

/-- A command whose operand check is met starts to run with the invariant, whatever the engine held
before. -/
theorem sequencerInv_startState {i : Instr} {s : State} (hop : operandsLegal i s) (hnop : i ≠ .nop)
    (hclrerr : i ≠ .clrerr) : sequencerInv (startState i s) := by
  obtain ⟨hlen, hblk, hrn⟩ := hop
  cases i with
  | nop => exact absurd rfl hnop
  | clrerr => exact absurd rfl hclrerr
  | compress =>
    rcases compressPhase_cases s with ⟨_, h⟩ | ⟨_, h⟩ <;>
      simp [sequencerInv, startState, firstPhase, acceptedState, Instr.opcode, phaseOf, h]
  | hash f =>
    have hlen' : lengthFits s := hlen (by cases f <;> simp)
    simpa [sequencerInv, startState, firstPhase, acceptedState, Instr.opcode, phaseOf] using hlen'
  | sched =>
    have hlen' : lengthFits s := hlen (by simp)
    simpa [sequencerInv, startState, firstPhase, acceptedState, Instr.opcode, phaseOf] using hlen'
  | load =>
    have hlen' : lengthFits s := hlen (by simp)
    simpa [sequencerInv, startState, firstPhase, acceptedState, Instr.opcode, phaseOf]
      using ⟨hlen', hblk rfl⟩
  | fround =>
    simpa [sequencerInv, startState, firstPhase, acceptedState, Instr.opcode, phaseOf] using hrn rfl
  | init _ | tdiff | round | chain =>
    simp [sequencerInv, startState, firstPhase, acceptedState, Instr.opcode, phaseOf]

theorem sequencerInv_exec {i : Instr} {s t : State} (hs : sequencerInv s) (h : exec i s = .next t) :
    sequencerInv t :=
  exec_keeps sequencerInv (fun _ _ _ => sequencerInv_raise) (fun _ => id)
    (fun _ _ _ => sequencerInv_startState) (fun _ _ hu hb => sequencerInv_tick hb hu) hs h

/-- An access other than a command leaves an idle engine idle. -/
theorem sequencerInv_deliverIdle {i : HostInput} {s t : State} (hb : s.busy = false)
    (hs : sequencerInv s) (h : deliverIdle i s = .next t) : sequencerInv t := by
  rcases deliverIdle_cases h with rfl | ⟨-, hbusy, hph, -, -⟩
  · exact sequencerInv_of_idle rfl rfl
  · exact sequencerInv_of_idle (hbusy.trans hb) (hph.trans (hs.1.1 hb))

/-- Settles O46: a busy engine performs an engine step; an idle one takes an input, and only a command
leaves it other than idle. -/
theorem stepKeepsTheSequencerInvariant : Obligations.StepKeepsTheSequencerInvariant := by
  intro s t hs h
  cases hb : s.busy with
  | true => rw [step_of_busy hb] at h; exact sequencerInv_tick hb hs h
  | false =>
    rw [step_of_idle hb] at h
    rcases idleStep_cases s with ⟨_, h'⟩ | ⟨a, rest, c, _, h'⟩ | ⟨a, i, rest, _, _, h'⟩ <;>
      rw [h'] at h
    · cases h; exact hs
    · rcases stepCommand_cases c (s := { s with inbox := rest }) hb with ⟨i, _, h'⟩ | ⟨_, h' | h'⟩ <;>
        rw [h'] at h
      · exact sequencerInv_exec (s := { s with inbox := rest }) hs h
      · cases h; exact hs
      · cases h; exact sequencerInv_raise (s := { s with inbox := rest }) hs
    · exact sequencerInv_deliverIdle (s := { s with inbox := rest }) hb hs h

/-! ### The message buffer's invariant -/

theorem memoryInv_congr {s t : State} (hcfg : t.cfg = s.cfg) (hmsg : t.msg = s.msg)
    (hs : memoryInv s) : memoryInv t := by
  simpa only [memoryInv, hcfg, hmsg] using hs

theorem memoryInv_resetEvent (s : State) : memoryInv (resetEvent s) := ⟨rfl, by simp [State.reset]⟩

theorem memoryInv_raise (e : ErrorCause) (c : Word) {s : State} (hs : memoryInv s) :
    memoryInv (raise e c s) :=
  memoryInv_congr (raise_cfg e c s) (raise_msg e c s) hs

theorem memoryInv_deliverBusy (i : HostInput) {s : State} (hs : memoryInv s) :
    memoryInv (deliverBusy i s) := by
  by_cases hi : i = .reset
  · subst hi; exact memoryInv_resetEvent s
  · obtain ⟨hcfg, -, -, -, -, -, -, -, -, -, -, -, -, hmsg⟩ :=
      eq_of_engineView_eq (engineView_deliverBusy hi s)
    exact memoryInv_congr hcfg hmsg hs

theorem memoryInv_phaseStep {s t : State} (hs : memoryInv s) (h : phaseStep s = .next t) :
    memoryInv t := by
  obtain ⟨hcfg, -, hmsg, -⟩ := phaseStep_keeps h
  exact memoryInv_congr hcfg hmsg hs

theorem memoryInv_tick {s t : State} (hs : memoryInv s) (h : tick s = .next t) : memoryInv t :=
  tick_keeps memoryInv (fun i _ => memoryInv_deliverBusy i) (fun _ _ => id)
    (fun _ _ => memoryInv_phaseStep) hs h

@[simp] theorem acceptedState_msg (i : Instr) (s : State) : (acceptedState i s).msg = s.msg := by
  cases i <;> rfl

theorem memoryInv_exec {i : Instr} {s t : State} (hs : memoryInv s) (h : exec i s = .next t) :
    memoryInv t :=
  exec_keeps memoryInv (fun e c _ => memoryInv_raise e c) (fun _ => id)
    (fun i s hs _ _ _ => memoryInv_congr (acceptedState_cfg i s) (acceptedState_msg i s) hs)
    (fun _ _ hu _ => memoryInv_tick hu) hs h

/-- A host write into the window stores below `MSG_CAP` and keeps the addresses rising; no other access
but the reset event touches the buffer. -/
theorem memoryInv_deliverIdle {i : HostInput} {s t : State} (hs : memoryInv s)
    (h : deliverIdle i s = .next t) : memoryInv t := by
  rcases deliverIdle_cases h with rfl | ⟨hcfg, -, -, -, hmsg⟩
  · exact memoryInv_resetEvent s
  · obtain ⟨hwf, hcap⟩ := hs
    unfold memoryInv
    rw [hcfg]
    rcases hmsg with hmsg | ⟨a, v, ha, hmsg⟩ | ⟨a, v, ha, hmsg⟩ <;> rw [hmsg]
    · exact ⟨hwf, hcap⟩
    · refine ⟨wf_msgWrite _ _ _ hwf, fun c hc => ?_⟩
      rcases mem_msgWrite hc with rfl | hc
      · exact ha
      · exact hcap c hc
    · refine ⟨wf_msgWriteWord _ _ _ hwf, fun c hc => ?_⟩
      rcases mem_msgWriteWord hc with hc | hc
      · omega
      · exact hcap c hc

/-- Settles O48: only a window write and the reset event touch the buffer, and both leave it canonical
and inside `MSG_CAP`. -/
theorem stepKeepsTheMemoryInvariant : Obligations.StepKeepsTheMemoryInvariant := by
  intro s t hs h
  cases hb : s.busy with
  | true => rw [step_of_busy hb] at h; exact memoryInv_tick hs h
  | false =>
    rw [step_of_idle hb] at h
    exact idleStep_keeps memoryInv (fun _ _ => id) (fun e c _ => memoryInv_raise e c)
      (fun _ _ _ => memoryInv_exec) (fun _ _ _ => memoryInv_deliverIdle) hb hs h

/-! ### The state after reset -/

/-- Settles O50: the engine is idle, its error record empty and its buffer too. -/
theorem resetHasTheInvariants : Obligations.ResetHasTheInvariants :=
  ⟨sequencerInv_of_idle rfl rfl, ⟨nofun, fun _ => ⟨rfl, rfl⟩⟩, memoryInv_resetEvent State.reset,
    rfl, rfl, rfl, rfl, rfl, rfl, rfl, rfl, rfl, rfl⟩

end Sys2Proof.Machine

/-! The frame of a command: what a phase may write is what the rules of the commands that visit it list
as written, and nothing else of a step writes a register of the engine. -/

namespace Sys2Proof.Machine

open Sys2Proof.Safety

/-- From `s` to `t` nothing changed but the registers the command lists as written and what belongs to
the host's side of the port, the error record and the sequencer. -/
structure Frame (i : Instr) (s t : State) : Prop where
  cfg : t.cfg = s.cfg
  mlen : t.mlen = s.mlen
  msg : t.msg = s.msg
  words : writesS i = false → t.s = s.s
  block : writesW i = false → t.w = s.w
  schedule : writesSchedule i = false → t.seen = s.seen ∧ t.rc = s.rc
  mode : writesMode i = false → t.mode = s.mode
  rn : writesRN i = false → t.rn = s.rn
  blk : writesBLK i = false → t.blk = s.blk

theorem Frame.of_engineView_eq {i : Instr} {s t : State} (h : engineView t = engineView s) :
    Frame i s t := by
  obtain ⟨hcfg, hs, hw, hseen, hmode, hrc, hrn, hblk, hmlen, -, -, -, -, hmsg⟩ := eq_of_engineView_eq h
  exact ⟨hcfg, hmlen, hmsg, fun _ => hs, fun _ => hw, fun _ => ⟨hseen, hrc⟩, fun _ => hmode,
    fun _ => hrn, fun _ => hblk⟩

theorem Frame.trans {i : Instr} {s t u : State} (h : Frame i s t) (h' : Frame i t u) : Frame i s u where
  cfg := h'.cfg.trans h.cfg
  mlen := h'.mlen.trans h.mlen
  msg := h'.msg.trans h.msg
  words hw := (h'.words hw).trans (h.words hw)
  block hw := (h'.block hw).trans (h.block hw)
  schedule hw := ⟨(h'.schedule hw).1.trans (h.schedule hw).1, (h'.schedule hw).2.trans (h.schedule hw).2⟩
  mode hw := (h'.mode hw).trans (h.mode hw)
  rn hw := (h'.rn hw).trans (h.rn hw)
  blk hw := (h'.blk hw).trans (h.blk hw)

/-- A command that visits a phase lists what the phase writes. -/
theorem writes_of_phaseOf (i : Instr) :
    (phaseOf i.opcode .pInit = true →
      writesS i = true ∧ writesMode i = true ∧ writesRN i = true ∧ writesBLK i = true) ∧
    (phaseOf i.opcode .pSched = true → writesSchedule i = true) ∧
    (phaseOf i.opcode .pLoad = true → writesW i = true) ∧
    (phaseOf i.opcode .pTdiff = true → writesS i = true) ∧
    (phaseOf i.opcode .pRound = true → writesS i = true ∧ writesRN i = true) ∧
    (phaseOf i.opcode .pFround = true → writesS i = true ∧ writesRN i = true) ∧
    (phaseOf i.opcode .pChain = true →
      writesS i = true ∧ writesRN i = true ∧ writesBLK i = true) := by
  cases i <;> simp [phaseOf, Instr.opcode, writesS, writesW, writesSchedule, writesMode, writesRN,
    writesBLK]

/-- A phase a command visits writes what the command lists. -/
theorem frame_phaseStep {i : Instr} {s t : State} (hph : phaseOf i.opcode s.seqPh = true)
    (h : phaseStep s = .next t) : Frame i s t := by
  obtain ⟨hinit, hsched, hload, htdiff, hround, hfround, hchain⟩ := writes_of_phaseOf i
  obtain ⟨hcfg, hmlen, hmsg, -⟩ := phaseStep_keeps h
  rcases phaseStep_cases s with ⟨hp, h'⟩ | ⟨hp, h'⟩ | ⟨hp, ⟨a, _, _, h'⟩ | ⟨x, y, _, h'⟩⟩ |
    ⟨hp, ⟨a, _, h'⟩ | h'⟩ | ⟨hp, h'⟩ | ⟨hp, h'⟩ | ⟨hp, h'⟩ | ⟨hp, h'⟩ <;>
    rw [h'] at h <;> cases h <;> rw [hp] at hph
  · cases hph
  · obtain ⟨_, _, _, _⟩ := hinit hph
    constructor <;> simp [*]
  · have := hsched hph
    constructor <;> simp [*]
  · have := hload hph
    constructor <;> simp [*]
  · have := htdiff hph
    constructor <;> simp [*]
  · obtain ⟨_, _⟩ := hround hph
    constructor <;> simp [*]
  · obtain ⟨_, _⟩ := hfround hph
    constructor <;> simp [*]
  · obtain ⟨_, _, _⟩ := hchain hph
    constructor <;> simp [*]

/-! ### A run -/

/-- The command `i`, started in `s`, is running with no reset among the inputs, or has ended, and has
written nothing it does not list. -/
structure RunsFrom (i : Instr) (s u : State) : Prop where
  inv : sequencerInv u
  seqOp : u.seqOp = i.opcode
  inputs : noReset u.inbox
  frame : Frame i s u

theorem RunsFrom.tick {i : Instr} {s u v : State} (hr : RunsFrom i s u) (hb : u.busy = true)
    (h : tick u = .next v) : RunsFrom i s v := by
  rcases tick_cases hb with ⟨x, hview, hx, h'⟩ | ⟨_, _, _, _, p, hp, hreset⟩
  · have hinv : sequencerInv v := sequencerInv_tick hb hr.inv h
    rw [h'] at h
    obtain ⟨y, hy, hnext⟩ := andThen_eq_next h
    cases hnext
    obtain ⟨-, -, -, -, -, -, hop, -, hinbox, -, -⟩ := phaseStep_keeps hy
    obtain ⟨-, -, -, -, -, -, -, -, -, -, hopView, -, hphView, -⟩ := eq_of_engineView_eq hview
    have hphase : phaseOf i.opcode x.seqPh = true := by
      rw [hphView, ← hr.seqOp]; exact (hr.inv.2 hb).1
    have hframe : Frame i x y := frame_phaseStep hphase hy
    have hinputs : noReset x.inbox := fun p hp =>
      hr.inputs p ((hx ▸ deliverDue_inbox_suffix u.inbox u).subset hp)
    exact ⟨hinv, (hop.trans hopView).trans hr.seqOp, elapse_noReset (hinbox ▸ hinputs),
      hr.frame.trans ((Frame.of_engineView_eq hview).trans
        (hframe.trans (Frame.of_engineView_eq rfl)))⟩
  · exact absurd hreset (hr.inputs p hp)

/-- The start of a command writes nothing, but that `COMPRESS` clears `RN`. -/
theorem frame_startState (i : Instr) (s : State) : Frame i s (startState i s) := by
  cases i <;> constructor <;> simp [startState, acceptedState, writesRN]

@[simp] theorem startState_inbox (i : Instr) (s : State) : (startState i s).inbox = s.inbox := by
  cases i <;> rfl

/-- A command writes only what it lists, whatever lands while it runs but a reset. -/
theorem frame_exec {i : Instr} {s t : State} (hn : noReset s.inbox) (h : exec i s = .next t) :
    Frame i s t := by
  rcases exec_cases i s with ⟨_, h'⟩ | ⟨_, _, _, h'⟩ | ⟨_, _, _, e, _, h'⟩ | ⟨_, _, h'⟩ |
    ⟨_, _, h'⟩ | ⟨hb, he, hop, hnop, hclrerr, _⟩
  · rw [h'] at h; cases h; exact .of_engineView_eq (engineView_raise _ _ s)
  · rw [h'] at h; cases h; exact .of_engineView_eq rfl
  · rw [h'] at h; cases h; exact .of_engineView_eq (engineView_raise _ _ s)
  · rw [h'] at h; cases h; exact .of_engineView_eq rfl
  · rw [h'] at h; cases h; exact .of_engineView_eq rfl
  · rw [exec_of_legal hb he hop hnop hclrerr] at h
    have hstart : RunsFrom i s (startState i s) :=
      ⟨sequencerInv_startState hop hnop hclrerr, rfl, by simpa using hn, frame_startState i s⟩
    exact (runBusy_keeps (RunsFrom i s) (fun _ _ hr hb h => hr.tick hb h) _ hstart h).frame

/-! ### A run with a quiet host -/

/-- The inputs, the replies and the counter of free values are as they were. -/
structure SamePort (s t : State) : Prop where
  inbox : t.inbox = s.inbox
  replies : t.replies = s.replies
  freeIx : t.freeIx = s.freeIx

/-- The error record is as it was. -/
structure SameErrorRecord (s t : State) : Prop where
  err : t.err = s.err
  ecode : t.ecode = s.ecode
  einfo : t.einfo = s.einfo

/-- Engine steps with a quiet host touch neither the port's record nor the error record. -/
theorem runBusy_of_quiet_keeps {n : Nat} {s u t : State} (hq : quiet s)
    (hu : SamePort s u ∧ SameErrorRecord s u) (h : runBusy n u = .next t) :
    SamePort s t ∧ SameErrorRecord s t := by
  refine runBusy_keeps (fun u => SamePort s u ∧ SameErrorRecord s u) ?_ n hu h
  rintro u v ⟨hport, hrecord⟩ hb hv
  rw [tick_of_quiet hb (by rw [hport.inbox]; exact hq)] at hv
  obtain ⟨-, -, -, herr, hecode, heinfo, -, -, hinbox, hreplies, hfreeIx⟩ := phaseStep_keeps hv
  exact ⟨⟨hinbox.trans hport.inbox, hreplies.trans hport.replies, hfreeIx.trans hport.freeIx⟩,
    ⟨herr.trans hrecord.err, hecode.trans hrecord.ecode, heinfo.trans hrecord.einfo⟩⟩

theorem samePort_raise (e : ErrorCause) (c : Word) (s : State) : SamePort s (raise e c s) :=
  ⟨raise_inbox e c s, raise_replies e c s, raise_freeIx e c s⟩

/-- With a quiet host a command leaves the port's record alone; and one other than `CLRERR` that is
neither dropped nor refused for its operands leaves the error record. -/
theorem exec_of_quiet_keeps {i : Instr} {s t : State} (hq : quiet s) (h : exec i s = .next t) :
    SamePort s t ∧
      (s.busy = false → operandsLegal i s → i ≠ .clrerr → SameErrorRecord s t) := by
  rcases exec_cases i s with ⟨hbusy, h'⟩ | ⟨_, _, _, h'⟩ | ⟨_, _, hillegal, e, _, h'⟩ | ⟨_, _, h'⟩ |
    ⟨_, hi, h'⟩ | ⟨hb, he, hop, hnop, hclrerr, _⟩
  · rw [h'] at h; cases h
    exact ⟨samePort_raise _ _ s, fun hidle => by simp [hidle] at hbusy⟩
  · rw [h'] at h; cases h
    exact ⟨⟨rfl, rfl, rfl⟩, fun _ _ _ => ⟨rfl, rfl, rfl⟩⟩
  · rw [h'] at h; cases h
    exact ⟨samePort_raise _ _ s, fun _ hop => absurd hop hillegal⟩
  · rw [h'] at h; cases h
    exact ⟨⟨rfl, rfl, rfl⟩, fun _ _ _ => ⟨rfl, rfl, rfl⟩⟩
  · rw [h'] at h; cases h
    exact ⟨⟨rfl, rfl, rfl⟩, fun _ _ hne => absurd hi hne⟩
  · rw [exec_of_legal hb he hop hnop hclrerr] at h
    have hstart : SamePort s (startState i s) ∧ SameErrorRecord s (startState i s) := by
      cases i <;> exact ⟨⟨rfl, rfl, rfl⟩, ⟨rfl, rfl, rfl⟩⟩
    obtain ⟨hport, hrecord⟩ := runBusy_of_quiet_keeps hq hstart h
    exact ⟨hport, fun _ _ _ => hrecord⟩

/-- Settles O22: the phases a command visits write what it lists, and with a quiet host nothing else
lands. -/
theorem commandsWriteOnlyTheirRegisters : Obligations.CommandsWriteOnlyTheirRegisters := by
  intro i s t hn h
  have hf : Frame i s t := frame_exec hn h
  refine ⟨hf.cfg, hf.mlen, fun a => by rw [hf.msg], hf.words, hf.block, hf.schedule, hf.mode, hf.rn,
    hf.blk, fun hq => ?_, fun hq hb hop hne => ?_⟩
  · obtain ⟨hinbox, hreplies, hfreeIx⟩ := (exec_of_quiet_keeps hq h).1
    exact ⟨hinbox, hreplies, hfreeIx⟩
  · obtain ⟨herr, hecode, heinfo⟩ := (exec_of_quiet_keeps hq h).2 hb hop hne
    exact ⟨herr, hecode, heinfo⟩

end Sys2Proof.Machine

/-! What an access touches, and the reads that land while a command runs. -/

namespace Sys2Proof.Machine

open Sys2Proof.Safety

/-! ### What an access touches -/

theorem regOffset_mod_four (r : Reg) : regOffset r % 4 = 0 := by
  cases r <;> simp only [regOffset] <;> omega

theorem regOffset_lt_windowBase (r : Reg) : regOffset r + 3 < windowBase := by
  unfold windowBase
  cases r <;> simp only [regOffset] <;> omega

/-- A 1-byte access inside a register touches that byte of it. -/
theorem accessTarget_regByte (cap : Nat) (r : Reg) {k : Nat} (hk : k < 4) :
    accessTarget cap (regOffset r + k) 1 = some (.regByte r ⟨k, hk⟩) := by
  have hmod := regOffset_mod_four r
  have hwin := regOffset_lt_windowBase r
  have hbase : (regOffset r + k) / 4 * 4 = regOffset r := by omega
  have hbyte : Fin.ofNat 4 (regOffset r + k) = ⟨k, hk⟩ := Fin.ext (by simp only [Fin.ofNat]; omega)
  have hlt : regOffset r + k < windowBase := by omega
  simp only [accessTarget, if_pos hlt, if_neg (by decide : (1 : Nat) ≠ 4), if_true, hbase,
    regAt_regOffset, hbyte, Option.map_some]

/-- Everything a legal access can touch. -/
theorem accessTarget_cases {cap off n : Nat} {t : Target} (h : accessTarget cap off n = some t) :
    (∃ r, t = .reg r ∧ n = 4 ∧ off = regOffset r) ∨
    (∃ r k, t = .regByte r k ∧ n = 1 ∧ off / 4 * 4 = regOffset r) ∨
    (∃ a, t = .msgByte a ∧ n = 1) ∨ (∃ a, t = .msgWord a ∧ n = 4) := by
  unfold accessTarget at h
  split at h
  · split at h
    · obtain ⟨r, hr, rfl⟩ := Option.map_eq_some_iff.1 h
      exact .inl ⟨r, rfl, ‹_›, (regAt_eq_some_iff _ _).1 hr⟩
    · split at h
      · obtain ⟨r, hr, rfl⟩ := Option.map_eq_some_iff.1 h
        exact .inr (.inl ⟨r, _, rfl, ‹_›, (regAt_eq_some_iff _ _).1 hr⟩)
      · cases h
  · simp only [] at h
    split at h
    next hc => cases h; exact .inr (.inr (.inl ⟨_, rfl, hc.1⟩))
    next =>
      split at h
      next hc => cases h; exact .inr (.inr (.inr ⟨_, rfl, hc.1⟩))
      next => cases h

/-! ### Reads that land while a command runs -/

/-- The state with another record of what the host has read and of the free values drawn. -/
def withReads (replies : List Word) (freeIx : Nat) (s : State) : State :=
  { s with replies := replies, freeIx := freeIx }

theorem schedStep_withReads (l : List Word) (k : Nat) (s : State) :
    schedStep (withReads l k s) = andThen (schedStep s) fun t => .next (withReads l k t) := by
  unfold schedStep withReads
  cases s.mode with
  | fast => rfl
  | standard => cases firstUnwritten s.msg s.mlen.toNat 0 <;> rfl

theorem loadStep_withReads (l : List Word) (k : Nat) (s : State) :
    loadStep (withReads l k s) = andThen (loadStep s) fun t => .next (withReads l k t) := by
  simp only [loadStep, withReads]
  cases firstUnwritten s.msg (min s.mlen.toNat (64 * s.blk.toNat + 64) - 64 * s.blk.toNat)
    (64 * s.blk.toNat) <;> rfl

/-- A phase does not look at what the host has read. -/
theorem phaseStep_withReads (l : List Word) (k : Nat) (s : State) :
    phaseStep (withReads l k s) = andThen (phaseStep s) fun t => .next (withReads l k t) := by
  have hph : (withReads l k s).seqPh = s.seqPh := rfl
  unfold phaseStep
  rw [hph]
  cases s.seqPh with
  | pSched => simp only [schedStep_withReads, andThen_assoc]; rfl
  | pLoad => simp only [loadStep_withReads, andThen_assoc]; rfl
  | idle | pInit | pTdiff | pRound | pFround | pChain => rfl

/-- The one input still to come lands before the next engine step. -/
theorem deliverDue_one {s : State} {i : HostInput} (hb : s.busy = true)
    (hi : s.inbox = [⟨.afterSteps 0, i⟩]) :
    deliverDue s.inbox s = { deliverBusy i s with inbox := [] } := by
  rw [hi, deliverDue, if_pos (by simp [hb, Pending.due])]
  rfl

/-- A read that lands before an engine step adds its value to what the step would have been. -/
theorem step_read_busy {s t : State} {off n d : Nat} {v : Word} (hb : s.busy = true)
    (hi : s.inbox = [⟨.afterSteps 0, .read off n⟩])
    (hread : readBusy off n s = withReads (v :: s.replies) (s.freeIx + d) s)
    (h : step { s with inbox := [] } = .next t) :
    step s = .next (withReads (v :: t.replies) (t.freeIx + d) t) := by
  rw [step_of_busy (s := { s with inbox := [] }) hb,
    tick_of_quiet (s := { s with inbox := [] }) hb nofun] at h
  obtain ⟨-, -, -, -, -, -, -, -, hinbox, hreplies, hfreeIx⟩ := phaseStep_keeps h
  have hdeliver : deliverDue s.inbox s =
      withReads (v :: s.replies) (s.freeIx + d) { s with inbox := [] } := by
    rw [deliverDue_one hb hi, deliverBusy, hread]; rfl
  have hbusy : (deliverDue s.inbox s).busy = true := by rw [hdeliver]; exact hb
  rw [step_of_busy hb, tick, if_pos hbusy, hdeliver, phaseStep_withReads, h, hreplies, hfreeIx]
  simp only [andThen_next, withReads, hinbox, elapse]

theorem readBusy_of_status {s : State} {off n : Nat} {tg : Target} {v : Word}
    (h : accessTarget s.cfg.msgCap off n = some tg) (hv : statusData tg s = some v) :
    readBusy off n s = withReads (v :: s.replies) (s.freeIx + 0) s := by
  simp [readBusy, h, hv, reply, withReads]

theorem readBusy_of_free {s : State} {off n : Nat} {tg : Target}
    (h : accessTarget s.cfg.msgCap off n = some tg) (hv : statusData tg s = none) :
    readBusy off n s =
      withReads (freeData tg (Config.busyRead s.freeIx) :: s.replies) (s.freeIx + 1) s := by
  simp [readBusy, h, hv, reply, withReads]

/-- An access that touches no byte of `STATUS` has no exact data while busy. -/
theorem statusData_eq_none {cap off n : Nat} {tg : Target} (h : accessTarget cap off n = some tg)
    (hoff : off / 4 ≠ 1) (s : State) : statusData tg s = none := by
  have hstatus : regOffset .status = 4 := rfl
  rcases accessTarget_cases h with ⟨r, rfl, -, hr⟩ | ⟨r, k, rfl, -, hr⟩ | ⟨a, rfl, -⟩ | ⟨a, rfl, -⟩
  · have hne : r ≠ .status := by rintro rfl; omega
    simp [statusData, hne]
  · have hne : r ≠ .status := by rintro rfl; omega
    simp [statusData, hne]
  · rfl
  · rfl

theorem byteData_lt (b : Byte) : (byteData b).toNat < 256 := by
  have := b.isLt
  simp only [byteData, BitVec.toNat_setWidth]
  omega

/-- The free value of a 1-byte read is a byte. -/
theorem freeData_lt {cap off : Nat} {tg : Target} (h : accessTarget cap off 1 = some tg) (v : Word) :
    (freeData tg v).toNat < 256 := by
  rcases accessTarget_cases h with ⟨r, -, hn, -⟩ | ⟨r, k, rfl, -, -⟩ | ⟨a, rfl, -⟩ | ⟨a, -, hn⟩
  · cases hn
  · exact byteData_lt _
  · exact byteData_lt _
  · cases hn

/-- Settles O35: a legal read that lands while busy is the engine step with the read's value added. -/
theorem statusIsReadableWhileBusy : Obligations.StatusIsReadableWhileBusy := by
  intro s t hb h
  refine ⟨?_, fun k hk => ?_, fun off n hlegal hoff => ?_⟩
  · exact step_read_busy (s := { s with inbox := [⟨.afterSteps 0, .read 0x004 4⟩] }) hb rfl
      (readBusy_of_status (accessTarget_reg s.cfg.msgCap .status) rfl) h
  · exact step_read_busy (s := { s with inbox := [⟨.afterSteps 0, .read (0x004 + k) 1⟩] }) hb rfl
      (readBusy_of_status (accessTarget_regByte s.cfg.msgCap .status hk) rfl) h
  · obtain ⟨tg, htg⟩ := Option.isSome_iff_exists.1 ((accessTarget_isSome_iff _ _ _).2 hlegal)
    refine ⟨freeData tg (Config.busyRead s.freeIx), ?_, ?_⟩
    · rintro rfl; exact freeData_lt htg _
    · exact step_read_busy (s := { s with inbox := [⟨.afterSteps 0, .read off n⟩] }) hb rfl
        (readBusy_of_free htg (statusData_eq_none htg hoff _)) h

end Sys2Proof.Machine

/-! The register map while idle: what each register reads as, and what a write stores. -/

namespace Sys2Proof.Machine

open Sys2Proof.Safety

/-! ### `STATUS` -/

theorem toNat_append_eq_add {m n : Nat} (x : BitVec m) (y : BitVec n) :
    (x ++ y).toNat = x.toNat * 2 ^ n + y.toNat := by
  rw [BitVec.toNat_append, ← Nat.shiftLeft_add_eq_or_of_lt y.isLt, Nat.shiftLeft_eq]

theorem mode_bit_toNat (m : Mode) : m.bit.toNat = if m = .fast then 1 else 0 := by cases m <;> rfl

/-- `STATUS` as a number. -/
theorem statusWord_toNat (s : State) : (statusWord s).toNat =
    s.busy.toNat + 2 * s.err.toNat + 4 * (if s.mode = .fast then 1 else 0) + 16 * s.ecode.toNat := by
  simp only [statusWord, toNat_append_eq_add, mode_bit_toNat, BitVec.toNat_ofBool,
    BitVec.ofNat_eq_ofNat, BitVec.toNat_ofNat, Nat.zero_mod]
  omega

/-- Bits 3:0 of `STATUS`. -/
theorem statusWord_flags (s : State) :
    (statusWord s).getLsbD 0 = s.busy ∧ (statusWord s).getLsbD 1 = s.err ∧
    (statusWord s).getLsbD 2 = s.mode.bit.getLsbD 0 ∧ (statusWord s).getLsbD 3 = false := by
  simp only [statusWord, BitVec.getLsbD_append]
  simp

/-- `STATUS` from bit 4 on. -/
theorem statusWord_getLsbD_add_four (s : State) (k : Nat) :
    (statusWord s).getLsbD (4 + k) = s.ecode.getLsbD k := by
  have hsub : 4 + k - 1 - 1 - 1 - 1 = k := by omega
  simp only [statusWord, BitVec.getLsbD_append, hsub]
  rw [if_neg (by omega), if_neg (by omega), if_neg (by omega), if_neg (by omega)]
  split
  · rfl
  · rw [BitVec.getLsbD_of_ge s.ecode k (by omega)]; simp

/-- Settles O38, from the bits below and above bit 4. -/
theorem statusHasItsLayout : Obligations.StatusHasItsLayout := by
  intro s
  obtain ⟨hbusy, herr, hmode, hzero⟩ := statusWord_flags s
  refine ⟨hbusy, herr, ?_, hzero, BitVec.eq_of_getLsbD_eq fun j hj => ?_, fun k hk => ?_⟩
  · refine (iff_of_eq (congrArg (· = true) hmode)).trans ?_
    cases s.mode <;> decide
  · rw [BitVec.getLsbD_extractLsb', decide_eq_true hj, Bool.true_and]
    exact statusWord_getLsbD_add_four s j
  · obtain ⟨j, rfl⟩ := Nat.exists_eq_add_of_le (show 4 ≤ k by omega)
    exact (statusWord_getLsbD_add_four s j).trans (BitVec.getLsbD_of_ge _ _ (by omega))

/-! ### The derived views -/

theorem lowHalf_toNat (x : Dword) : (x.extractLsb' 0 32).toNat = x.toNat % 2 ^ 32 := by
  simp [BitVec.extractLsb'_toNat]

theorem highHalf_toNat (x : Dword) : (x.extractLsb' 32 32).toNat = x.toNat / 2 ^ 32 := by
  have := x.isLt
  simp only [BitVec.extractLsb'_toNat, Nat.shiftRight_eq_div_pow]
  omega

theorem msgCap_lt (p : Config.Params) : p.msgCap < 2 ^ 64 := by
  have := p.capWordsPred.isLt
  unfold Config.Params.msgCap
  omega

theorem msgCap_toNat (p : Config.Params) : (BitVec.ofNat 64 p.msgCap).toNat = p.msgCap :=
  Nat.mod_eq_of_lt (msgCap_lt p)

theorem uniq_toNat (seen : BitVec 256) :
    (BitVec.ofNat 32 (uniqueBytes seen)).toNat = uniqueBytes seen :=
  Nat.mod_eq_of_lt ((uniqueBytes_le seen).trans_lt (by decide))

theorem seenWord_getLsbD (seen : BitVec 256) (w : Nat) {b : Nat} (hb : b < 32) :
    (seenWord seen w).getLsbD b = seen.getLsbD (32 * w + b) := by
  simp [seenWord, hb]

/-- Settles O39: the count and the capacity fit their registers. -/
theorem derivedViewsShowTheState : Obligations.DerivedViewsShowTheState := by
  intro s
  refine ⟨uniq_toNat s.seen, ?_, fun w b hb => seenWord_getLsbD s.seen w hb, ?_⟩
  · exact (uniq_toNat s.seen).trans_le (uniqueBytes_le s.seen)
  · simp only [regRead, lowHalf_toNat, highHalf_toNat, msgCap_toNat]
    omega

/-! ### The digest's characters and the constant tables -/

theorem digestByte_toNat (s : Words8) (j : Nat) :
    (digestByte s j).toNat = (lane s (j / 4)).toNat / 2 ^ (8 * (j % 4)) % 256 :=
  byteOf_toNat _ _

theorem hexChar_toNat {n : Nat} (h : n < 16) :
    (hexChar n).toNat = if n < 10 then 0x30 + n else 0x61 + (n - 10) := by
  unfold hexChar
  split <;> simp only [BitVec.toNat_ofNat] <;> omega

/-- The value of hexadecimal digit c of the state: the high nibble of a byte first (R176). -/
def hexNibble (s : Words8) (c : Nat) : Nat :=
  if c % 2 = 0 then (digestByte s (c / 2)).toNat / 16 else (digestByte s (c / 2)).toNat % 16

theorem hexNibble_lt (s : Words8) (c : Nat) : hexNibble s c < 16 := by
  have := (digestByte s (c / 2)).isLt
  unfold hexNibble
  split <;> omega

theorem hexDigit_eq_hexChar (s : Words8) (c : Nat) : hexDigit s c = hexChar (hexNibble s c) := by
  unfold hexDigit hexNibble
  split <;> rfl

theorem byteOf_hexWord (s : Words8) (q : Nat) {k : Nat} (hk : k < 4) :
    byteOf (hexWord s q) k = hexDigit s (4 * q + k) := by
  obtain ⟨h0, h1, h2, h3⟩ := byteOf_le32 (hexDigit s (4 * q)) (hexDigit s (4 * q + 1))
    (hexDigit s (4 * q + 2)) (hexDigit s (4 * q + 3))
  interval_cases k <;> assumption

/-- Byte k of `HEX[q]` is the ASCII code of digit 4q + k (R177). -/
theorem hexWord_toNat_byte (s : Words8) (q : Nat) {k : Nat} (hk : k < 4) :
    (hexWord s q).toNat / 2 ^ (8 * k) % 256 =
      if hexNibble s (4 * q + k) < 10 then 0x30 + hexNibble s (4 * q + k)
      else 0x61 + (hexNibble s (4 * q + k) - 10) := by
  rw [← byteOf_toNat, byteOf_hexWord s q hk, hexDigit_eq_hexChar, hexChar_toNat (hexNibble_lt _ _)]

/-- The fast rotation amounts as a list of numbers (spec/10_state.md R34). -/
theorem fastRotAmount_toNat {r : Nat} (h : r < 8) :
    (fastRotAmount r).toNat = [7, 12, 17, 22, 5, 9, 14, 20].getD r 0 := by
  interval_cases r <;> rfl

theorem rotationAmount_toNat (p : Config.Params) {k : Nat} (h : k < 16) :
    (rotationAmount p k).toNat = if k < 8 then [7, 12, 17, 22, 5, 9, 14, 20].getD k 0
      else (p.rotationsHigh.toList.getD (k - 8) 0).toNat := by
  unfold rotationAmount
  rw [Nat.mod_eq_of_lt h]
  split
  next hlow => exact fastRotAmount_toNat hlow
  next hhigh =>
    have hk : k % 8 = k - 8 := by omega
    have hlt : k - 8 < p.rotationsHigh.toList.length := by simp; omega
    simp only [hk, List.getD_eq_getElem _ _ hlt, Vector.getElem_toList]

/-! ### A register access while idle -/

/-- A 4-byte read of a register returns its content and changes nothing of the engine (R70). -/
theorem step_read_reg {s : State} {a : Arrival} {rest : List Pending} (r : Reg) (hb : s.busy = false)
    (hi : s.inbox = ⟨a, .read (regOffset r) 4⟩ :: rest) :
    step s = .next { s with inbox := rest, replies := regRead r s :: s.replies } := by
  have hread : regRead r { s with inbox := rest } = regRead r s := by cases r <;> rfl
  rw [step_of_idle hb]
  simp [idleStep, takeInput, hi, commandWord, deliverIdle, readIdle, accessTarget_reg, targetRead,
    hread, reply]

/-- A 4-byte write of a writable register is that register's write and nothing else. -/
theorem step_write_reg {s : State} {a : Arrival} {rest : List Pending} {v : Word} (r : Reg)
    (hr : regAccess r = .rw) (hb : s.busy = false)
    (hi : s.inbox = ⟨a, .write (regOffset r) 4 v⟩ :: rest) :
    step s = .next (regWrite r v { s with inbox := rest }) := by
  have hcmd : regOffset r ≠ 0 := by
    intro h0
    cases (regAt_eq_some_iff 0 r).2 h0.symm
    cases hr
  have htarget : writeTarget s.cfg.msgCap (regOffset r) 4 = some (.reg r) := by
    simp [writeTarget, accessTarget_reg, Option.filter_some, targetWritable, hr]
  rw [step_of_idle hb]
  simp [idleStep, takeInput, hi, commandWord, hcmd, deliverIdle, writeIdle, htarget, targetWrite]

/-- Settles O40, one write of `step_write_reg` for each row. -/
theorem registerWritesStoreTheValue : Obligations.RegisterWritesStoreTheValue := by
  intro s v a rest off hb hi
  refine ⟨?_, ?_, ?_, ?_, ?_, ?_, ?_, ?_⟩
  · rintro rfl
    exact ⟨_, BitVec.extractLsb'_append_eq_right, BitVec.extractLsb'_append_eq_left,
      step_write_reg .mlenLo rfl hb hi⟩
  · rintro rfl
    exact ⟨_, BitVec.extractLsb'_append_eq_left, BitVec.extractLsb'_append_eq_right,
      step_write_reg .mlenHi rfl hb hi⟩
  · rintro rfl
    exact ⟨_, BitVec.extractLsb'_append_eq_right, BitVec.extractLsb'_append_eq_left,
      step_write_reg .blkLo rfl hb hi⟩
  · rintro rfl
    exact ⟨_, BitVec.extractLsb'_append_eq_left, BitVec.extractLsb'_append_eq_right,
      step_write_reg .blkHi rfl hb hi⟩
  · rintro rfl
    rw [step_write_reg .rc rfl hb hi, regWrite, ← BitVec.setWidth_eq_extractLsb' (by decide)]
  · rintro rfl
    rw [step_write_reg .rn rfl hb hi, regWrite, ← BitVec.setWidth_eq_extractLsb' (by decide)]
  · rintro i hlt rfl
    refine ⟨_, fun k hk => ?_, step_write_reg (.s ⟨i, hlt⟩) rfl hb hi⟩
    rw [lane_setLane, Nat.mod_eq_of_lt hk, Nat.mod_eq_of_lt hlt]
  · rintro j hlt rfl
    refine ⟨_, fun k hk => ?_, step_write_reg (.w ⟨j, hlt⟩) rfl hb hi⟩
    rw [blockWord_setBlockWord, Nat.mod_eq_of_lt hk, Nat.mod_eq_of_lt hlt]

/-- Settles O37, one read of `step_read_reg` for each row of Table R38. -/
theorem registerReadsHaveNoSideEffect : Obligations.RegisterReadsHaveNoSideEffect := by
  intro s a rest off hb hi
  have read : ∀ r, off = regOffset r →
      step s = .next { s with inbox := rest, replies := regRead r s :: s.replies } := by
    rintro r rfl
    exact step_read_reg r hb hi
  refine ⟨fun h => ⟨_, rfl, read .cmd h⟩,
    fun h => ⟨_, statusWord_toNat s, read .status h⟩,
    fun h => ⟨_, lowHalf_toNat s.mlen, read .mlenLo h⟩,
    fun h => ⟨_, highHalf_toNat s.mlen, read .mlenHi h⟩,
    fun h => ⟨_, lowHalf_toNat s.blk, read .blkLo h⟩,
    fun h => ⟨_, highHalf_toNat s.blk, read .blkHi h⟩,
    fun h => ⟨_, ?_, read .rc h⟩,
    fun h => ⟨_, ?_, read .rn h⟩,
    fun i hlt h => ⟨_, rfl, read (.s ⟨i, hlt⟩) h⟩,
    fun j hlt h => ⟨_, rfl, read (.w ⟨j, hlt⟩) h⟩,
    fun w hlt h => ⟨_, fun b hb => seenWord_getLsbD s.seen w hb, read (.seenW ⟨w, hlt⟩) h⟩,
    fun h => ⟨_, uniq_toNat s.seen, read .uniq h⟩,
    fun h => ⟨_, rfl, read .einfo h⟩,
    fun h => ⟨_, (lowHalf_toNat _).trans (by rw [msgCap_toNat]), read .msgcapLo h⟩,
    fun h => ⟨_, (highHalf_toNat _).trans (by rw [msgCap_toNat]), read .msgcapHi h⟩,
    fun q hlt h => ⟨_, fun k hk => ?_, read (.hex ⟨q, hlt⟩) h⟩,
    fun i hlt h => ⟨_, rfl, read (.prime ⟨i, hlt⟩) h⟩,
    fun i hlt h => ⟨_, rfl, read (.initialState ⟨i, hlt⟩) h⟩,
    fun k hlt h => ⟨_, ?_, read (.rotations ⟨k, hlt⟩) h⟩,
    fun r hlt h => ⟨_, ?_, read (.fastrot ⟨r, hlt⟩) h⟩⟩
  · exact BitVec.toNat_setWidth_of_le (by decide)
  · exact BitVec.toNat_setWidth_of_le (by decide)
  · exact (hexWord_toNat_byte s.s q hk).trans (by simp only [hexNibble, digestByte_toNat])
  · exact (BitVec.toNat_setWidth_of_le (by decide)).trans (rotationAmount_toNat s.cfg hlt)
  · exact (BitVec.toNat_setWidth_of_le (by decide)).trans (fastRotAmount_toNat hlt)

end Sys2Proof.Machine

/-! A command as the engine sees it: whatever reads and writes land while it runs, it goes on as with
no input at all, because no phase looks at the error record or at the host's side of the port. -/

namespace Sys2Proof.Machine

open Sys2Proof.Safety

/-! ### One engine step -/

theorem schedStep_engineView (s : State) :
    schedStep (engineView s) = viewOutcome engineView (schedStep s) := by
  unfold schedStep engineView
  cases s.mode with
  | fast => rfl
  | standard => cases firstUnwritten s.msg s.mlen.toNat 0 <;> rfl

theorem loadStep_engineView (s : State) :
    loadStep (engineView s) = viewOutcome engineView (loadStep s) := by
  simp only [loadStep, engineView]
  cases firstUnwritten s.msg (min s.mlen.toNat (64 * s.blk.toNat + 64) - 64 * s.blk.toNat)
    (64 * s.blk.toNat) <;> rfl

/-- A transition taken after a step that may stop, where the transition is blind to what the view
hides. -/
theorem andThen_goTo_engineView (o : Result) {next : State → Phase}
    (hnext : ∀ t, next (engineView t) = next t) :
    andThen (viewOutcome engineView o) (fun t => .next (goTo (next t) t)) =
      viewOutcome engineView (andThen o fun t => .next (goTo (next t) t)) := by
  cases o with
  | next t => simp only [viewOutcome, andThen_next, hnext]; rfl
  | fault f => rfl
  | refused r => rfl

/-- A phase commutes with the view: it neither reads nor writes what the view hides. -/
theorem phaseStep_engineView (s : State) :
    phaseStep (engineView s) = viewOutcome engineView (phaseStep s) := by
  have hph : (engineView s).seqPh = s.seqPh := rfl
  unfold phaseStep
  rw [hph]
  cases s.seqPh with
  | pSched => rw [schedStep_engineView]; exact andThen_goTo_engineView _ fun _ => rfl
  | pLoad => rw [loadStep_engineView]; exact andThen_goTo_engineView _ fun _ => rfl
  | idle | pInit | pTdiff | pRound | pFround | pChain => rfl

/-- One engine step during which no reset lands is, to the engine, the step with no input. -/
theorem tick_engineView {s : State} (hb : s.busy = true) (hn : noReset s.inbox) :
    tick (engineView s) = viewOutcome engineView (tick s) := by
  have hquiet : tick (engineView s) = phaseStep (engineView s) := tick_of_quiet hb nofun
  rcases tick_cases hb with ⟨u, hu, -, htick⟩ | ⟨_, _, _, _, p, hp, hreset⟩
  · rw [hquiet, htick, ← hu, phaseStep_engineView]
    cases phaseStep u <;> rfl
  · exact absurd hreset (hn p hp)

theorem tick_noReset {s t : State} (hb : s.busy = true) (hn : noReset s.inbox)
    (h : tick s = .next t) : noReset t.inbox := by
  rcases tick_cases hb with ⟨u, -, hu, htick⟩ | ⟨_, _, _, _, p, hp, hreset⟩
  · rw [htick] at h
    obtain ⟨v, hv, hnext⟩ := andThen_eq_next h
    cases hnext
    obtain ⟨-, -, -, -, -, -, -, -, hinbox, -, -⟩ := phaseStep_keeps hv
    have hleft : noReset u.inbox := fun p hp =>
      hn p ((hu ▸ deliverDue_inbox_suffix s.inbox s).subset hp)
    exact elapse_noReset (hinbox ▸ hleft)
  · exact absurd hreset (hn p hp)

/-! ### A run and a command -/

/-- A run with no reset among the inputs is, to the engine, the run with no input at all. -/
theorem runBusy_engineView (n : Nat) {s : State} (hn : noReset s.inbox) :
    runBusy n (engineView s) = viewOutcome engineView (runBusy n s) := by
  induction n generalizing s with
  | zero => rfl
  | succ n ih =>
    cases hb : s.busy with
    | false => rw [runBusy_idle _ hb, runBusy_idle _ (s := engineView s) hb]; rfl
    | true =>
      rw [runBusy_succ _ hb, runBusy_succ _ (s := engineView s) hb, tick_engineView hb hn]
      cases htick : tick s with
      | next t => exact ih (tick_noReset hb hn htick)
      | fault f => rfl
      | refused r => rfl

/-- The operand check of a command (R191 case 4). -/
def operandCheck : Instr → State → Option ErrorCause
  | .sched, s | .hash _, s => lengthCheck s
  | .load, s => loadCheck s
  | .fround, s => froundCheck s
  | .nop, _ | .clrerr, _ | .init _, _ | .tdiff, _ | .round, _ | .chain, _ | .compress, _ => none

/-- What a command does once it is accepted. -/
def acceptedRun : Instr → State → Result
  | .nop, s => .next s
  | .clrerr, s => .next (clearError s)
  | i, s => runBusy (stepBound i s) (startState i s)

theorem exec_eq_issue (i : Instr) (s : State) :
    exec i s = issue i (operandCheck i s) (acceptedRun i) s := by
  cases i <;> rfl

/-- To the engine, the acceptance of a command depends on nothing but `ERR` and what it computes
with. -/
theorem issue_engineView_congr (i : Instr) (check : Option ErrorCause) {run : State → Result}
    {s t : State} (hview : engineView s = engineView t) (herr : s.err = t.err)
    (hrun : viewOutcome engineView (run s) = viewOutcome engineView (run t)) :
    viewOutcome engineView (issue i check run s) = viewOutcome engineView (issue i check run t) := by
  obtain ⟨-, -, -, -, -, -, -, -, -, hbusy, -⟩ := eq_of_engineView_eq hview
  have hraise : ∀ e c, viewOutcome engineView (.next (raise e c s)) =
      viewOutcome engineView (.next (raise e c t)) := fun e c => by
    simp only [viewOutcome, engineView_raise, hview]
  unfold issue
  rw [hbusy, herr]
  split
  · exact hraise _ _
  · split
    · exact congrArg Host.Outcome.next hview
    · cases check with
      | none => exact hrun
      | some e => exact hraise _ _

theorem stepBound_engineView (i : Instr) (s : State) : stepBound i (engineView s) = stepBound i s := by
  cases i <;> rfl

theorem startState_engineView (i : Instr) (s : State) :
    startState i (engineView s) = engineView (startState i s) := by
  cases i <;> rfl

/-- What lands while an accepted command runs is, but for a reset, nothing to the engine. -/
theorem acceptedRun_engineView (i : Instr) {s : State} (hn : noReset s.inbox) :
    acceptedRun i (engineView s) = viewOutcome engineView (acceptedRun i s) := by
  have hrun : runBusy (stepBound i (engineView s)) (startState i (engineView s)) =
      viewOutcome engineView (runBusy (stepBound i s) (startState i s)) := by
    rw [stepBound_engineView, startState_engineView]
    exact runBusy_engineView _ (by simpa using hn)
  cases i with
  | nop | clrerr => rfl
  | init _ | sched | load | tdiff | round | fround | chain | compress | hash _ => exact hrun

theorem operandCheck_inbox (i : Instr) (s : State) (l : List Pending) :
    operandCheck i { s with inbox := l } = operandCheck i s := by
  cases i <;> rfl

/-- Settles O23: the two engines pass the same acceptance, and what they then run is to both the run
with no input at all. -/
theorem hostAccessesCannotDisturbACommand : Obligations.HostAccessesCannotDisturbACommand := by
  intro i s l hl
  rw [exec_eq_issue, exec_eq_issue, operandCheck_inbox i s l, operandCheck_inbox i s []]
  refine issue_engineView_congr i _ rfl rfl ?_
  calc viewOutcome engineView (acceptedRun i { s with inbox := l })
      = acceptedRun i (engineView s) := (acceptedRun_engineView i (s := { s with inbox := l }) hl).symm
    _ = viewOutcome engineView (acceptedRun i { s with inbox := [] }) :=
        acceptedRun_engineView i (s := { s with inbox := [] }) nofun

end Sys2Proof.Machine

/-! Accesses to single bytes of registers and to the message window while idle. -/

namespace Sys2Proof.Machine

open Sys2Proof.Safety

/-! ### An access while idle, by what it touches -/

@[simp] theorem regRead_inbox (r : Reg) (s : State) (l : List Pending) :
    regRead r { s with inbox := l } = regRead r s := by
  cases r <;> rfl

@[simp] theorem targetRead_inbox (t : Target) (s : State) (l : List Pending) :
    targetRead t { s with inbox := l } = targetRead t s := by
  cases t with
  | reg r | regByte r k => simp only [targetRead, regRead_inbox]
  | msgByte a | msgWord a => rfl

/-- A legal read while idle returns the data of what it touches, or stops at a byte that has no value. -/
theorem step_read_of_target {s : State} {a : Arrival} {rest : List Pending} {off n : Nat} {t : Target}
    (hb : s.busy = false) (hi : s.inbox = ⟨a, .read off n⟩ :: rest)
    (ht : accessTarget s.cfg.msgCap off n = some t) :
    (∀ v, targetRead t s = .ok v →
      step s = .next { s with inbox := rest, replies := v :: s.replies }) ∧
    (∀ b, targetRead t s = .error b → step s = .fault (.unwrittenMessageByte b)) := by
  rw [step_of_idle hb]
  constructor <;> intro x hx <;>
    simp [idleStep, takeInput, hi, commandWord, deliverIdle, readIdle, ht, hx, reply]

/-- A legal write while idle, other than a command, is the write of what it touches. -/
theorem step_write_of_target {s : State} {a : Arrival} {rest : List Pending} {off n : Nat} {v : Word}
    {t : Target} (hb : s.busy = false) (hi : s.inbox = ⟨a, .write off n v⟩ :: rest)
    (hcmd : off ≠ 0x000) (ht : writeTarget s.cfg.msgCap off n = some t) :
    step s = .next (targetWrite t v { s with inbox := rest }) := by
  rw [step_of_idle hb]
  simp [idleStep, takeInput, hi, commandWord, hcmd, deliverIdle, writeIdle, ht]

/-! ### What an access in the message window touches (spec/20_memory.md R62, R67) -/

theorem accessTarget_msgByte {cap a : Nat} (h : a < cap) :
    accessTarget cap (windowBase + a) 1 = some (.msgByte a) := by
  simp [accessTarget, h]

theorem accessTarget_msgWord {cap a : Nat} (hmod : a % 4 = 0) (h : a + 3 < cap) :
    accessTarget cap (windowBase + a) 4 = some (.msgWord a) := by
  simp [accessTarget, hmod, h]

/-- Of the legal accesses a write is legal where its target may be written (R67). -/
theorem writeTarget_of_writable {cap off n : Nat} {t : Target} (h : accessTarget cap off n = some t)
    (hw : targetWritable t = true) : writeTarget cap off n = some t := by
  rw [writeTarget, h, Option.filter_some, if_pos hw]

/-! ### The data of a read in the message window -/

theorem targetRead_msgByte {s : State} {a : Nat} {b : Byte} (h : msgRead s.msg a = some b) :
    targetRead (.msgByte a) s = .ok (b.setWidth 32) := by
  simp [targetRead, firstUnwritten, h, msgByte, byteData]

theorem targetRead_msgWord {s : State} {a : Nat} {b0 b1 b2 b3 : Byte} (h0 : msgRead s.msg a = some b0)
    (h1 : msgRead s.msg (a + 1) = some b1) (h2 : msgRead s.msg (a + 2) = some b2)
    (h3 : msgRead s.msg (a + 3) = some b3) :
    targetRead (.msgWord a) s = .ok (le32 b0 b1 b2 b3) := by
  simp [targetRead, firstUnwritten, h0, h1, h2, h3, msgByte]

/-- A read of bytes not all written names the lowest that is not. -/
theorem targetRead_unwritten {s : State} {a b : Nat} :
    (firstUnwritten s.msg 1 a = some b → targetRead (.msgByte a) s = .error b) ∧
    (firstUnwritten s.msg 4 a = some b → targetRead (.msgWord a) s = .error b) := by
  constructor <;> intro h <;> simp only [targetRead, h]

/-- Settles O43: the bytes a read touches are written, or the lowest that is not stops it. -/
theorem windowReadsReturnWrittenBytes : Obligations.WindowReadsReturnWrittenBytes := by
  intro s a w rest hb
  refine ⟨fun b ha hi h => ?_, fun b0 b1 b2 b3 hmod ha hi h0 h1 h2 h3 => ?_, fun ha hi h => ?_,
    fun b hmod ha hi hab hba h hlow => ?_⟩
  · exact (step_read_of_target hb hi (accessTarget_msgByte ha)).1 _ (targetRead_msgByte h)
  · exact (step_read_of_target hb hi (accessTarget_msgWord hmod ha)).1 _
      (targetRead_msgWord h0 h1 h2 h3)
  · have hfirst : firstUnwritten s.msg 1 a = some a :=
      (firstUnwritten_eq_some_iff _ _ _ _).2 ⟨le_rfl, by omega, h, fun c h1 h2 => by omega⟩
    exact (step_read_of_target hb hi (accessTarget_msgByte ha)).2 _ (targetRead_unwritten.1 hfirst)
  · have hfirst : firstUnwritten s.msg 4 a = some b :=
      (firstUnwritten_eq_some_iff _ _ _ _).2 ⟨hab, hba, h, hlow⟩
    exact (step_read_of_target hb hi (accessTarget_msgWord hmod ha)).2 _
      (targetRead_unwritten.2 hfirst)

/-! ### Writes in the message window -/

/-- Settles O42: the write of the byte or word at `a` stores into `MSG` alone. -/
theorem windowWritesStoreTheirBytes : Obligations.WindowWritesStoreTheirBytes := by
  intro s a v w rest hb
  have hcmd : windowBase + a ≠ 0x000 := by unfold windowBase; omega
  refine ⟨fun ha hi => ⟨_, fun b => msgRead_msgWrite s.msg a b (byteOf v 0), ?_⟩,
    fun hmod ha hi => ⟨_, fun b => msgRead_msgWriteWord s.msg a b v, ?_⟩⟩
  · exact step_write_of_target hb hi hcmd (writeTarget_of_writable (accessTarget_msgByte ha) rfl)
  · exact step_write_of_target hb hi hcmd (writeTarget_of_writable (accessTarget_msgWord hmod ha) rfl)

/-! ### Single bytes of registers -/

theorem byteData_byteOf (w : Word) (k : Nat) :
    byteData (byteOf w k) = BitVec.ofNat 32 (w.toNat / 2 ^ (8 * k) % 256) := by
  rw [← byteOf_toNat, byteData, BitVec.ofNat_toNat]

/-- A 1-byte read at byte k of a register returns that byte of its content (R66). -/
theorem step_read_regByte {s : State} {a : Arrival} {rest : List Pending} (r : Reg) {k : Nat}
    (hk : k < 4) (hb : s.busy = false) (hi : s.inbox = ⟨a, .read (regOffset r + k) 1⟩ :: rest) :
    step s = .next { s with
      inbox := rest
      replies := BitVec.ofNat 32 ((regRead r s).toNat / 2 ^ (8 * k) % 256) :: s.replies } := by
  rw [← byteData_byteOf]
  exact (step_read_of_target hb hi (accessTarget_regByte s.cfg.msgCap r hk)).1 _ rfl

/-- A 1-byte read of character c of the hexadecimal window returns its ASCII code (R177). -/
theorem step_read_hexChar {s : State} {a : Arrival} {rest : List Pending} {c : Nat} (hc : c < 64)
    (hb : s.busy = false) (hi : s.inbox = ⟨a, .read (0x0C0 + c) 1⟩ :: rest) :
    step s = .next { s with
      inbox := rest
      replies := BitVec.ofNat 32 (if hexNibble s.s c < 10 then 0x30 + hexNibble s.s c
        else 0x61 + (hexNibble s.s c - 10)) :: s.replies } := by
  have hq : c / 4 < 16 := by omega
  have hk : c % 4 < 4 := by omega
  have hoff : 0x0C0 + c = regOffset (.hex ⟨c / 4, hq⟩) + c % 4 := by simp only [regOffset]; omega
  have hread := step_read_regByte (.hex ⟨c / 4, hq⟩) hk hb (hoff ▸ hi)
  rwa [regRead, hexWord_toNat_byte s.s (c / 4) hk, Nat.div_add_mod] at hread

/-- A mapped register offset is the offset of a register. -/
theorem exists_reg_of_mapped {off : Nat} (hmod : off % 4 = 0) (hmap : mapped off) :
    ∃ r, off = regOffset r := by
  rcases regAt_cases off with ⟨r, -, hr, -⟩ | ⟨-, hoff | hoff⟩
  · exact ⟨r, hr⟩
  · exact absurd hmod hoff
  · exact absurd hmap hoff

/-- Settles O41: a byte of `S[j div 4]`, a character of the hexadecimal window, and a byte of any
register are each a 1-byte read of a register's byte. -/
theorem byteReadsGiveTheDigest : Obligations.ByteReadsGiveTheDigest := by
  intro s a rest hb byte char
  have hbyte : ∀ j, (digestByte s.s j).toNat = byte j := digestByte_toNat s.s
  refine ⟨fun j hj hi => ?_, fun j hj hi => ?_, fun j hj hi => ?_, fun off k hmod hmap hk hi => ?_⟩
  · have hlane : j / 4 < 8 := by omega
    have hoff : 0x020 + j = regOffset (.s ⟨j / 4, hlane⟩) + j % 4 := by simp only [regOffset]; omega
    exact step_read_regByte (.s ⟨j / 4, hlane⟩) (Nat.mod_lt j (by decide)) hb (hoff ▸ hi)
  · have hnibble : hexNibble s.s (2 * j) = byte j / 16 := by simp [hexNibble, hbyte]
    exact hnibble ▸ step_read_hexChar (c := 2 * j) (by omega) hb hi
  · have hdiv : (2 * j + 1) / 2 = j := by omega
    have hnibble : hexNibble s.s (2 * j + 1) = byte j % 16 := by
      rw [hexNibble, if_neg (by omega), hdiv, hbyte]
    exact hnibble ▸ step_read_hexChar (c := 2 * j + 1) (by omega) hb hi
  · obtain ⟨r, rfl⟩ := exists_reg_of_mapped hmod hmap
    refine ⟨regRead r s, ?_, step_read_regByte r hk hb hi⟩
    rw [← regRead_inbox r s (⟨a, .read (regOffset r) 4⟩ :: rest)]
    exact step_read_reg (s := { s with inbox := ⟨a, .read (regOffset r) 4⟩ :: rest }) r hb rfl

end Sys2Proof.Machine

/-! The command word (spec/30_encoding.md R90 to R93): it is its three fields, so a word and the command
it decodes to determine each other, and a row of Table R91 leaves no bit of it open but `F`. -/

namespace Sys2Proof

/-! ### The fields of a word -/

theorem fField_eq_fast_iff (c : Word) : fField c = .fast ↔ c.getLsbD 8 = true := by
  unfold fField
  split <;> simp_all

theorem fField_bit (c : Word) : (fField c).bit = c.extractLsb' 8 1 := by
  apply BitVec.eq_of_getLsbD_eq
  intro k hk
  obtain rfl : k = 0 := by omega
  unfold fField
  cases h : c.getLsbD 8 <;> rw [BitVec.getLsbD_extractLsb', h] <;> rfl

/-- A word is its fields `RSV`, `F` and `OPC` (R90). -/
theorem fields_append (c : Word) : rsvField c ++ (fField c).bit ++ opcField c = c := by
  apply BitVec.eq_of_toNat_eq
  simp only [fField_bit, rsvField, opcField, Machine.toNat_append_eq_add, BitVec.extractLsb'_toNat,
    Nat.shiftRight_eq_div_pow]
  omega

/-! ### Decoding -/

/-- The fields of a legal word are the opcode and the mode operand of its command (Table R91). -/
theorem decodeFields_eq_ok_iff (opc : Byte) (f : Mode) (i : Instr) :
    decodeFields opc f = .ok i ↔ opc = i.opcode ∧ f = i.modeOperand := by
  constructor
  · have plain : ∀ j : Instr, opc.toNat = j.opcode.toNat → j.modeOperand = .standard →
        withoutF f j = .ok i → opc = i.opcode ∧ f = i.modeOperand := by
      intro j hopc hj h
      cases f with
      | standard => cases h; exact ⟨BitVec.eq_of_toNat_eq hopc, hj.symm⟩
      | fast => cases h
    have modal : ∀ j : Instr, opc.toNat = j.opcode.toNat → j.modeOperand = f →
        Except.ok (ε := Reject) j = .ok i → opc = i.opcode ∧ f = i.modeOperand := by
      intro j hopc hj h
      cases h
      exact ⟨BitVec.eq_of_toNat_eq hopc, hj.symm⟩
    unfold decodeFields
    split
    next h => exact plain .nop h rfl
    next h => exact plain .clrerr h rfl
    next h => exact modal (.init f) h rfl
    next h => exact plain .sched h rfl
    next h => exact plain .load h rfl
    next h => exact plain .tdiff h rfl
    next h => exact plain .round h rfl
    next h => exact plain .fround h rfl
    next h => exact plain .chain h rfl
    next h => exact plain .compress h rfl
    next h => exact modal (.hash f) h rfl
    next => exact nofun
  · rintro ⟨rfl, rfl⟩
    cases i <;> rfl

/-- A word decodes to a command exactly when its fields are 0, the command's operand and its opcode. -/
theorem decode_eq_ok_iff_fields (c : Word) (i : Instr) :
    decode c = .ok i ↔ rsvField c = 0 ∧ opcField c = i.opcode ∧ fField c = i.modeOperand := by
  rw [← decodeFields_eq_ok_iff]
  unfold decode
  split <;> simp_all

/-- What the model's table says of a command's word, for every command. -/
theorem tableRow (i : Instr) : Laws.TableRow.Statement i := by
  cases i with
  | nop => exact Laws.TableRow.nop
  | clrerr => exact Laws.TableRow.clrerr
  | init f => exact Laws.TableRow.init f
  | sched => exact Laws.TableRow.sched
  | load => exact Laws.TableRow.load
  | tdiff => exact Laws.TableRow.tdiff
  | round => exact Laws.TableRow.round
  | fround => exact Laws.TableRow.fround
  | chain => exact Laws.TableRow.chain
  | compress => exact Laws.TableRow.compress
  | hash f => exact Laws.TableRow.hash f

theorem decode_encode (i : Instr) : decode (encode i) = .ok i := by
  obtain ⟨-, hdecode, -⟩ := tableRow i
  exact hdecode

theorem encode_of_decode {c : Word} {i : Instr} (h : decode c = .ok i) : encode i = c := by
  obtain ⟨hrsv, hopc, hf⟩ := (decode_eq_ok_iff_fields c i).1 h
  rw [← fields_append c, hrsv, hopc, hf]
  rfl

/-- Settles O2: a word is its fields, and those of a legal word are its command's. -/
theorem decodeAndEncodeAgree : Obligations.DecodeAndEncodeAgree :=
  ⟨fun i _ => decode_encode i, fun _ _ => encode_of_decode⟩

/-! ### The words no command has -/

/-- The opcodes of Table R91, and which of them take `F`, are those of the commands. -/
theorem exists_instr_iff (opc : Byte) (f : Mode) :
    (∃ i : Instr, opc = i.opcode ∧ f = i.modeOperand) ↔
      opc ∈ ([0x00, 0x01, 0x10, 0x11, 0x12, 0x13, 0x14, 0x15, 0x16, 0x17, 0x18] : List Byte) ∧
      (f = .fast → opc = 0x10 ∨ opc = 0x18) := by
  constructor
  · rintro ⟨i, rfl, rfl⟩
    cases i <;> simp [Instr.opcode, Instr.modeOperand]
  · rintro ⟨hopc, hf⟩
    cases f with
    | fast =>
      rcases hf rfl with rfl | rfl
      · exact ⟨.init .fast, rfl, rfl⟩
      · exact ⟨.hash .fast, rfl, rfl⟩
    | standard =>
      simp only [List.mem_cons, List.not_mem_nil, or_false] at hopc
      rcases hopc with rfl | rfl | rfl | rfl | rfl | rfl | rfl | rfl | rfl | rfl | rfl
      exacts [⟨.nop, rfl, rfl⟩, ⟨.clrerr, rfl, rfl⟩, ⟨.init .standard, rfl, rfl⟩, ⟨.sched, rfl, rfl⟩,
        ⟨.load, rfl, rfl⟩, ⟨.tdiff, rfl, rfl⟩, ⟨.round, rfl, rfl⟩, ⟨.fround, rfl, rfl⟩,
        ⟨.chain, rfl, rfl⟩, ⟨.compress, rfl, rfl⟩, ⟨.hash .standard, rfl, rfl⟩]

/-- Settles O3: a word is refused when no command has its fields. -/
theorem refusedWordsAreTheIllegalOnes : Obligations.RefusedWordsAreTheIllegalOnes := by
  intro c
  have hlegal : (∃ i, decode c = .ok i) ↔ rsvField c = 0 ∧ _ :=
    (exists_congr (decode_eq_ok_iff_fields c)).trans
      (exists_and_left.trans (and_congr_right fun _ => exists_instr_iff (opcField c) (fField c)))
  rw [← not_exists, hlegal, fField_eq_fast_iff]
  unfold rsvField opcField
  tauto

/-! ### The rows of Table R91 -/

/-- A row's mask leaves no bit open but `F`. -/
theorem mask_getLsbD : ∀ row ∈ opcodeTable, ∀ k, k < 32 → k ≠ 8 → row.mask.getLsbD k = true := by
  decide

/-- Two words a row selects differ in bit 8 at most. -/
theorem eq_of_selects {row : OpcodeRow} (hrow : row ∈ opcodeTable) {c d : Word}
    (hc : row.selects c = true) (hd : row.selects d = true) (h8 : c.getLsbD 8 = d.getLsbD 8) :
    c = d := by
  have hmask : c &&& row.mask = d &&& row.mask := (eq_of_beq hc).trans (eq_of_beq hd).symm
  apply BitVec.eq_of_getLsbD_eq
  intro k hk
  by_cases hk8 : k = 8
  · rw [hk8, h8]
  · have hbit := congrArg (BitVec.getLsbD · k) hmask
    simpa only [BitVec.getLsbD_and, mask_getLsbD row hrow k hk hk8, Bool.and_true] using hbit

/-- Settles O4: the row of a command's mnemonic selects the command's word, and with bit 8 no other. -/
theorem tableRowsSelectTheDecodedCommand : Obligations.TableRowsSelectTheDecodedCommand := by
  intro c i
  obtain ⟨-, hdecode, -, hf, hmem, hselects⟩ := tableRow i
  constructor
  · intro h
    obtain rfl := encode_of_decode h
    obtain ⟨row, hrow, hname⟩ := List.mem_map.1 hmem
    refine ⟨⟨row, hrow, ?_, hname⟩, ?_⟩
    · rw [hselects row hrow, hname, beq_self_eq_true]
    · rw [← fField_eq_fast_iff, hf]
  · rintro ⟨⟨row, hrow, hsel, hname⟩, h8⟩
    have hself : row.selects (encode i) = true := by rw [hselects row hrow, hname, beq_self_eq_true]
    have hbit : c.getLsbD 8 = (encode i).getLsbD 8 := by
      rw [Bool.eq_iff_iff, h8, ← fField_eq_fast_iff, hf]
    rw [eq_of_selects hrow hsel hself hbit, hdecode]

/-- Settles O1: the seven words are decoded by computation. -/
theorem sampleWordsDecode : Obligations.SampleWordsDecode :=
  ⟨rfl, rfl, rfl, rfl, rfl, rfl, rfl⟩

end Sys2Proof

/-! The run of a composite command with a quiet host (spec/46_sequencer.md R188 to R190): the rounds of a
block, the compression of a block, the blocks of a message, and the whole of `HASH`. A busy state is
written `goTo ph s`, so that what has been computed so far stands in `s` and the phase beside it. -/

namespace Sys2Proof.Machine

open Sys2Proof.Safety

/-- In a phase other than `IDLE` a run performs the phase first. -/
theorem runBusy_goTo {ph : Phase} {s : State} (n : Nat) (hph : ph ≠ .idle) (hq : quiet s) :
    runBusy (n + 1) (goTo ph s) = andThen (phaseStep (goTo ph s)) (runBusy n) := by
  have hb : (goTo ph s).busy = true := by simp [hph]
  rw [runBusy_succ n hb, tick_of_quiet hb hq]

/-- A run that reaches a state goes on from there. -/
theorem runBusy_trans {m n : Nat} {s t : State} {o : Result} (h : runBusy m s = .next t)
    (h' : runBusy n t = o) : runBusy (m + n) s = o := by
  rw [runBusy_add, h, andThen_next, h']

/-! ### The rounds of a block -/

/-- The rounds 0 .. n - 1 of a mode (R157, R171). -/
def roundsOf (p : Config.Params) (f : Mode) (w : Words16) (x : Words8) (n : Nat) : Words8 :=
  match f with
  | .standard => roundsUpTo p w x n
  | .fast => fastRoundsUpTo p w x n

theorem roundsOf_zero (p : Config.Params) (f : Mode) (w : Words16) (x : Words8) :
    roundsOf p f w x 0 = x := by
  cases f <;> rfl

/-- The number of rounds of a block: `RC`, or eight (R157, R171). -/
def roundTotal (s : State) : Nat :=
  match s.mode with
  | .standard => s.rc.toNat
  | .fast => Config.roundsFast

/-- The phase of a round (Table R190). -/
def roundPhase : Mode → Phase
  | .standard => .pRound
  | .fast => .pFround

/-- Where the loop over the rounds stands: before another round, or before `P_CHAIN` (Table R190). -/
def loopPhase (s : State) : Phase :=
  if s.rn.toNat < roundTotal s then roundPhase s.mode else .pChain

/-- The state words the first round of a block starts from (R157, R171). -/
def diffused (p : Config.Params) (f : Mode) (w : Words16) (x : Words8) : Words8 :=
  match f with
  | .standard => tdiff p x w
  | .fast => x

theorem roundTotal_lt (s : State) : roundTotal s < 2 ^ 6 := by
  unfold roundTotal
  cases s.mode with
  | standard => exact s.rc.isLt
  | fast => exact (by decide : Config.roundsFast < 2 ^ 6)

/-- The block function of a mode is its rounds on the diffused state and the chaining step (R157,
R171). -/
theorem foldBlock_eq_chain (s : State) :
    foldBlock s.cfg s.mode s.rc.toNat s.s s.w =
      chain s.cfg (roundsOf s.cfg s.mode s.w (diffused s.cfg s.mode s.w s.s) (roundTotal s)) := by
  unfold foldBlock roundsOf roundTotal diffused
  cases s.mode <;> rfl

theorem afterRound_eq_loopPhase {s : State} (hc : runsComposite s = true) (hm : s.mode = .standard) :
    afterRound s = loopPhase s := by
  simp [afterRound, loopPhase, roundTotal, roundPhase, hc, hm]

theorem afterFround_eq_loopPhase {s : State} (hc : runsComposite s = true) (hm : s.mode = .fast) :
    afterFround s = loopPhase s := by
  simp [afterFround, loopPhase, roundTotal, roundPhase, hc, hm]

theorem afterTdiff_eq_loopPhase {s : State} (hc : runsComposite s = true) (hm : s.mode = .standard)
    (hrn : s.rn = 0) : afterTdiff s = loopPhase s := by
  simp [afterTdiff, loopPhase, roundTotal, roundPhase, hc, hm, hrn]

theorem compressPhase_eq_loopPhase {s : State} (hm : s.mode = .fast) (hrn : s.rn = 0) :
    compressPhase s = loopPhase s := by
  simp [compressPhase, loopPhase, roundTotal, roundPhase, hm, hrn, Config.roundsFast]

/-- The state after one more round on the words `x` of the first (R154, R170). -/
def roundDone (s : State) (x : Words8) : State :=
  { s with s := roundsOf s.cfg s.mode s.w x (s.rn.toNat + 1), rn := s.rn + 1 }

/-- One round of the loop, in either mode. -/
theorem phaseStep_round {s : State} {x : Words8} (hc : runsComposite s = true)
    (hlt : s.rn.toNat < roundTotal s) (hx : s.s = roundsOf s.cfg s.mode s.w x s.rn.toNat) :
    phaseStep (goTo (loopPhase s) s) =
      .next (goTo (loopPhase (roundDone s x)) (roundDone s x)) := by
  cases hm : s.mode with
  | standard =>
    have ht : roundStep s = roundDone s x := by
      simp only [roundDone, roundStep, hx, hm, roundsOf, roundsUpTo]
    have hloop : loopPhase s = .pRound := by simp [loopPhase, roundPhase, hlt, hm]
    rw [hloop, ← ht, ← afterRound_eq_loopPhase (s := roundStep s) hc hm]
    rfl
  | fast =>
    have ht : froundStep s = roundDone s x := by
      simp only [roundDone, froundStep, hx, hm, roundsOf, fastRoundsUpTo]
    have hloop : loopPhase s = .pFround := by simp [loopPhase, roundPhase, hlt, hm]
    rw [hloop, ← ht, ← afterFround_eq_loopPhase (s := froundStep s) hc hm]
    rfl

/-- The rounds that are left bring the loop to `P_CHAIN`. -/
theorem runBusy_rounds {s : State} {x : Words8} (k : Nat) (hq : quiet s)
    (hc : runsComposite s = true) (hk : s.rn.toNat + k = roundTotal s)
    (hx : s.s = roundsOf s.cfg s.mode s.w x s.rn.toNat) :
    runBusy k (goTo (loopPhase s) s) = .next (goTo .pChain { s with
      s := roundsOf s.cfg s.mode s.w x (roundTotal s), rn := BitVec.ofNat 6 (roundTotal s) }) := by
  induction k generalizing s with
  | zero =>
    have hloop : loopPhase s = .pChain := if_neg (by omega)
    rw [runBusy_zero, hloop, ← hk, Nat.add_zero, ← hx, BitVec.ofNat_toNat, BitVec.setWidth_eq]
  | succ k ih =>
    have hlt : s.rn.toNat < roundTotal s := by omega
    have hrn : (s.rn + 1).toNat = s.rn.toNat + 1 :=
      toNat_add_one _ (Nat.lt_of_le_of_lt hlt (roundTotal_lt s))
    have hloop : loopPhase s ≠ .idle := by
      unfold loopPhase
      rw [if_pos hlt]
      cases s.mode <;> simp [roundPhase]
    rw [runBusy_goTo k hloop hq, phaseStep_round hc hlt hx, andThen_next]
    have hk' : (s.rn + 1).toNat + k = roundTotal s := by omega
    exact ih (s := roundDone s x) hq hc hk' (by rw [roundDone, hrn])

/-! ### The compression of a block -/

/-- The block in `W` folded into `S`, as `P_CHAIN` leaves it (R188). -/
def folded (s : State) : State :=
  { s with s := foldBlock s.cfg s.mode s.rc.toNat s.s s.w, rn := 0, blk := s.blk + 1 }

/-- The state with its words diffused, as the first round finds it (Table R190). -/
def diffusedState (s : State) : State := { s with s := diffused s.cfg s.mode s.w s.s }

/-- The rounds of a block, and `P_CHAIN`. -/
theorem runBusy_rounds_chain {s : State} (hq : quiet s) (hc : runsComposite s = true)
    (hrn : s.rn = 0) :
    runBusy (roundTotal s + 1) (goTo (loopPhase (diffusedState s)) (diffusedState s)) =
      .next (goTo (afterChain (folded s)) (folded s)) := by
  have hstart : (diffusedState s).rn.toNat = 0 := by simp [diffusedState, hrn]
  have hrounds := runBusy_rounds (s := diffusedState s) (x := (diffusedState s).s) (roundTotal s) hq hc
    (by rw [hstart, Nat.zero_add]; rfl) (by rw [hstart, roundsOf_zero])
  refine runBusy_trans hrounds ?_
  rw [folded, foldBlock_eq_chain]
  exact runBusy_goTo (ph := .pChain) (s := { diffusedState s with s := _, rn := _ }) 0 (by simp) hq

/-- The compression of a block, from its first phase until `P_CHAIN` has been performed (R188). -/
theorem runBusy_compression {s : State} (hq : quiet s) (hc : runsComposite s = true)
    (hrn : s.rn = 0) :
    runBusy (compressSteps s) (goTo (compressPhase s) s) =
      .next (goTo (afterChain (folded s)) (folded s)) := by
  rw [← runBusy_rounds_chain hq hc hrn]
  cases hm : s.mode with
  | standard =>
    have hsteps : compressSteps s = roundTotal s + 1 + 1 := by
      simp only [compressSteps, roundTotal, hm]; omega
    have hph : compressPhase s = .pTdiff := by simp [compressPhase, hm]
    have ht : tdiffStep s = diffusedState s := by
      simp only [tdiffStep, diffusedState, diffused, hm]
    rw [hsteps, hph, runBusy_goTo _ (by simp) hq, ← ht,
      ← afterTdiff_eq_loopPhase (s := tdiffStep s) hc hm hrn]
    rfl
  | fast =>
    have hsteps : compressSteps s = roundTotal s + 1 := by simp only [compressSteps, roundTotal, hm]
    have hx : diffused s.cfg s.mode s.w s.s = s.s := by rw [hm]; rfl
    have ht : diffusedState s = s := by rw [diffusedState, hx]
    rw [hsteps, ht, compressPhase_eq_loopPhase hm hrn]

/-! ### The blocks of a message -/

/-- The state after `P_LOAD` (R126). -/
def loaded (s : State) : State :=
  { s with w := framedBlock (msgByte s.msg) s.mlen.toNat s.blk.toNat }

theorem loadStep_of_written {s : State} (hw : messageWritten s) : loadStep s = .next (loaded s) := by
  rcases loadStep_cases s with ⟨a, ha, -⟩ | ⟨-, h⟩
  · obtain ⟨hlow, hhigh, hnone, -⟩ := (firstUnwritten_eq_some_iff _ _ _ _).1 ha
    have hlt : a < s.mlen.toNat := by omega
    simpa [hnone] using hw a hlt
  · exact h

theorem blk_add_one {s : State} (hblk : blockExists s) : (s.blk + 1).toNat = s.blk.toNat + 1 := by
  refine toNat_add_one _ ?_
  have := s.mlen.isLt
  unfold blockExists blockCount at hblk
  omega

/-- One block of `HASH` (R189): after the last block `BLK` is `NB`. -/
theorem runBusy_block {s : State} (hq : quiet s) (hh : runsHash s = true) (hw : messageWritten s)
    (hrn : s.rn = 0) (hblk : blockExists s) :
    runBusy (1 + compressSteps s) (goTo .pLoad s) =
      .next (goTo (if s.blk.toNat + 1 < blockCount s.mlen.toNat then .pLoad else .idle)
        (folded (loaded s))) := by
  have hload : phaseStep (goTo .pLoad s) = .next (goTo (compressPhase s) (loaded s)) := by
    have hstep : loadStep (goTo .pLoad s) = .next (loaded (goTo .pLoad s)) := loadStep_of_written hw
    have hafter : afterLoad s = compressPhase s := if_pos hh
    rw [← hafter]
    simp only [phaseStep, goTo_seqPh, hstep, andThen_next]
    rfl
  have hnext : afterChain (folded (loaded s)) =
      if s.blk.toNat + 1 < blockCount s.mlen.toNat then .pLoad else .idle := by
    have hhash : runsHash (folded (loaded s)) = true := hh
    rw [← blk_add_one hblk, afterChain, hhash, Bool.true_and]
    simp only [decide_eq_true_eq]
    rfl
  have hc : runsComposite s = true := by simp [runsComposite, hh]
  rw [Nat.add_comm, runBusy_goTo _ (by simp) hq, hload, andThen_next, ← hnext]
  exact runBusy_compression (s := loaded s) hq hc hrn

/-- The state words after the blocks below `k` of the message in the buffer (R194). -/
def chained (s : State) (k : Nat) : Words8 :=
  chainValue s.cfg s.mode s.rc.toNat (msgByte s.msg) s.mlen.toNat k

/-- A block carries the chained words on to the next. -/
theorem folded_loaded {s : State} (hx : s.s = chained s s.blk.toNat) :
    folded (loaded s) = { s with
      s := chained s (s.blk.toNat + 1)
      w := framedBlock (msgByte s.msg) s.mlen.toNat s.blk.toNat
      blk := s.blk + 1
      rn := 0 } := by
  simp only [folded, loaded, chained, chainValue, hx]

/-- The blocks that are left bring `HASH` to its end (R189). -/
theorem runBusy_blocks {s : State} (k : Nat) (hq : quiet s) (hh : runsHash s = true)
    (hw : messageWritten s) (hrn : s.rn = 0) (hx : s.s = chained s s.blk.toNat)
    (hk : s.blk.toNat + (k + 1) = blockCount s.mlen.toNat) :
    runBusy ((k + 1) * (1 + compressSteps s)) (goTo .pLoad s) = .next (goTo .idle { s with
      s := chained s (blockCount s.mlen.toNat)
      w := framedBlock (msgByte s.msg) s.mlen.toNat (blockCount s.mlen.toNat - 1)
      blk := BitVec.ofNat 64 (blockCount s.mlen.toNat)
      rn := 0 }) := by
  induction k generalizing s with
  | zero =>
    have hblk : blockExists s := by unfold blockExists; omega
    have hlast : s.blk.toNat = blockCount s.mlen.toNat - 1 := by omega
    have hend : s.blk + 1 = BitVec.ofNat 64 (blockCount s.mlen.toNat) := by
      rw [← hk, ← blk_add_one hblk, BitVec.ofNat_toNat, BitVec.setWidth_eq]
    rw [Nat.zero_add, Nat.one_mul, runBusy_block hq hh hw hrn hblk, if_neg (by omega),
      folded_loaded hx, hk, hend, hlast]
  | succ k ih =>
    have hblk : blockExists s := by unfold blockExists; omega
    have hnext := blk_add_one hblk
    have hblock := runBusy_block hq hh hw hrn hblk
    rw [if_pos (by omega), folded_loaded hx, ← hnext] at hblock
    rw [Nat.succ_mul, Nat.add_comm]
    exact runBusy_trans hblock (ih (s := { s with s := _, w := _, blk := s.blk + 1, rn := 0 })
      hq hh hw rfl rfl (by simp only [hnext]; omega))

/-! ### The message in the buffer -/

/-- The bytes the engine reads of the message are the message's. -/
theorem msgByte_of_holdsMessage {s : State} {m : List Byte} (hm : holdsMessage s m) :
    ∀ a, a < m.length → msgByte s.msg a = messageAt m a := by
  intro a ha
  rw [msgByte, hm.2 a ha, messageAt, List.getD_eq_getElem?_getD]

theorem messageWritten_of_holdsMessage {s : State} {m : List Byte} (hm : holdsMessage s m) :
    messageWritten s := by
  intro a ha
  rw [hm.1] at ha
  rw [hm.2 a ha, List.getElem?_eq_getElem ha]
  rfl

/-- A block of the padded message depends on the message's bytes below its length only. -/
theorem framedBlock_congr {f g : Nat → Byte} {l : Nat} (h : ∀ a, a < l → f a = g a) (k : Nat) :
    framedBlock f l k = framedBlock g l k := by
  have hbyte : ∀ j, paddedByte f l j = paddedByte g l j := fun j => paddedByte_congr (h j)
  simp only [framedBlock, funext fun j => (by simp only [framedWord, hbyte] :
    framedWord f l k j = framedWord g l k j)]

theorem chainValue_congr {f g : Nat → Byte} {l : Nat} (h : ∀ a, a < l → f a = g a)
    (p : Config.Params) (x : Mode) (rc k : Nat) :
    chainValue p x rc f l k = chainValue p x rc g l k := by
  induction k with
  | zero => rfl
  | succ k ih => simp only [chainValue, ih, framedBlock_congr h k]

/-! ### The round count (spec/42_round_schedule.md R135 to R138) -/

/-- The source counts the byte values that `SEEN` marks. -/
theorem uniqueBytes_presence (m : List Byte) :
    uniqueBytes (presence (messageAt m) m.length) = distinctBytes m := by
  refine List.countP_congr fun b hb => ?_
  rw [presence_getLsbD _ _ b (List.mem_range.1 hb)]
  have hbyte : ∀ x : Byte, x.toNat = b ↔ x = BitVec.ofNat 8 b := by
    intro x
    have := List.mem_range.1 hb
    rw [← BitVec.toNat_inj, BitVec.toNat_ofNat]
    omega
  simp only [List.any_eq_true, beq_iff_eq, hbyte, List.mem_iff_getElem]
  constructor
  · rintro ⟨a, ha, h⟩
    exact ⟨_, ⟨a, ha, rfl⟩, by rwa [messageAt, List.getD_eq_getElem _ _ ha] at h⟩
  · rintro ⟨_, ⟨a, ha, rfl⟩, h⟩
    exact ⟨a, ha, by rwa [messageAt, List.getD_eq_getElem _ _ ha]⟩

theorem distinctBytes_le (m : List Byte) : distinctBytes m ≤ 256 :=
  le_trans List.countP_le_length (by simp)

/-- The engine's round count is the source's, the empty message included (R138). -/
theorem rounds_standard_eq (m : List Byte) : rounds m .standard = scheduledRounds (distinctBytes m) := by
  have hnil : m = [] → distinctBytes m = 0 := by rintro rfl; simp [distinctBytes]
  simp only [rounds, scheduledRounds]
  split
  next h => rw [hnil h]; rfl
  next => omega

theorem rounds_lt (m : List Byte) (f : Mode) : rounds m f < 2 ^ 6 := by
  have := distinctBytes_le m
  cases f with
  | standard => rw [rounds_standard_eq, scheduledRounds, Config.roundsBase]; omega
  | fast => exact (by decide : Config.roundsFast < 2 ^ 6)

/-- `SEEN` as `SCHED` leaves it (R141). -/
def scheduledSeen (m : List Byte) : Mode → BitVec 256
  | .standard => presence (messageAt m) m.length
  | .fast => 0

/-- `SCHED` on the message in the buffer (R141). -/
theorem schedStep_of_holdsMessage {s : State} {m : List Byte} (hm : holdsMessage s m) :
    schedStep s = .next { s with
      seen := scheduledSeen m s.mode, rc := BitVec.ofNat 6 (rounds m s.mode) } := by
  have hpresence : presence (msgByte s.msg) s.mlen.toNat = presence (messageAt m) m.length := by
    rw [hm.1]; exact presence_congr (msgByte_of_holdsMessage hm)
  rcases schedStep_cases s with ⟨hmode, h⟩ | ⟨-, a, ha, -⟩ | ⟨hmode, -, h⟩
  · rw [h, hmode]; rfl
  · obtain ⟨-, hlt, hnone, -⟩ := (firstUnwritten_eq_some_iff _ _ _ _).1 ha
    simpa [hnone] using messageWritten_of_holdsMessage hm a (by omega)
  · rw [h, hmode, hpresence, uniqueBytes_presence, ← rounds_standard_eq]; rfl

/-! ### `HASH` -/

/-- What `HASH` leaves of the message `m` in mode `f` (R189, R194). -/
def hashed (s : State) (m : List Byte) (f : Mode) : State :=
  { s with
    s := digestState s.cfg m f
    mode := f
    rc := BitVec.ofNat 6 (rounds m f)
    seen := scheduledSeen m f
    w := framedBlock (messageAt m) m.length (blockCount m.length - 1)
    blk := BitVec.ofNat 64 (blockCount m.length)
    rn := 0
    seqOp := 0x18
    seqF := f }

/-- The engine steps of a block of `HASH` (R189). -/
def blockSteps (m : List Byte) : Mode → Nat
  | .standard => 3 + rounds m .standard
  | .fast => 10

/-- The engine steps of `HASH` (R189). -/
def hashSteps (m : List Byte) (f : Mode) : Nat := 2 + blockCount m.length * blockSteps m f

/-- `HASH` after `P_INIT` (R187). -/
def hashInitialised (s : State) (f : Mode) : State := initStep f { s with seqOp := 0x18, seqF := f }

/-- `HASH` after `P_SCHED` (R141). -/
def hashScheduled (s : State) (m : List Byte) (f : Mode) : State :=
  { hashInitialised s f with seen := scheduledSeen m f, rc := BitVec.ofNat 6 (rounds m f) }

theorem hashScheduled_rc (s : State) (m : List Byte) (f : Mode) :
    (hashScheduled s m f).rc.toNat = rounds m f :=
  Nat.mod_eq_of_lt (rounds_lt m f)

theorem compressSteps_hashScheduled (s : State) (m : List Byte) (f : Mode) :
    1 + compressSteps (hashScheduled s m f) = blockSteps m f := by
  cases f with
  | standard =>
    have hsteps : compressSteps (hashScheduled s m .standard) = 2 + rounds m .standard :=
      congrArg (2 + ·) (hashScheduled_rc s m .standard)
    rw [hsteps, blockSteps]
    omega
  | fast => rfl

/-- The words `HASH` has chained after every block are the digest contract's (R194). -/
theorem chained_hashScheduled {s : State} {m : List Byte} (f : Mode) (hm : holdsMessage s m) :
    chained (hashScheduled s m f) (blockCount m.length) = digestState s.cfg m f := by
  rw [chained, hashScheduled_rc]
  calc chainValue s.cfg f (rounds m f) (msgByte s.msg) s.mlen.toNat (blockCount m.length)
      = chainValue s.cfg f (rounds m f) (msgByte s.msg) m.length (blockCount m.length) := by rw [hm.1]
    _ = digestState s.cfg m f := chainValue_congr (msgByte_of_holdsMessage hm) _ _ _ _

/-- `P_INIT` and `P_SCHED` of `HASH`. -/
theorem runBusy_hash_schedule {s : State} {m : List Byte} (f : Mode) (hq : quiet s)
    (hm : holdsMessage s m) :
    runBusy 2 (startState (.hash f) s) = .next (goTo .pLoad (hashScheduled s m f)) := by
  have hinit : runBusy 1 (startState (.hash f) s) = .next (goTo .pSched (hashInitialised s f)) :=
    runBusy_goTo (ph := .pInit) (s := { s with seqOp := 0x18, seqF := f }) 0 (by simp) hq
  have hsched : phaseStep (goTo .pSched (hashInitialised s f)) =
      .next (goTo .pLoad (hashScheduled s m f)) := by
    simp only [phaseStep, goTo_seqPh, andThen_next,
      schedStep_of_holdsMessage (s := goTo .pSched (hashInitialised s f)) hm]
    rfl
  refine runBusy_trans (m := 1) (n := 1) hinit ?_
  rw [runBusy_goTo (s := hashInitialised s f) 0 (by simp) hq, hsched, andThen_next, runBusy_zero]

/-- `HASH` from its acceptance to its end, engine step by engine step (R189). -/
theorem runBusy_hash {s : State} {m : List Byte} (f : Mode) (hq : quiet s) (hm : holdsMessage s m) :
    runBusy (hashSteps m f) (startState (.hash f) s) = .next (goTo .idle (hashed s m f)) := by
  have hmlen : (hashScheduled s m f).mlen.toNat = m.length := hm.1
  have hpos : blockCount m.length - 1 + 1 = blockCount m.length := rfl
  have hbyte : ∀ a, a < m.length → msgByte (hashScheduled s m f).msg a = messageAt m a :=
    msgByte_of_holdsMessage hm
  have hblocks := runBusy_blocks (s := hashScheduled s m f) (blockCount m.length - 1) hq rfl
    (messageWritten_of_holdsMessage hm) rfl rfl (by rw [hmlen, hpos]; exact Nat.zero_add _)
  rw [hmlen, hpos, chained_hashScheduled f hm, framedBlock_congr hbyte,
    compressSteps_hashScheduled] at hblocks
  exact runBusy_trans (runBusy_hash_schedule f hq hm) hblocks

/-- A ready engine with a quiet host performs `HASH` (R189, R194). -/
theorem exec_hash {s : State} {m : List Byte} {f : Mode} (hr : ready s) (hq : quiet s)
    (hl : lengthFits s) (hm : holdsMessage s m) :
    exec (.hash f) s = .next (goTo .idle (hashed s m f)) := by
  have hsteps : hashSteps m f ≤ stepBound (.hash f) s := by
    have hblock : blockSteps m f ≤ 3 + 63 := by
      have := rounds_lt m .standard
      cases f <;> simp only [blockSteps] <;> omega
    rw [stepBound, hashStepBound, hm.1]
    exact Nat.add_le_add_left (Nat.mul_le_mul_left _ hblock) 2
  obtain ⟨rest, hrest⟩ := Nat.exists_eq_add_of_le hsteps
  rw [exec_of_legal hr.1 hr.2 (by cases f <;> simpa [operandsLegal] using hl) (by simp) (by simp),
    hrest]
  exact runBusy_trans (runBusy_hash f hq hm) (runBusy_idle rest rfl)

end Sys2Proof.Machine

/-! The host's script of a digest (spec/30_encoding.md R97): the message and its length are stored, `HASH`
runs while the polls of `WAIT` land, and the reads of `DIGEST` return the words of the final state. -/

namespace Sys2Proof.Machine

open Sys2Proof.Safety

/-! ### Steps in a row -/

/-- Some number of steps leads from `s` to `t`. -/
def Reaches (s t : State) : Prop := ∃ n, runSteps n s = .next t

theorem Reaches.refl (s : State) : Reaches s s := ⟨0, rfl⟩

theorem Reaches.step {s t u : State} (h : Machine.step s = .next t) (h' : Reaches t u) : Reaches s u := by
  obtain ⟨n, hn⟩ := h'
  exact ⟨n + 1, by rw [runSteps, h, andThen_next, hn]⟩

theorem Reaches.trans {s t u : State} (h : Reaches s t) (h' : Reaches t u) : Reaches s u := by
  obtain ⟨n, hn⟩ := h
  induction n generalizing s with
  | zero => cases hn; exact h'
  | succ n ih =>
    obtain ⟨v, hv, hn⟩ := andThen_eq_next hn
    exact .step hv (ih hn)

/-! ### `MSG` -/

/-- An input the host sends once it has seen `BUSY = 0`. -/
def idleInput (i : HostInput) : Pending := ⟨.whenIdle, i⟩

/-- The buffer with the bytes of `m` stored from address `a` on. -/
def storeBytes : List Host.Cell → Nat → List Byte → List Host.Cell
  | buffer, _, [] => buffer
  | buffer, a, b :: m => storeBytes (msgWrite buffer a b) (a + 1) m

theorem msgRead_storeBytes (buffer : List Host.Cell) (a : Nat) (m : List Byte) (x : Nat) :
    msgRead (storeBytes buffer a m) x =
      if a ≤ x ∧ x < a + m.length then m[x - a]? else msgRead buffer x := by
  induction m generalizing buffer a with
  | nil => rw [if_neg (by simp)]; rfl
  | cons b m ih =>
    rw [storeBytes, ih, msgRead_msgWrite, List.length_cons]
    by_cases hx : x = a
    · subst hx
      rw [if_neg (by omega), if_pos rfl, if_pos (by omega), Nat.sub_self]
      rfl
    · rw [if_neg hx]
      by_cases hin : a + 1 ≤ x ∧ x < a + 1 + m.length
      · have hsub : x - a = x - (a + 1) + 1 := by omega
        rw [if_pos hin, if_pos (by omega), hsub, List.getElem?_cons_succ]
      · rw [if_neg hin, if_neg (by omega)]

theorem byteOf_byteData (b : Byte) : byteOf (byteData b) 0 = b := by
  apply BitVec.eq_of_toNat_eq
  have := b.isLt
  rw [byteOf_toNat, byteData, BitVec.toNat_setWidth]
  omega

/-- The byte writes of `MSG` store the message's bytes. -/
theorem reaches_messageBytes {s : State} {a : Nat} {m : List Byte} {rest : List Pending}
    (hb : s.busy = false) (hcap : a + m.length ≤ s.cfg.msgCap)
    (hi : s.inbox = (messageBytes a m).map idleInput ++ rest) :
    Reaches s { s with inbox := rest, msg := storeBytes s.msg a m } := by
  induction m generalizing s a with
  | nil =>
    have hs : { s with inbox := rest, msg := storeBytes s.msg a [] } = s := by
      rw [show rest = s.inbox from hi.symm]; rfl
    rw [hs]
    exact .refl s
  | cons b m ih =>
    rw [List.length_cons] at hcap
    have hcmd : windowBase + a ≠ 0x000 := by unfold windowBase; omega
    have hwrite := step_write_of_target hb hi hcmd
      (writeTarget_of_writable (accessTarget_msgByte (a := a) (by omega)) rfl)
    rw [targetWrite, byteOf_byteData] at hwrite
    exact .step hwrite (ih (s := { s with inbox := _, msg := _ }) hb (by simp only; omega) rfl)

/-- The two writes of the length store it. -/
theorem reaches_mlen {s : State} {v : Dword} {rest : List Pending} (hb : s.busy = false)
    (hi : s.inbox = idleInput (lineWR (.reg .mlenLo) (v.extractLsb' 0 32)) ::
      idleInput (lineWR (.reg .mlenHi) (v.extractLsb' 32 32)) :: rest) :
    Reaches s { s with inbox := rest, mlen := v } := by
  refine .step (step_write_reg .mlenLo rfl hb hi) (.step (step_write_reg .mlenHi rfl hb rfl) ?_)
  have hv : v.extractLsb' 32 32 ++ (s.mlen.extractLsb' 32 32 ++ v.extractLsb' 0 32).extractLsb' 0 32 =
      v := by
    rw [BitVec.extractLsb'_append_eq_right]
    apply BitVec.eq_of_toNat_eq
    rw [toNat_append_eq_add, lowHalf_toNat, highHalf_toNat]
    omega
  simp only [regWrite, hv]
  exact .refl _

/-- `MSG` on an idle engine: it holds the message, and nothing is read or recorded. -/
theorem reaches_scriptMSG {s : State} {m : List Byte} {rest : List Pending} (hr : ready s)
    (hcap : m.length ≤ s.cfg.msgCap) (hi : s.inbox = (scriptMSG m).map idleInput ++ rest) :
    ∃ t, Reaches s t ∧ ready t ∧ holdsMessage t m ∧ t.cfg = s.cfg ∧ t.inbox = rest ∧
      t.replies = s.replies := by
  have hbytes := reaches_messageBytes (a := 0) (m := m) hr.1 (by omega)
    (hi.trans (by rw [scriptMSG, List.map_append, List.append_assoc]))
  refine ⟨_, hbytes.trans (reaches_mlen (v := BitVec.ofNat 64 m.length) hr.1 rfl), hr, ⟨?_, ?_⟩,
    rfl, rfl, rfl⟩
  · exact Nat.mod_eq_of_lt (hcap.trans_lt (msgCap_lt s.cfg))
  · intro a ha
    simp only
    rw [msgRead_storeBytes, if_pos (by omega), Nat.sub_zero]

/-! ### Commands and register reads -/

/-- A command word that decodes is executed (R191). -/
theorem step_command {s : State} {a : Arrival} {i : Instr} {rest : List Pending}
    (hb : s.busy = false) (hi : s.inbox = ⟨a, lineCommand i⟩ :: rest) :
    step s = exec i { s with inbox := rest } := by
  rw [step_of_idle hb]
  simp [idleStep, takeInput, hi, lineCommand, lineWR, nameOffset, regOffset, commandWord, stepCommand,
    decode_encode]

/-- A read of a whole register, and when it lands. -/
def regReadInput (r : Arrival × Reg) : Pending := ⟨r.1, lineRD (.reg r.2)⟩

/-- Reads of registers that land on an idle engine return their contents and change nothing else. -/
theorem reaches_reads {s : State} (reads : List (Arrival × Reg)) {rest : List Pending}
    (hb : s.busy = false) (hi : s.inbox = reads.map regReadInput ++ rest) :
    Reaches s { s with
      inbox := rest, replies := (reads.map fun r => regRead r.2 s).reverse ++ s.replies } := by
  induction reads generalizing s with
  | nil =>
    have hs : s.inbox = rest := hi
    rw [← hs]
    exact .refl s
  | cons r reads ih =>
    have hread := step_read_reg r.2 hb hi
    have hsame : ∀ x l, regRead x { s with inbox := reads.map regReadInput ++ rest, replies := l } =
        regRead x s := fun x l => by cases x <;> rfl
    have hreplies : ((r :: reads).map fun r => regRead r.2 s).reverse ++ s.replies =
        (reads.map fun r => regRead r.2 s).reverse ++ regRead r.2 s :: s.replies := by simp
    have hrest := ih (s := { s with
      inbox := reads.map regReadInput ++ rest, replies := regRead r.2 s :: s.replies }) hb rfl
    simp only [hsame] at hrest
    rw [hreplies]
    exact .step hread hrest

/-! ### `WAIT` while a command runs -/

/-- Of `n` polls and the last one of `WAIT` some have been answered, the values standing above the
replies `old`; the others and `rest` are still to come, and no error is recorded. -/
def Polling (n : Nat) (old : List Word) (rest : List Pending) (s : State) : Prop :=
  ∃ (polled : List Word) (pace : List Nat), s.inbox = scriptWAIT pace ++ rest ∧
    s.replies = polled.reverse ++ old ∧ polled.length + pace.length = n ∧ s.err = false

theorem scriptWAIT_cons (k : Nat) (pace : List Nat) :
    scriptWAIT (k :: pace) = ⟨.afterSteps k, lineRD (.reg .status)⟩ :: scriptWAIT pace := rfl

/-- A poll that lands while a command runs returns `STATUS` (R40). -/
theorem deliverBusy_poll (s : State) :
    deliverBusy (lineRD (.reg .status)) s = reply (statusWord s) s :=
  readBusy_of_status (accessTarget_reg s.cfg.msgCap .status) rfl

/-- The last poll of `WAIT` lands on an idle engine, so a delivery ends before it. -/
theorem polling_deliverDue {old : List Word} {rest : List Pending} {s : State} (pace : List Nat)
    (polled : List Word) (hb : s.busy = true) (hreplies : s.replies = polled.reverse ++ old)
    (herr : s.err = false) :
    Polling (polled.length + pace.length) old rest (deliverDue (scriptWAIT pace ++ rest) s) := by
  induction pace generalizing s polled with
  | nil =>
    rw [deliverDue_of_quiet s (by rintro p ⟨⟩; rfl)]
    exact ⟨polled, [], rfl, hreplies, rfl, herr⟩
  | cons k pace ih =>
    rw [scriptWAIT_cons, List.cons_append]
    by_cases hk : k = 0
    · subst hk
      rw [deliverDue, if_pos (by simp [hb, Pending.due]), deliverBusy_poll]
      have hpoll := ih (s := reply (statusWord s) s) (polled ++ [statusWord s]) hb
        (by simp [hreplies]) herr
      rwa [List.length_append, Nat.add_assoc, Nat.add_comm [statusWord s].length] at hpoll
    · rw [deliverDue, if_neg (by simp [Pending.due, hk])]
      exact ⟨polled, k :: pace, rfl, hreplies, rfl, herr⟩

theorem elapse_scriptWAIT (pace : List Nat) (rest : List Pending) :
    ∃ pace', elapse (scriptWAIT pace ++ rest) = scriptWAIT pace' ++ rest ∧
      pace'.length = pace.length := by
  cases pace with
  | nil => exact ⟨[], rfl, rfl⟩
  | cons k pace =>
    cases k with
    | zero => exact ⟨0 :: pace, rfl, rfl⟩
    | succ k => exact ⟨k :: pace, rfl, rfl⟩

/-- An engine step answers the polls that are due and touches nothing else of the port. -/
theorem polling_tick {n : Nat} {old : List Word} {rest : List Pending} {s t : State}
    (hp : Polling n old rest s) (hb : s.busy = true) (h : tick s = .next t) : Polling n old rest t := by
  obtain ⟨polled, pace, hinbox, hreplies, rfl, herr⟩ := hp
  obtain ⟨polled', pace', hinbox', hreplies', hlen', herr'⟩ :=
    polling_deliverDue (rest := rest) pace polled hb hreplies herr
  rw [tick, hinbox] at h
  split at h
  · obtain ⟨u, hu, hnext⟩ := andThen_eq_next h
    cases hnext
    obtain ⟨-, -, -, huerr, -, -, -, -, huinbox, hureplies, -⟩ := phaseStep_keeps hu
    obtain ⟨pace'', helapse, hlen''⟩ := elapse_scriptWAIT pace' rest
    exact ⟨polled', pace'', by rw [huinbox, hinbox', helapse], hureplies.trans hreplies',
      by rw [hlen'', hlen'], huerr.trans herr'⟩
  · cases h
    exact ⟨polled', pace', hinbox', hreplies', hlen', herr'⟩

theorem noReset_scriptWAIT {pace : List Nat} {rest : List Pending} (h : noReset rest) :
    noReset (scriptWAIT pace ++ rest) := by
  intro p hp
  rcases List.mem_append.1 hp with hp | hp
  · obtain hp | hp := List.mem_append.1 hp
    · obtain ⟨k, -, rfl⟩ := List.mem_map.1 hp
      exact nofun
    · rw [List.mem_singleton.1 hp]
      exact nofun
  · exact h p hp

theorem next_of_viewOutcome {v : State → State} {o : Result} {u : State}
    (h : viewOutcome v o = .next u) : ∃ t, o = .next t ∧ v t = u := by
  cases o with
  | next t => cases h; exact ⟨t, rfl, rfl⟩
  | fault r => cases h
  | refused r => cases h

/-- `HASH` with the polls of `WAIT` landing computes the digest and answers some of them. -/
theorem exec_hash_polled {s : State} {m : List Byte} {f : Mode} {pace : List Nat}
    {rest : List Pending} (hr : ready s) (hl : lengthFits s) (hm : holdsMessage s m)
    (hi : s.inbox = scriptWAIT pace ++ rest) (hn : noReset rest) :
    ∃ t, exec (.hash f) s = .next t ∧ t.busy = false ∧ t.s = digestState s.cfg m f ∧
      Polling pace.length s.replies rest t := by
  have hnoReset : noReset s.inbox := by rw [hi]; exact noReset_scriptWAIT hn
  have hquiet := exec_hash (s := { s with inbox := [] }) (f := f) hr nofun hl hm
  have hview : viewOutcome engineView (exec (.hash f) s) =
      .next (engineView (goTo .idle (hashed { s with inbox := [] } m f))) := by
    have hdisturb := hostAccessesCannotDisturbACommand (.hash f) s s.inbox hnoReset
    rwa [hquiet] at hdisturb
  obtain ⟨t, ht, hsame⟩ := next_of_viewOutcome hview
  obtain ⟨-, hwords, -, -, -, -, -, -, -, hbusy, -⟩ := eq_of_engineView_eq hsame
  refine ⟨t, ht, hbusy, hwords, ?_⟩
  rw [exec_of_legal hr.1 hr.2 (by cases f <;> simpa [operandsLegal] using hl) (by simp)
    (by simp)] at ht
  have hstart : Polling pace.length s.replies rest (startState (.hash f) s) :=
    ⟨[], pace, hi, rfl, Nat.zero_add _, hr.2⟩
  exact runBusy_keeps _ (fun _ _ => polling_tick) _ hstart ht

/-! ### The replies -/

/-- The reads of `WAIT`'s polls. -/
def pollReads (pace : List Nat) : List (Arrival × Reg) :=
  pace.map (fun k => (.afterSteps k, .status)) ++ [(.whenIdle, .status)]

/-- The reads of `DIGEST`. -/
def digestReads : List (Arrival × Reg) :=
  (List.range 8).map fun i => (.whenIdle, .s (Fin.ofNat 8 i))

theorem scriptWAIT_eq (pace : List Nat) : scriptWAIT pace = (pollReads pace).map regReadInput := by
  simp [scriptWAIT, pollReads, regReadInput]

theorem scriptDIGEST_eq : scriptDIGEST.map idleInput = digestReads.map regReadInput := rfl

/-- The eight values `DIGEST` reads are the bytes of the state words (R175). -/
theorem digestRead_digestReads (s : State) :
    digestRead (digestReads.map fun r => regRead r.2 s) = digestBytes s.s := rfl

/-- Every poll of an idle engine reads bit 0 equal to 0 (R40). -/
theorem exists_waitReads {s : State} (hb : s.busy = false) {polled : List Word}
    (h : statusWord s ∈ polled) : ∃ v ∈ waitReads polled, v.getLsbD 0 = false :=
  (waitReads_ends_iff polled).2 ⟨_, h, (statusWord_flags s).1.trans hb⟩

/-- Settles O60: the message is stored, `HASH` runs with the polls landing, the polls that are left and
the reads of `DIGEST` find the engine idle. -/
theorem hashScriptReturnsTheDigest : Obligations.HashScriptReturnsTheDigest := by
  intro s m f pace hr hcap hi
  have hscript : s.inbox = (scriptMSG m).map idleInput ++ idleInput (lineCommand (.hash f)) ::
      (scriptWAIT pace ++ digestReads.map regReadInput) := by
    rw [hi, ← scriptDIGEST_eq, scriptHash, List.map_append, List.append_assoc, List.append_assoc]
    rfl
  obtain ⟨u, hmsg, hru, hmu, hcfg, hinbox, hreplies⟩ := reaches_scriptMSG hr hcap hscript
  have hfits : lengthFits u := by rw [lengthFits, hmu.1, hcfg]; exact hcap
  have hdigest : noReset (digestReads.map regReadInput) := by
    intro p hp
    obtain ⟨r, -, rfl⟩ := List.mem_map.1 hp
    exact nofun
  obtain ⟨t, ht, hbusy, hwords, polled, pace', hleft, hpolled, hcount, herr⟩ :=
    exec_hash_polled (s := { u with inbox := scriptWAIT pace ++ digestReads.map regReadInput }) (f := f)
      hru hfits hmu rfl hdigest
  have hreads := reaches_reads (pollReads pace' ++ digestReads) (rest := []) hbusy
    (by rw [hleft, scriptWAIT_eq, List.map_append, List.append_nil])
  obtain ⟨n, hn⟩ := hmsg.trans (.step ((step_command hru.1 hinbox).trans ht) hreads)
  refine ⟨n, _, polled ++ (pollReads pace').map fun r => regRead r.2 t,
    digestReads.map fun r => regRead r.2 t, hn, rfl, hbusy, herr, ?_, ?_, rfl, ?_, ?_⟩
  · have hold : t.replies = polled.reverse ++ s.replies := by rw [hpolled, ← hreplies]
    simp only [hold, List.map_append, List.reverse_append, List.append_assoc]
  · simp only [pollReads, List.length_append, List.length_map, List.length_singleton]
    omega
  · have hlast : (.whenIdle, .status) ∈ pollReads pace' :=
      List.mem_append_right _ (List.mem_singleton.2 rfl)
    exact exists_waitReads hbusy (List.mem_append_right _ (List.mem_map.2 ⟨_, hlast, rfl⟩))
  · rw [digestRead_digestReads, hwords, digest, ← hcfg]

end Sys2Proof.Machine

/-! The datapath primitives on naturals (spec/40_primitives.md R110 to R115).

The one idea is in the rotation (R113): the bits moved up are a multiple of `2^k`, the bits moved down
stay below `2^k`, so their bitwise or is their sum. -/

namespace Sys2Proof.Machine

theorem toNat_add32 (a b : Word) : (add32 a b).toNat = (a.toNat + b.toNat) % 2 ^ 32 :=
  BitVec.toNat_add a b

theorem getLsbD_xor32 (a b : Word) (k : Nat) :
    (xor32 a b).getLsbD k = Bool.xor (a.getLsbD k) (b.getLsbD k) :=
  BitVec.getLsbD_xor

theorem toNat_mul32 (a b : Word) : (mul32 a b).toNat = a.toNat * b.toNat % 2 ^ 32 :=
  BitVec.toNat_mul a b

theorem toNat_shr32 (x : Word) (n : Nat) : (shr32 x n).toNat = x.toNat / 2 ^ n := by
  rw [shr32, BitVec.toNat_ushiftRight, Nat.shiftRight_eq_div_pow]

/-- A word shifted up by k keeps its low 32 - k bits, as a multiple of 2^k. -/
theorem mul_two_pow_mod_word (x : Nat) {k : Nat} (hk : k ≤ 32) :
    x * 2 ^ k % 2 ^ 32 = 2 ^ k * (x % 2 ^ (32 - k)) := by
  rw [← Nat.mul_mod_mul_left, ← pow_add, Nat.add_sub_cancel' hk, Nat.mul_comm]

/-- The top k bits of a word, moved down, are below 2^k. -/
theorem toNat_div_lt_two_pow (x : Word) {k : Nat} (hk : k ≤ 32) : x.toNat / 2 ^ (32 - k) < 2 ^ k := by
  apply Nat.div_lt_of_lt_mul
  rw [← pow_add, Nat.sub_add_cancel hk]
  exact x.isLt

/-- A rotation as a sum, at every amount: for an amount of 0 modulo 32 the second summand is 0. -/
theorem toNat_rotl32 (x : Word) (n : Nat) :
    (rotl32 x n).toNat =
      x.toNat * 2 ^ (n % 32) % 2 ^ 32 + x.toNat / 2 ^ (32 - n % 32) := by
  have hk : n % 32 ≤ 32 := (Nat.mod_lt n (by decide)).le
  rw [rotl32, BitVec.toNat_or, BitVec.toNat_shiftLeft, BitVec.toNat_ushiftRight,
    Nat.shiftLeft_eq, Nat.shiftRight_eq_div_pow, mul_two_pow_mod_word _ hk,
    Nat.two_pow_add_eq_or_of_lt (toNat_div_lt_two_pow x hk)]

/-- R113's case k = 0: a rotation by a multiple of 32 changes nothing. -/
theorem rotl32_of_mod_eq_zero (x : Word) {n : Nat} (hn : n % 32 = 0) : rotl32 x n = x := by
  apply BitVec.eq_of_toNat_eq
  rw [toNat_rotl32, hn, pow_zero, Nat.mul_one, Nat.mod_eq_of_lt x.isLt, Nat.div_eq_of_lt x.isLt,
    Nat.add_zero]

/-- Settles O51: the rotation splits at k = 0 (R113), the right rotation is R114's own definition. -/
theorem primitivesAreModularArithmetic : Obligations.PrimitivesAreModularArithmetic := by
  intro a b n
  refine ⟨toNat_add32 a b, getLsbD_xor32 a b, toNat_mul32 a b, ?_, rfl, fun _ => toNat_shr32 a n⟩
  split
  next hk => rw [rotl32_of_mod_eq_zero a hk]
  next => exact toNat_rotl32 a n

end Sys2Proof.Machine

/-! The padded message (spec/41_framing.md R120 to R126): the closed form of the padding algorithm, each of
its bytes, and the block of it that `LOAD` writes. The algorithm and the bytes agree for every length, as
both hold the same length field; only the field's value needs fewer than 2^61 bytes (R124). -/

namespace Sys2Proof.Machine

open Sys2Proof.Safety

/-! ### The padding algorithm (R120, R121) -/

/-- Step (2) of R120 adds the fewest zero bytes that make the length 56 modulo 64. -/
theorem padZeros_eq_append_replicate {fuel z : Nat} {m : List Byte} (hfuel : z ≤ fuel) (hz : z < 64)
    (hlen : (m.length + z) % 64 = 56) : padZeros fuel m = m ++ List.replicate z 0 := by
  induction fuel generalizing z m with
  | zero =>
    obtain rfl : z = 0 := by omega
    simp [padZeros]
  | succ fuel ih =>
    cases z with
    | zero => rw [padZeros, if_pos (by simpa using hlen), List.replicate_zero, List.append_nil]
    | succ z =>
      have hnext : ((m ++ [0]).length + z) % 64 = 56 := by
        rw [List.length_append, List.length_singleton, Nat.add_assoc, Nat.add_comm 1]
        exact hlen
      rw [padZeros, if_neg (by omega), ih (by omega) (by omega) hnext, List.append_assoc]
      rfl

theorem zeroCount_lt (l : Nat) : zeroCount l < 64 := Nat.mod_lt _ (by decide)

/-- The padded length is that of the four parts of the padded message (R121). -/
theorem paddedLength_eq (l : Nat) : paddedLength l = l + 1 + zeroCount l + 8 := by
  unfold paddedLength zeroCount
  omega

/-- `pad(m)` is its four parts, whatever the length field holds. -/
theorem pad_eq (m : List Byte) :
    pad m = m ++ [Config.padMark] ++ List.replicate (zeroCount m.length) 0 ++
      be64Bytes (bitLength m.length) := by
  have hz := zeroCount_lt m.length
  have hlen : ((m ++ [Config.padMark]).length + zeroCount m.length) % 64 = 56 := by
    rw [List.length_append, List.length_singleton, zeroCount]
    omega
  rw [pad, padZeros_eq_append_replicate (by omega) hz hlen]

theorem length_pad (m : List Byte) : (pad m).length = paddedLength m.length := by
  simp only [pad_eq, paddedLength_eq, be64Bytes, List.length_append, List.length_replicate,
    List.length_cons, List.length_nil]

/-- Settles O52: the zero bytes of the closed form are those the algorithm adds. -/
theorem paddedMessageHasItsClosedForm : Obligations.PaddedMessageHasItsClosedForm := by
  intro m hm
  refine ⟨zeroCount m.length, zeroCount_lt _, ?_, ?_, length_pad m⟩
  · unfold zeroCount
    omega
  · rw [pad_eq, bitLength_of_lt hm]
    rfl

/-! ### The bytes of the padded message (R122) -/

/-- Byte k of the length field, the most significant first (R64). -/
theorem be64Bytes_getElem? (v : Dword) {k : Nat} (hk : k < 8) :
    (be64Bytes v)[k]? = some (v.extractLsb' (8 * (7 - k)) 8) := by
  interval_cases k <;> rfl

/-- Each byte of the padding algorithm is the one computed on demand, part by part of `pad_eq`. -/
theorem pad_getElem? (m : List Byte) {j : Nat} (hj : j < paddedLength m.length) :
    (pad m)[j]? = some (paddedByte (messageAt m) m.length j) := by
  have hparts := paddedLength_eq m.length
  have hmarked : (m ++ [Config.padMark]).length = m.length + 1 := List.length_append
  have hzeroed : (m ++ [Config.padMark] ++ List.replicate (zeroCount m.length) 0).length =
      paddedLength m.length - 8 := by
    rw [List.length_append, hmarked, List.length_replicate]
    omega
  rw [pad_eq]
  unfold paddedByte
  split_ifs with hmsg hmark hzero
  · rw [List.append_assoc, List.append_assoc, List.getElem?_append_left hmsg, messageAt,
      List.getD_eq_getElem _ _ hmsg, List.getElem?_eq_getElem hmsg]
  · rw [List.getElem?_append_left (by omega), List.getElem?_append_left (by omega), hmark,
      List.getElem?_concat_length]
  · rw [List.getElem?_append_left (by omega), List.getElem?_append_right (by omega),
      List.getElem?_replicate, if_pos (by omega)]
  · have hindex : 7 - (j - (paddedLength m.length - 8)) = paddedLength m.length - 1 - j := by omega
    rw [List.getElem?_append_right (by omega), hzeroed, be64Bytes_getElem? _ (by omega), hindex]

/-- Settles O53: the agreement holds at every length, so below 2^61 as well. -/
theorem paddedByteIsTheByteOfPad : Obligations.PaddedByteIsTheByteOfPad :=
  fun m _ _ hj => pad_getElem? m hj

/-! ### `LOAD` (R123, R126) -/

/-- The bytes of a word of a block (R123). -/
theorem byteOf_framedWord (f : Nat → Byte) (l k j : Nat) {i : Nat} (hi : i < 4) :
    byteOf (framedWord f l k j) i = paddedByte f l (64 * k + 4 * j + i) := by
  obtain ⟨h0, h1, h2, h3⟩ := byteOf_le32 (paddedByte f l (64 * k + 4 * j))
    (paddedByte f l (64 * k + 4 * j + 1)) (paddedByte f l (64 * k + 4 * j + 2))
    (paddedByte f l (64 * k + 4 * j + 3))
  interval_cases i
  exacts [h0, h1, h2, h3]

/-- The bytes of block `BLK` that the message has are in the buffer; those of other blocks may be
unwritten (R126). -/
def holdsBlock (s : State) (m : List Byte) : Prop :=
  ∀ a, 64 * s.blk.toNat ≤ a → a < 64 * s.blk.toNat + 64 → a < m.length → msgRead s.msg a = m[a]?

theorem loadStep_of_holdsBlock {s : State} {m : List Byte} (hlen : s.mlen.toNat = m.length)
    (hm : holdsBlock s m) : loadStep s = .next (loaded s) := by
  rcases loadStep_cases s with ⟨a, ha, -⟩ | ⟨-, h⟩
  · obtain ⟨hlow, hhigh, hnone, -⟩ := (firstUnwritten_eq_some_iff _ _ _ _).1 ha
    have hlt : a < m.length := by omega
    rw [hm a hlow (by omega) hlt, List.getElem?_eq_getElem hlt] at hnone
    cases hnone
  · exact h

/-- The words `P_LOAD` writes hold the padded message's bytes. -/
theorem pad_getElem?_loaded {s : State} {m : List Byte} (hlen : s.mlen.toNat = m.length)
    (hm : holdsBlock s m) (hblk : blockExists s) {j i : Nat} (hj : j < 16) (hi : i < 4) :
    (pad m)[64 * s.blk.toNat + 4 * j + i]? = some (byteOf (blockWord (loaded s).w j) i) := by
  have hin : 64 * s.blk.toNat + 4 * j + i < paddedLength m.length := by
    rw [← hlen]
    unfold blockExists blockCount at hblk
    unfold paddedLength
    omega
  have hbyte : 64 * s.blk.toNat + 4 * j + i < m.length →
      messageAt m (64 * s.blk.toNat + 4 * j + i) = msgByte s.msg (64 * s.blk.toNat + 4 * j + i) := by
    intro hlt
    rw [msgByte, hm _ (by omega) (by omega) hlt, messageAt, List.getD_eq_getElem?_getD]
  rw [pad_getElem? m hin, paddedByte_congr hbyte, ← hlen, loaded, framedBlock,
    blockWord_words16 _ hj, byteOf_framedWord _ _ _ _ hi]

/-- A ready engine with a quiet host performs `LOAD` (R126). -/
theorem exec_load {s : State} {m : List Byte} (hr : ready s) (hq : quiet s) (hl : lengthFits s)
    (hblk : blockExists s) (hlen : s.mlen.toNat = m.length) (hm : holdsBlock s m) :
    exec .load s = .next (goTo .idle (loaded (startState .load s))) := by
  have hload : loadStep (startState .load s) = .next (loaded (startState .load s)) :=
    loadStep_of_holdsBlock hlen hm
  have hphase : phaseStep (startState .load s) = .next (goTo .idle (loaded (startState .load s))) := by
    have hph : (startState .load s).seqPh = .pLoad := rfl
    simp only [phaseStep, hph, hload, andThen_next]
    rfl
  have hop : operandsLegal .load s := ⟨fun _ => hl, fun _ => hblk, nofun⟩
  rw [exec_of_legal hr.1 hr.2 hop nofun nofun, ← hphase]
  exact runCommand_one .load .pLoad hq

/-- Settles O12: the words are those of `P_LOAD`, the only phase of `LOAD`. -/
theorem loadFramesABlockOfThePaddedMessage : Obligations.LoadFramesABlockOfThePaddedMessage := by
  intro s m hr hq hl hblk hlen hm
  refine ⟨(loaded s).w, fun j hj => ?_, _, exec_load hr hq hl hblk hlen hm, rfl⟩
  have hbyte {i : Nat} (hi : i < 4) := pad_getElem?_loaded hlen hm hblk hj hi
  exact ⟨hbyte (i := 0) (by decide), hbyte (by decide), hbyte (by decide), hbyte (by decide)⟩

end Sys2Proof.Machine

/-! The round schedule (spec/42_round_schedule.md R135 to R141): the range and the monotonicity of the
round count, and what `SCHED` writes. All rest on the count's one form, 20 + (3u) div 64 (R138), in which
only the number u of distinct byte values stands. -/

namespace Sys2Proof.Machine

open Sys2Proof.Safety

/-! ### The round count (R135 to R140) -/

theorem scheduledRounds_mono {u v : Nat} (h : u ≤ v) : scheduledRounds u ≤ scheduledRounds v :=
  Nat.add_le_add_left (Nat.div_le_div_right (Nat.mul_le_mul_left 3 h)) _

theorem le_scheduledRounds (u : Nat) : 20 ≤ scheduledRounds u := Nat.le_add_right _ _

theorem scheduledRounds_le {u : Nat} (h : u ≤ 256) : scheduledRounds u ≤ 32 :=
  scheduledRounds_mono h

/-- Settles O54: there are at most 256 byte values, and at 256 the count is 32. -/
theorem roundCountHasItsIntegerForm : Obligations.RoundCountHasItsIntegerForm := by
  intro m
  have hform := rounds_standard_eq m
  refine ⟨rfl, distinctBytes_le m, hform, ?_, ?_⟩
  · rw [hform]; exact le_scheduledRounds _
  · rw [hform]; exact scheduledRounds_le (distinctBytes_le m)

/-- A byte value that occurs in `m` occurs in a message that uses all of its values. -/
theorem distinctBytes_mono {m n : List Byte} (h : ∀ b ∈ m, b ∈ n) :
    distinctBytes m ≤ distinctBytes n := by
  refine List.countP_mono_left fun b _ hb => ?_
  obtain ⟨x, hx, hxb⟩ := List.any_eq_true.1 hb
  exact List.any_eq_true.2 ⟨x, h x hx, hxb⟩

theorem rounds_standard_mono {m n : List Byte} (h : ∀ b ∈ m, b ∈ n) :
    rounds m .standard ≤ rounds n .standard := by
  rw [rounds_standard_eq, rounds_standard_eq]
  exact scheduledRounds_mono (distinctBytes_mono h)

/-- Settles O55: messages with the same byte values use a superset of each other's. -/
theorem roundCountIsMonotonic : Obligations.RoundCountIsMonotonic := by
  intro m n
  refine ⟨rounds_standard_mono, fun h => ?_⟩
  exact le_antisymm (rounds_standard_mono fun b => (h b).1) (rounds_standard_mono fun b => (h b).2)

/-! ### `SCHED` (R141) -/

/-- A written byte is the one the engine reads. -/
theorem msgByte_eq_iff {buffer : List Host.Cell} {a : Nat} (h : (msgRead buffer a).isSome = true)
    (b : Byte) : msgByte buffer a = b ↔ msgRead buffer a = some b := by
  obtain ⟨x, hx⟩ := Option.isSome_iff_exists.1 h
  simp [msgByte, hx]

/-- `SEEN` as the bytes of the buffer below `MLEN` give it (R141). -/
def bufferSeen (s : State) : BitVec 256 := presence (msgByte s.msg) s.mlen.toNat

theorem bufferSeen_getLsbD {s : State} (hw : messageWritten s) {b : Nat} (hb : b < 256) :
    (bufferSeen s).getLsbD b = true ↔
      ∃ a, a < s.mlen.toNat ∧ msgRead s.msg a = some (BitVec.ofNat 8 b) := by
  rw [bufferSeen, presence_getLsbD _ _ b hb]
  exact exists_congr fun a => and_congr_right fun ha => msgByte_eq_iff (hw a ha) _

/-- `RC` is wide enough for the count. -/
theorem toNat_scheduledRounds (seen : BitVec 256) :
    (BitVec.ofNat 6 (scheduledRounds (uniqueBytes seen))).toNat = scheduledRounds (uniqueBytes seen) :=
  Nat.mod_eq_of_lt ((scheduledRounds_le (uniqueBytes_le seen)).trans_lt (by decide))

/-- The state with the two registers `SCHED` writes. -/
def scheduled (s : State) (seen : BitVec 256) (rc : BitVec 6) : State :=
  { s with seen := seen, rc := rc }

/-- In fast mode `SCHED` reads no byte. -/
theorem schedStep_of_fast {s : State} (hm : s.mode = .fast) : schedStep s = .next (scheduled s 0 8) := by
  rcases schedStep_cases s with ⟨-, h⟩ | ⟨hstandard, -⟩ | ⟨hstandard, -⟩
  · exact h
  · cases hm.symm.trans hstandard
  · cases hm.symm.trans hstandard

theorem schedStep_of_written {s : State} (hm : s.mode = .standard) (hw : messageWritten s) :
    schedStep s = .next (scheduled s (bufferSeen s)
      (BitVec.ofNat 6 (scheduledRounds (uniqueBytes (bufferSeen s))))) := by
  rcases schedStep_cases s with ⟨hfast, -⟩ | ⟨-, a, ha, -⟩ | ⟨-, -, h⟩
  · cases hm.symm.trans hfast
  · obtain ⟨-, hlt, hnone, -⟩ := (firstUnwritten_eq_some_iff _ _ _ _).1 ha
    simpa [hnone] using hw a (by omega)
  · exact h

/-- A ready engine with a quiet host performs `SCHED` and is idle again. -/
theorem exec_sched {s : State} {seen : BitVec 256} {rc : BitVec 6} (hr : ready s) (hq : quiet s)
    (hl : lengthFits s)
    (h : schedStep (startState .sched s) = .next (scheduled (startState .sched s) seen rc)) :
    exec .sched s = .next (goTo .idle (scheduled (startState .sched s) seen rc)) := by
  have hphase : phaseStep (startState .sched s) =
      .next (goTo .idle (scheduled (startState .sched s) seen rc)) := by
    have hph : (startState .sched s).seqPh = .pSched := rfl
    simp only [phaseStep, hph, h, andThen_next]
    rfl
  have hop : operandsLegal .sched s := ⟨fun _ => hl, nofun, nofun⟩
  rw [exec_of_legal hr.1 hr.2 hop nofun nofun, ← hphase]
  exact runCommand_one .sched .pSched hq

/-- Settles O11: what `P_SCHED` writes depends on `MODE`, `MLEN` and the buffer, which the acceptance of
`SCHED` leaves alone. -/
theorem schedComputesTheRoundCount : Obligations.SchedComputesTheRoundCount := by
  intro s hr hq hl
  constructor
  · intro hm
    exact ⟨_, exec_sched hr hq hl (schedStep_of_fast hm), rfl⟩
  · intro hm hw
    refine ⟨bufferSeen s, _, fun b hb => bufferSeen_getLsbD hw hb, toNat_scheduledRounds _, ?_⟩
    exact ⟨_, exec_sched hr hq hl (schedStep_of_written (s := startState .sched s) hm hw), rfl⟩

end Sys2Proof.Machine

/-! The diffusion core (spec/43_diffusion_core.md R146 to R156): the closed form of the interleaved cascade,
the dependence of a round on its index, the all-zero state, and the commands `TDIFF`, `ROUND` and `CHAIN`.

The one idea is in the cascade (R148, R149): followed in a single lane j, the loop over i overwrites the
word at i = j, and only the pushes of lanes above j that wrap around reach it afterwards. -/

namespace Sys2Proof.Machine

open Sys2Proof.Safety

/-! ### The primitives on zero (R110 to R115) -/

theorem add32_zero_left (x : Word) : add32 0 x = x := BitVec.zero_add x
theorem xor32_zero_right (x : Word) : xor32 x 0 = x := BitVec.xor_zero
theorem mul32_zero_left (x : Word) : mul32 0 x = 0 := BitVec.zero_mul
theorem shr32_zero_left (n : Nat) : shr32 0 n = 0 := BitVec.zero_ushiftRight

/-! ### `mix` (R146) -/

/-- Settles O58: every line of `mix` maps 0 to 0, and the last adds p. -/
theorem mixOfZeroSumIsThePrime : Obligations.MixOfZeroSumIsThePrime := by
  intro a b c p h
  have hsum : add32 (xor32 a b) c = 0 := h
  simp only [mix, hsum, rotl32_zero, mul32_zero_left, shr32_zero_left, xor32_zero_right,
    add32_zero_left]

/-- The lines of `mix` on the operands of lane i, as one expression. -/
theorem mixLane_eq (p : Config.Params) (s : Words8) (w : Words16) (i : Nat) :
    mixLane p s w i =
      rotl32
        ((rotl32 ((lane s i ^^^ lane s ((i + 1) % 8)) + blockWord w i) 13 * lane p.prime i) ^^^
          ((rotl32 ((lane s i ^^^ lane s ((i + 1) % 8)) + blockWord w i) 13 * lane p.prime i) >>> 16)) 5
        + lane p.prime i := by
  rw [lane_mod]
  rfl

/-! ### Temporal diffusion (R148 to R150) -/

/-- What lane i pushes onto the next three (R147). -/
def pushTerm (s : Words8) (w : Words16) (i : Nat) : Word := add32 (lane s i) (blockWord w i)

/-- What the body of the cascade for lane i makes of the word x in lane j: it assigns its own lane, pushes
onto the three that follow it, and leaves the others (R148). -/
def cascadeWord (p : Config.Params) (s : Words8) (w : Words16) (j : Nat) (x : Word) (i : Nat) : Word :=
  let distance := (j + 8 - i) % 8
  if distance = 0 then mixLane p s w i
  else if distance ≤ 3 then xor32 x (rotl32 (pushTerm s w i) (4 * distance))
  else x

theorem lane_cascadePush (temp : Word) (i off j : Nat) (ns : Words8) :
    lane (cascadePush temp i off ns) j =
      if j % 8 = (i + off) % 8 then xor32 (lane ns j) (rotl32 temp (4 * off)) else lane ns j := by
  rw [cascadePush, lane_setLane]
  split
  next h => rw [← lane_mod ns (i + off), ← h, lane_mod]
  next => rfl

theorem lane_tdiffLane (p : Config.Params) (s : Words8) (w : Words16) (ns : Words8) {i j : Nat}
    (hi : i < 8) (hj : j < 8) :
    lane (tdiffLane p s w ns i) j = cascadeWord p s w j (lane ns j) i := by
  obtain ⟨d, hd, rfl⟩ : ∃ d < 8, j = (i + d) % 8 := ⟨(j + 8 - i) % 8, by omega, by omega⟩
  have hdistance : ((i + d) % 8 + 8 - i) % 8 = d := by omega
  have hlane (off : Nat) (hoff : off < 8) : (i + d) % 8 % 8 = (i + off) % 8 ↔ d = off := by omega
  have hself : (i + d) % 8 % 8 = i % 8 ↔ d = 0 := by omega
  simp only [tdiffLane, lane_setLane, lane_cascadePush, hself, hlane 1 (by decide), hlane 2 (by decide),
    hlane 3 (by decide), cascadeWord, hdistance]
  interval_cases d <;> rfl

/-- The cascade in one lane. -/
theorem lane_foldl_tdiffLane (p : Config.Params) (s : Words8) (w : Words16) {j : Nat} (hj : j < 8)
    (l : List Nat) (ns : Words8) (hl : ∀ i ∈ l, i < 8) :
    lane (l.foldl (tdiffLane p s w) ns) j = l.foldl (cascadeWord p s w j) (lane ns j) := by
  induction l generalizing ns with
  | nil => rfl
  | cons i l ih =>
    rw [List.foldl_cons, List.foldl_cons, ih _ fun k hk => hl k (List.mem_cons_of_mem i hk),
      lane_tdiffLane p s w ns (hl i List.mem_cons_self) hj]

theorem lane_tdiff_of_interleaved {p : Config.Params} (hp : p.tdiffReading = .interleaved) (s : Words8)
    (w : Words16) {j : Nat} (hj : j < 8) :
    lane (tdiff p s w) j = [0, 1, 2, 3, 4, 5, 6, 7].foldl (cascadeWord p s w j) (lane s j) := by
  rw [← lane_foldl_tdiffLane p s w hj _ _ (by decide)]
  simp only [tdiff, hp]

/-- The closed form of the interleaved reading (R149): the pushes of lanes 5, 6 and 7 wrap onto lanes 0, 1
and 2 after these have been assigned; every other push is overwritten. -/
theorem tdiff_of_interleaved {p : Config.Params} (hp : p.tdiffReading = .interleaved) (s : Words8)
    (w : Words16) :
    lane (tdiff p s w) 0 = xor32 (xor32 (xor32 (mixLane p s w 0) (rotl32 (pushTerm s w 5) 12))
      (rotl32 (pushTerm s w 6) 8)) (rotl32 (pushTerm s w 7) 4) ∧
    lane (tdiff p s w) 1 = xor32 (xor32 (mixLane p s w 1) (rotl32 (pushTerm s w 6) 12))
      (rotl32 (pushTerm s w 7) 8) ∧
    lane (tdiff p s w) 2 = xor32 (mixLane p s w 2) (rotl32 (pushTerm s w 7) 12) ∧
    ∀ j, 3 ≤ j → j < 8 → lane (tdiff p s w) j = mixLane p s w j := by
  refine ⟨?_, ?_, ?_, fun j hlow hhigh => ?_⟩
  · rw [lane_tdiff_of_interleaved hp s w (by decide)]; rfl
  · rw [lane_tdiff_of_interleaved hp s w (by decide)]; rfl
  · rw [lane_tdiff_of_interleaved hp s w (by decide)]; rfl
  · rw [lane_tdiff_of_interleaved hp s w hhigh]
    interval_cases j <;> rfl

/-- The two-pass reading (R150). -/
theorem tdiff_of_twoPass {p : Config.Params} (hp : p.tdiffReading = .twoPass) (s : Words8) (w : Words16)
    {j : Nat} (hj : j < 8) : lane (tdiff p s w) j = mixLane p s w j := by
  simp only [tdiff, hp]
  exact lane_lanes _ hj

/-! ### The round index (R153) -/

theorem rotationAmount_mod (p : Config.Params) (k : Nat) :
    rotationAmount p (k % 16) = rotationAmount p k := by
  have hlow : k % 16 % 8 = k % 8 := by omega
  simp only [rotationAmount, Nat.mod_mod, hlow]

/-- The index of a round stands only in `ROTATIONS[rn mod 16]` and `W[(i + rn) mod 16]`. -/
theorem roundTerm_mod (p : Config.Params) (s : Words8) (w : Words16) (rn i : Nat) :
    roundTerm p s w (rn % 16) i = roundTerm p s w rn i := by
  have hword : blockWord w (i + rn % 16) = blockWord w (i + rn) := by
    rw [← blockWord_mod, Nat.add_mod_mod, blockWord_mod]
  simp only [roundTerm, rotationAmount_mod, hword]

/-- Settles O56: lane by lane. -/
theorem roundsRepeatEverySixteen : Obligations.RoundsRepeatEverySixteen := by
  intro p s w rn
  simp only [compressionRound, roundTerm_mod]

/-- Lane i of a compression round, with the index arithmetic of R152. -/
theorem lane_compressionRound (p : Config.Params) (s : Words8) (w : Words16) (rn : Nat) {i : Nat}
    (hi : i < 8) :
    lane (compressionRound p s w rn) i = lane s i +
      rotl32 (((((lane s i ^^^ rotl32 (lane s ((i + 1) % 8)) (rotationAmount p (rn % 16)).toNat)
        + lane s ((i + 5) % 8)) ^^^ blockWord w ((i + rn) % 16)) * lane p.prime i)) 11 := by
  rw [compressionRound, lane_lanes _ hi, lane_mod, lane_mod, blockWord_mod, rotationAmount_mod]
  rfl

/-! ### The all-zero state (R151, R154, R170) -/

section ZeroState

variable {s : Words8} {w : Words16} (hs : ∀ k, lane s k = 0) (hw : ∀ k, blockWord w k = 0)

include hs hw

theorem mixLane_of_zero (p : Config.Params) (i : Nat) : mixLane p s w i = lane p.prime i :=
  mixOfZeroSumIsThePrime _ _ _ _ (by rw [hs, hs, hw]; rfl)

theorem pushTerm_of_zero (i : Nat) : pushTerm s w i = 0 := by
  rw [pushTerm, hs, hw]
  rfl

/-- Every push of the cascade is 0, so both readings leave the mix values. -/
theorem tdiff_of_zero (p : Config.Params) : tdiff p s w = p.prime := by
  refine words8_ext fun i hi => ?_
  rw [← mixLane_of_zero hs hw p i]
  cases hp : p.tdiffReading with
  | twoPass => exact tdiff_of_twoPass hp s w hi
  | interleaved =>
    have hpush (x : Word) (k n : Nat) : xor32 x (rotl32 (pushTerm s w k) n) = x := by
      rw [pushTerm_of_zero hs hw, rotl32_zero, xor32_zero_right]
    obtain ⟨h0, h1, h2, hrest⟩ := tdiff_of_interleaved hp s w
    simp only [hpush] at h0 h1 h2
    match i with
    | 0 => exact h0
    | 1 => exact h1
    | 2 => exact h2
    | i + 3 => exact hrest (i + 3) (Nat.le_add_left 3 i) hi

theorem roundTerm_of_zero (p : Config.Params) (rn i : Nat) : roundTerm p s w rn i = 0 := by
  simp only [roundTerm, hs, hw, rotl32_zero, xor32_zero_right, add32_zero_left, mul32_zero_left]

theorem compressionRound_of_zero (p : Config.Params) (rn : Nat) : compressionRound p s w rn = s := by
  refine words8_ext fun i hi => ?_
  rw [compressionRound, lane_lanes _ hi, roundTerm_of_zero hs hw, hs, add32_zero_left]

theorem fastLane_of_zero (p : Config.Params) (r i : Nat) : fastLane p s w r i = 0 := by
  simp only [fastLane, hs, hw, rotl32_zero, xor32_zero_right, add32_zero_left, mul32_zero_left]

/-- Every lane of the in-place order replaces 0 by 0, so the next lane sees the starting state again. -/
theorem fastRound_of_zero (p : Config.Params) (r : Nat) : fastRound p s w r = s := by
  cases hp : p.fastLaneOrder with
  | snapshot =>
    refine words8_ext fun i hi => ?_
    simp only [fastRound, hp]
    rw [lane_lanes _ hi, fastLane_of_zero hs hw, hs]
  | inPlace =>
    have hfix (i : Nat) : setLane s i (fastLane p s w r i) = s := by
      refine words8_ext fun j _ => ?_
      rw [lane_setLane, fastLane_of_zero hs hw, hs, ite_self]
    simp only [fastRound, hp]
    exact List.foldl_fixed' hfix _

end ZeroState

/-- Settles O59: an all-zero state and block read 0 at every index. -/
theorem zeroStateCornerCases : Obligations.ZeroStateCornerCases := by
  intro p r s w hs hw
  have hs' (k : Nat) : lane s k = 0 := by rw [← lane_mod, hs _ (Nat.mod_lt k (by decide))]
  have hw' (k : Nat) : blockWord w k = 0 := by rw [← blockWord_mod, hw _ (Nat.mod_lt k (by decide))]
  exact ⟨tdiff_of_zero hs' hw' p, compressionRound_of_zero hs' hw' p r, fastRound_of_zero hs' hw' p r⟩

/-! ### The commands (R151, R154, R156) -/

/-- A ready engine with a quiet host performs the one phase of a command of one phase. -/
theorem exec_of_stepBound_eq_one {i : Instr} {s : State} (hr : ready s) (hq : quiet s)
    (hop : operandsLegal i s) (hnop : i ≠ .nop) (hclrerr : i ≠ .clrerr) (hone : stepBound i s = 1) :
    exec i s = phaseStep (startState i s) := by
  have hq' : quiet (acceptedState i s) := by cases i <;> exact hq
  rw [exec_of_legal hr.1 hr.2 hop hnop hclrerr, hone]
  exact runCommand_one i (firstPhase i s) hq'

theorem exec_tdiff {s : State} (hr : ready s) (hq : quiet s) :
    exec .tdiff s = .next (goTo .idle (tdiffStep (startState .tdiff s))) :=
  exec_of_stepBound_eq_one hr hq ⟨nofun, nofun, nofun⟩ nofun nofun rfl

theorem exec_round {s : State} (hr : ready s) (hq : quiet s) :
    exec .round s = .next (goTo .idle (roundStep (startState .round s))) :=
  exec_of_stepBound_eq_one hr hq ⟨nofun, nofun, nofun⟩ nofun nofun rfl

theorem exec_chain {s : State} (hr : ready s) (hq : quiet s) :
    exec .chain s = .next (goTo .idle (chainStep (startState .chain s))) :=
  exec_of_stepBound_eq_one hr hq ⟨nofun, nofun, nofun⟩ nofun nofun rfl

/-- Settles O13: the closed forms R149 and R150 on the state's own words. -/
theorem tdiffWritesTheDiffusedState : Obligations.TdiffWritesTheDiffusedState := by
  intro s hr hq
  refine ⟨tdiff s.cfg s.s s.w, ⟨_, exec_tdiff hr hq, rfl⟩, ?_⟩
  simp only [← mixLane_eq]
  exact ⟨fun hp => tdiff_of_interleaved hp s.s s.w, fun hp _ hi => tdiff_of_twoPass hp s.s s.w hi⟩

/-- An index register advances modulo its width. -/
theorem add_one_eq_ofNat {n : Nat} (x : BitVec n) : x + 1 = BitVec.ofNat n (x.toNat + 1) := by
  rw [BitVec.ofNat_add, BitVec.ofNat_toNat, BitVec.setWidth_eq]
  rfl

/-- Settles O14: `P_ROUND` on the starting snapshot. -/
theorem roundMixesEveryLane : Obligations.RoundMixesEveryLane := by
  intro s hr hq
  refine ⟨_, fun i hi => lane_compressionRound s.cfg s.s s.w s.rn.toNat hi, ?_⟩
  rw [← add_one_eq_ofNat]
  exact ⟨_, exec_round hr hq, rfl⟩

/-- Settles O16: `P_CHAIN`, word by word. -/
theorem chainAddsTheInitialState : Obligations.ChainAddsTheInitialState := by
  intro s hr hq
  refine ⟨chain s.cfg s.s, fun i hi => ?_, ?_⟩
  · rw [chain, lane_lanes _ hi, toNat_add32]
  · rw [← add_one_eq_ofNat]
    exact ⟨_, exec_chain hr hq, rfl⟩

end Sys2Proof.Machine

/-! The fast path (spec/44_fast_path.md R167 to R171): the lanes of a fast round in both orders, the command
`FROUND`, and the block word no fast round reads.

The one idea is in the in-place order (R169): lane i is written once, when the lanes below it stand as they
will at the end and the lanes from i on still hold the starting state. -/

namespace Sys2Proof.Machine

open Sys2Proof.Safety

/-! ### The lanes of a fast round (R167, R169) -/

theorem lane_fastRound_of_snapshot {p : Config.Params} (hp : p.fastLaneOrder = .snapshot) (s : Words8)
    (w : Words16) (r : Nat) {i : Nat} (hi : i < 8) :
    lane (fastRound p s w r) i = fastLane p s w r i := by
  simp only [fastRound, hp]
  exact lane_lanes _ hi

/-- The words after the lanes 0, 1, .., n - 1 of an in-place fast round (R169). -/
def inPlaceLanes (p : Config.Params) (s : Words8) (w : Words16) (r : Nat) : Nat → Words8
  | 0 => s
  | n + 1 => setLane (inPlaceLanes p s w r n) n (fastLane p (inPlaceLanes p s w r n) w r n)

theorem fastRound_of_inPlace {p : Config.Params} (hp : p.fastLaneOrder = .inPlace) (s : Words8)
    (w : Words16) (r : Nat) : fastRound p s w r = inPlaceLanes p s w r 8 := by
  simp only [fastRound, hp]
  rfl

section InPlace

variable (p : Config.Params) (s : Words8) (w : Words16) (r : Nat)

theorem lane_inPlaceLanes_succ {n j : Nat} (hn : n < 8) (hj : j < 8) :
    lane (inPlaceLanes p s w r (n + 1)) j =
      if j = n then fastLane p (inPlaceLanes p s w r n) w r n else lane (inPlaceLanes p s w r n) j := by
  rw [inPlaceLanes, lane_setLane, Nat.mod_eq_of_lt hj, Nat.mod_eq_of_lt hn]

theorem lane_inPlaceLanes_of_le {n j : Nat} (hnj : n ≤ j) (hj : j < 8) :
    lane (inPlaceLanes p s w r n) j = lane s j := by
  induction n with
  | zero => rfl
  | succ n ih =>
    rw [lane_inPlaceLanes_succ p s w r (by omega) hj, if_neg (by omega), ih (by omega)]

theorem lane_inPlaceLanes_of_lt {n j : Nat} (hjn : j < n) (hn : n ≤ 8) :
    lane (inPlaceLanes p s w r n) j = fastLane p (inPlaceLanes p s w r j) w r j := by
  induction n, hjn using Nat.le_induction with
  | base => rw [lane_inPlaceLanes_succ p s w r hn hn, if_pos rfl]
  | succ n hjn ih =>
    rw [lane_inPlaceLanes_succ p s w r hn (by omega), if_neg (by omega), ih (by omega)]

/-- What lane n reads: the final words of the lanes below it, the starting words of the others. -/
theorem lane_inPlaceLanes {n j : Nat} (hn : n ≤ 8) (hj : j < 8) :
    lane (inPlaceLanes p s w r n) j = if j < n then lane (inPlaceLanes p s w r 8) j else lane s j := by
  split
  next hjn =>
    rw [lane_inPlaceLanes_of_lt p s w r hjn hn, lane_inPlaceLanes_of_lt p s w r hj le_rfl]
  next hjn => exact lane_inPlaceLanes_of_le p s w r (Nat.le_of_not_lt hjn) hj

end InPlace

/-- The neighbour at i + 1 is new for lane 7 alone, the one at i + 5 for the lanes from 3 on. -/
theorem lane_fastRound_of_inPlace {p : Config.Params} (hp : p.fastLaneOrder = .inPlace) (s : Words8)
    (w : Words16) (r : Nat) {i : Nat} (hi : i < 8) :
    lane (fastRound p s w r) i = lane s i +
      (((lane s i ^^^ rotl32 (if i < 7 then lane s (i + 1) else lane (fastRound p s w r) 0)
          (fastRotAmount r).toNat)
        + if i < 3 then lane s (i + 5) else lane (fastRound p s w r) (i - 3))
        ^^^ blockWord w (i + r)) * lane p.prime i := by
  have hself : lane (inPlaceLanes p s w r i) i = lane s i := lane_inPlaceLanes_of_le p s w r le_rfl hi
  have hnext : lane (inPlaceLanes p s w r i) (i + 1) =
      if i < 7 then lane s (i + 1) else lane (inPlaceLanes p s w r 8) 0 := by
    split
    next h7 => exact lane_inPlaceLanes_of_le p s w r (Nat.le_succ i) (by omega)
    next h7 =>
      obtain rfl : i = 7 := by omega
      exact lane_inPlaceLanes p s w r (n := 7) (j := 0) (by decide) (by decide)
  have hfifth : lane (inPlaceLanes p s w r i) (i + 5) =
      if i < 3 then lane s (i + 5) else lane (inPlaceLanes p s w r 8) (i - 3) := by
    split
    next h3 => exact lane_inPlaceLanes_of_le p s w r (Nat.le_add_right i 5) (by omega)
    next h3 =>
      have hwrap : (i + 5) % 8 = i - 3 := by omega
      rw [← lane_mod, hwrap, lane_inPlaceLanes p s w r (by omega) (by omega), if_pos (by omega)]
  rw [fastRound_of_inPlace hp, lane_inPlaceLanes_of_lt p s w r hi le_rfl, ← hself, ← hnext, ← hfifth]
  rfl

/-! ### `FROUND` (R170) -/

theorem exec_fround {s : State} (hr : ready s) (hq : quiet s) (hrn : s.rn.toNat < 8) :
    exec .fround s = .next (goTo .idle (froundStep (startState .fround s))) :=
  exec_of_stepBound_eq_one hr hq ⟨nofun, nofun, fun _ => hrn⟩ nofun nofun rfl

/-- Settles O15: `P_FROUND`, lane by lane in each order. -/
theorem froundMixesEveryLane : Obligations.FroundMixesEveryLane := by
  intro s hr hq hrn
  refine ⟨fastRound s.cfg s.s s.w s.rn.toNat, ?_, fun hp i hi => ?_, fun hp i hi => ?_⟩
  · rw [← add_one_eq_ofNat]
    exact ⟨_, exec_fround hr hq hrn, rfl⟩
  · rw [lane_fastRound_of_snapshot hp _ _ _ hi, lane_mod, lane_mod]
    rfl
  · exact lane_fastRound_of_inPlace hp s.s s.w s.rn.toNat hi

/-! ### The block word no fast round reads (R167, R171) -/

/-- Lane i of round r reads `W[i + r]`, at most `W[14]`. -/
theorem fastLane_setBlockWord_last (p : Config.Params) (s : Words8) (w : Words16) (x : Word) {r i : Nat}
    (hr : r < 8) (hi : i < 8) : fastLane p s (setBlockWord w 15 x) r i = fastLane p s w r i := by
  have hword : blockWord (setBlockWord w 15 x) (i + r) = blockWord w (i + r) := by
    rw [blockWord_setBlockWord, if_neg (by omega)]
  simp only [fastLane, hword]

theorem fastRound_setBlockWord_last (p : Config.Params) (s : Words8) (w : Words16) (x : Word) {r : Nat}
    (hr : r < 8) : fastRound p s (setBlockWord w 15 x) r = fastRound p s w r := by
  cases hp : p.fastLaneOrder with
  | snapshot =>
    refine words8_ext fun i hi => ?_
    rw [lane_fastRound_of_snapshot hp _ _ _ hi, lane_fastRound_of_snapshot hp _ _ _ hi,
      fastLane_setBlockWord_last p s w x hr hi]
  | inPlace =>
    have hlanes (n : Nat) (hn : n ≤ 8) :
        inPlaceLanes p s (setBlockWord w 15 x) r n = inPlaceLanes p s w r n := by
      induction n with
      | zero => rfl
      | succ n ih =>
        rw [inPlaceLanes, inPlaceLanes, ih (by omega), fastLane_setBlockWord_last p _ w x hr hn]
    rw [fastRound_of_inPlace hp, fastRound_of_inPlace hp, hlanes 8 le_rfl]

theorem fastRoundsUpTo_setBlockWord_last (p : Config.Params) (s : Words8) (w : Words16) (x : Word)
    {n : Nat} (hn : n ≤ 8) : fastRoundsUpTo p (setBlockWord w 15 x) s n = fastRoundsUpTo p w s n := by
  induction n with
  | zero => rfl
  | succ n ih =>
    rw [fastRoundsUpTo, fastRoundsUpTo, ih (by omega), fastRound_setBlockWord_last p _ w x hn]

/-- Settles O57: the eight rounds have the indices 0 to 7, and chaining reads no block word. -/
theorem fastPathIgnoresTheLastBlockWord : Obligations.FastPathIgnoresTheLastBlockWord := by
  intro p s w x
  have hrounds := fastRoundsUpTo_setBlockWord_last p s w x (n := Config.roundsFast) le_rfl
  rw [compressFast, compressFast, hrounds]

end Sys2Proof.Machine

/-! `COMPRESS` and the commands of one phase by what they compute (spec/46_sequencer.md R187, R188, R196): a
finished command is written `inPhase i .idle s`, where `s` holds what was computed and `inPhase` sets the
sequencer's own fields, which have no meaning while idle. -/

namespace Sys2Proof.Machine

open Sys2Proof.Safety

/-! ### Outcomes -/

theorem andThen_viewOutcome (v : State → State) (o : Result) (k : State → Result) :
    andThen (viewOutcome v o) k = andThen o fun s => k (v s) := by
  cases o <;> rfl

theorem viewOutcome_andThen (v : State → State) (o : Result) (k : State → Result) :
    viewOutcome v (andThen o k) = andThen o fun s => viewOutcome v (k s) := by
  cases o <;> rfl

theorem viewOutcome_viewOutcome (v w : State → State) (o : Result) :
    viewOutcome v (viewOutcome w o) = viewOutcome (fun s => v (w s)) o := by
  cases o <;> rfl

/-! ### The sequencer's fields -/

/-- `s` with the command `i` in the phase `ph`, idle in the phase `IDLE` (R30). -/
def inPhase (i : Instr) (ph : Phase) (s : State) : State := goTo ph (accept i ph s)

/-- An accepted command is in its first phase. -/
theorem accept_eq_inPhase (i : Instr) {ph : Phase} (hph : ph ≠ .idle) (s : State) :
    accept i ph s = inPhase i ph s := by
  simp [inPhase, goTo, accept, hph]

theorem compressPhase_ne_idle (s : State) : compressPhase s ≠ .idle := by
  rcases compressPhase_cases s with ⟨-, h⟩ | ⟨-, h⟩ <;> rw [h] <;> nofun

theorem runBusy_inPhase (i : Instr) {ph : Phase} {s : State} (n : Nat) (hph : ph ≠ .idle)
    (hq : quiet s) :
    runBusy (n + 1) (inPhase i ph s) = andThen (phaseStep (inPhase i ph s)) (runBusy n) :=
  runBusy_goTo (s := accept i ph s) n hph hq

theorem schedStep_inPhase (i : Instr) (ph : Phase) (s : State) :
    schedStep (inPhase i ph s) = viewOutcome (inPhase i ph) (schedStep s) := by
  have hmode : (inPhase i ph s).mode = s.mode := rfl
  have hread : firstUnwritten (inPhase i ph s).msg (inPhase i ph s).mlen.toNat 0 =
      firstUnwritten s.msg s.mlen.toNat 0 := rfl
  unfold schedStep
  rw [hmode, hread]
  cases s.mode with
  | fast => rfl
  | standard => cases firstUnwritten s.msg s.mlen.toNat 0 <;> rfl

theorem loadStep_inPhase (i : Instr) (ph : Phase) (s : State) :
    loadStep (inPhase i ph s) = viewOutcome (inPhase i ph) (loadStep s) := by
  simp only [loadStep, inPhase, goTo, accept]
  cases firstUnwritten s.msg (min s.mlen.toNat (64 * s.blk.toNat + 64) - 64 * s.blk.toNat)
    (64 * s.blk.toNat) <;> rfl

theorem phaseStep_pSched (i : Instr) (s : State) :
    phaseStep (inPhase i .pSched s) = viewOutcome
      (inPhase i (if runsHash (inPhase i .pSched s) then .pLoad else .idle)) (schedStep s) := by
  have hstep : phaseStep (inPhase i .pSched s) = andThen (schedStep (inPhase i .pSched s))
      fun t => .next (goTo (if runsHash t then .pLoad else .idle) t) := rfl
  rw [hstep, schedStep_inPhase, andThen_viewOutcome]
  cases schedStep s <;> rfl

theorem phaseStep_pLoad (i : Instr) (s : State) :
    phaseStep (inPhase i .pLoad s) = viewOutcome
      (inPhase i (afterLoad (inPhase i .pLoad s))) (loadStep s) := by
  have hstep : phaseStep (inPhase i .pLoad s) = andThen (loadStep (inPhase i .pLoad s))
      fun t => .next (goTo (afterLoad t) t) := rfl
  rw [hstep, loadStep_inPhase, andThen_viewOutcome]
  rcases loadStep_cases s with ⟨a, -, h⟩ | ⟨-, h⟩ <;> rw [h] <;> rfl

/-! ### Single commands -/

section Ready

variable {s : State} (hr : ready s) (hq : quiet s)

include hr hq

theorem exec_init (f : Mode) : exec (.init f) s = .next (inPhase (.init f) .idle (initStep f s)) :=
  exec_of_stepBound_eq_one hr hq ⟨by cases f <;> simp, by simp, by simp⟩ nofun nofun rfl

theorem exec_sched_eq (hl : lengthFits s) :
    exec .sched s = viewOutcome (inPhase .sched .idle) (schedStep s) :=
  (exec_of_stepBound_eq_one (i := .sched) hr hq ⟨fun _ => hl, nofun, nofun⟩ nofun nofun rfl).trans
    (phaseStep_pSched .sched s)

theorem exec_load_eq (hl : lengthFits s) (hblk : blockExists s) :
    exec .load s = viewOutcome (inPhase .load .idle) (loadStep s) :=
  (exec_of_stepBound_eq_one (i := .load) hr hq ⟨fun _ => hl, fun _ => hblk, nofun⟩ nofun nofun
    rfl).trans
    (phaseStep_pLoad .load s)

/-- `COMPRESS` folds the block in `W` (R188). -/
theorem exec_compress : exec .compress s = .next (inPhase .compress .idle (folded s)) := by
  have hstart : startState .compress s = inPhase .compress (compressPhase s) { s with rn := 0 } :=
    accept_eq_inPhase _ (compressPhase_ne_idle s) _
  rw [exec_of_legal (i := .compress) hr.1 hr.2 ⟨nofun, nofun, nofun⟩ nofun nofun, hstart]
  exact runBusy_compression (s := accept .compress (compressPhase s) { s with rn := 0 }) hq rfl rfl

end Ready

/-- Settles O10: `P_INIT` is the only phase of `INIT`. -/
theorem initStartsAComputation : Obligations.InitStartsAComputation :=
  fun _ f hr hq => ⟨_, exec_init hr hq f, rfl⟩

/-- Settles O17: the block function of the mode, by `exec_compress`. -/
theorem compressFoldsTheBlock : Obligations.CompressFoldsTheBlock := by
  intro s hr hq
  have hcompletes : completesWith .compress s (folded s) := ⟨_, exec_compress hr hq, rfl⟩
  rw [folded] at hcompletes
  constructor
  · intro hm
    have hfold : foldBlock s.cfg s.mode s.rc.toNat s.s s.w = compressStd s.cfg s.s s.w s.rc.toNat := by
      rw [hm]; rfl
    rwa [hfold] at hcompletes
  · intro hm
    have hfold : foldBlock s.cfg s.mode s.rc.toNat s.s s.w = compressFast s.cfg s.s s.w := by
      rw [hm]; rfl
    rwa [hfold] at hcompletes

/-- Settles O18: the end of the run of `HASH`. -/
theorem hashComputesTheDigest : Obligations.HashComputesTheDigest := by
  intro s m f hr hq hl hm
  refine ⟨_, exec_hash hr hq hl hm, ?_⟩
  cases f <;> rfl

/-! ### `COMPRESS` as its sequence of primitive commands -/

/-- The command of one round of a mode (R154, R170). -/
def roundCommand : Mode → Instr
  | .standard => .round
  | .fast => .fround

/-- One round command is one turn of the loop. -/
theorem exec_roundCommand {s : State} {x : Words8} (hr : ready s) (hq : quiet s)
    (hlt : s.rn.toNat < roundTotal s) (hx : s.s = roundsOf s.cfg s.mode s.w x s.rn.toNat) :
    exec (roundCommand s.mode) s = .next (inPhase (roundCommand s.mode) .idle (roundDone s x)) := by
  cases hm : s.mode with
  | standard =>
    have ht : roundStep s = roundDone s x := by
      simp only [roundDone, roundStep, hx, hm, roundsOf, roundsUpTo]
    rw [← ht]
    exact exec_round hr hq
  | fast =>
    have ht : froundStep s = roundDone s x := by
      simp only [roundDone, froundStep, hx, hm, roundsOf, fastRoundsUpTo]
    have h8 : s.rn.toNat < 8 := by simpa [roundTotal, hm, Config.roundsFast] using hlt
    rw [← ht]
    exact exec_fround hr hq h8

/-- The round commands that are left, and `CHAIN`, do what the rounds that are left and `P_CHAIN` do. -/
theorem runMany_rounds_chain {s : State} {x : Words8} (k : Nat) (hr : ready s) (hq : quiet s)
    (hk : s.rn.toNat + k = roundTotal s) (hx : s.s = roundsOf s.cfg s.mode s.w x s.rn.toNat) :
    runMany (List.replicate k (roundCommand s.mode) ++ [.chain]) s =
      .next (inPhase .chain .idle { s with
        s := chain s.cfg (roundsOf s.cfg s.mode s.w x (roundTotal s)), blk := s.blk + 1, rn := 0 }) := by
  induction k generalizing s with
  | zero =>
    have hchain : exec .chain s = .next (inPhase .chain .idle (chainStep s)) := exec_chain hr hq
    rw [← hk, Nat.add_zero, ← hx]
    exact congrArg (andThen · (runMany [])) hchain
  | succ k ih =>
    have hlt : s.rn.toNat < roundTotal s := by omega
    have hrn : (s.rn + 1).toNat = s.rn.toNat + 1 :=
      toNat_add_one _ (Nat.lt_of_le_of_lt hlt (roundTotal_lt s))
    rw [List.replicate_succ, List.cons_append, runMany, exec_roundCommand hr hq hlt hx, andThen_next]
    have hk' : (s.rn + 1).toNat + k = roundTotal s := by omega
    exact ih (s := inPhase (roundCommand s.mode) .idle (roundDone s x)) ⟨rfl, hr.2⟩ hq hk'
      (congrArg (roundsOf s.cfg s.mode s.w x) hrn.symm)

/-- From the diffused words the round commands and `CHAIN` fold the block. -/
theorem runMany_rounds_folded {s : State} (hr : ready s) (hq : quiet s) (hrn : s.rn = 0) :
    runMany (List.replicate (roundTotal s) (roundCommand s.mode) ++ [.chain]) (diffusedState s) =
      .next (inPhase .chain .idle (folded s)) := by
  have hstart : (diffusedState s).rn.toNat = 0 := by simp [diffusedState, hrn]
  have hrounds := runMany_rounds_chain (s := diffusedState s) (x := (diffusedState s).s) (roundTotal s)
    hr hq (by rw [hstart, Nat.zero_add]; rfl) (by rw [hstart, roundsOf_zero])
  rw [folded, foldBlock_eq_chain]
  exact hrounds

/-- Settles O26: in standard mode `TDIFF` diffuses the words, in fast mode they are as they were. -/
theorem compressEqualsItsCommandSequence : Obligations.CompressEqualsItsCommandSequence := by
  intro s hr hq
  rw [exec_compress hr hq]
  constructor
  · intro hm
    have hu : ready { s with rn := 0 } := hr
    have htdiff : exec .tdiff { s with rn := 0 } =
        .next (diffusedState (inPhase .tdiff .idle { s with rn := 0 })) := by
      rw [exec_tdiff hu hq]
      simp only [diffusedState, diffused, inPhase, goTo_mode, accept_mode, hm]
      rfl
    have hseq := runMany_rounds_folded (s := inPhase .tdiff .idle { s with rn := 0 }) ⟨rfl, hr.2⟩ hq
      rfl
    have htotal : roundTotal (inPhase .tdiff .idle { s with rn := 0 }) = s.rc.toNat := by
      simp [roundTotal, inPhase, hm]
    have hround : roundCommand (inPhase .tdiff .idle { s with rn := 0 }).mode = .round := by
      simp [roundCommand, inPhase, hm]
    rw [htotal, hround] at hseq
    rw [runMany, htdiff, andThen_next, hseq]
    rfl
  · intro hm
    have hseq := runMany_rounds_folded (s := { s with rn := 0 }) hr hq rfl
    have hdiffused : diffusedState { s with rn := 0 } = { s with rn := 0 } := by
      simp only [diffusedState, diffused, hm]
    have htotal : roundTotal { s with rn := 0 } = 8 := by simp [roundTotal, hm, Config.roundsFast]
    have hround : roundCommand { s with rn := 0 }.mode = .fround := by simp [roundCommand, hm]
    rw [hdiffused, htotal, hround] at hseq
    rw [hseq]
    rfl

end Sys2Proof.Machine

/-! `HASH` as what it computes block by block (spec/46_sequencer.md R189, R195, R196), the stop at an unwritten
byte included: `hashRun` is the outcome of the run of `HASH` and of its sequence of primitive commands. -/

namespace Sys2Proof.Machine

open Sys2Proof.Safety

/-! ### The blocks -/

/-- `k` blocks loaded and folded one after another (R189). -/
def hashBlocks : (k : Nat) → State → Result
  | 0, s => .next s
  | k + 1, s => andThen (loadStep s) fun t => hashBlocks k (folded t)

/-- What `HASH` computes (R189). -/
def hashRun (f : Mode) (s : State) : Result :=
  andThen (schedStep (initStep f s)) (hashBlocks (blockCount s.mlen.toNat))

/-- Everything `P_LOAD` can do, by the state it leaves. -/
theorem loadStep_eq_loaded_or_fault (s : State) :
    loadStep s = .next (loaded s) ∨ ∃ r, loadStep s = .fault r := by
  rcases loadStep_cases s with ⟨a, -, h⟩ | ⟨-, h⟩
  · exact .inr ⟨_, h⟩
  · exact .inl h

/-- One block of the run of `HASH`. -/
theorem runBusy_hash_block (f : Mode) {s : State} (hq : quiet s) (hrn : s.rn = 0)
    (hblk : blockExists s) :
    runBusy (1 + compressSteps s) (inPhase (.hash f) .pLoad s) =
      andThen (loadStep s) fun t => .next (inPhase (.hash f)
        (if s.blk.toNat + 1 < blockCount s.mlen.toNat then .pLoad else .idle) (folded t)) := by
  have hafter : afterLoad (inPhase (.hash f) .pLoad s) = compressPhase s := rfl
  rw [Nat.add_comm, runBusy_inPhase _ _ (by simp) hq, phaseStep_pLoad, andThen_viewOutcome, hafter]
  rcases loadStep_eq_loaded_or_fault s with h | ⟨r, h⟩ <;> rw [h]
  · have hnext : afterChain (folded (accept (.hash f) .pLoad (loaded s))) =
        if s.blk.toNat + 1 < blockCount s.mlen.toNat then .pLoad else .idle := by
      have hhash : runsHash (folded (accept (.hash f) .pLoad (loaded s))) = true := rfl
      rw [← blk_add_one hblk, afterChain, hhash, Bool.true_and]
      simp only [decide_eq_true_eq]
      rfl
    rw [andThen_next, andThen_next, ← hnext]
    exact runBusy_compression (s := accept (.hash f) .pLoad (loaded s)) hq rfl hrn
  · rfl

/-- The blocks that are left of the run of `HASH`. -/
theorem runBusy_hash_blocks (f : Mode) {s : State} (k : Nat) (hq : quiet s) (hrn : s.rn = 0)
    (hk : s.blk.toNat + (k + 1) = blockCount s.mlen.toNat) :
    runBusy ((k + 1) * (1 + compressSteps s)) (inPhase (.hash f) .pLoad s) =
      viewOutcome (inPhase (.hash f) .idle) (hashBlocks (k + 1) s) := by
  induction k generalizing s with
  | zero =>
    have hblk : blockExists s := by unfold blockExists; omega
    rw [Nat.zero_add, Nat.one_mul, runBusy_hash_block f hq hrn hblk, if_neg (by omega), hashBlocks,
      viewOutcome_andThen]
    rfl
  | succ k ih =>
    have hblk : blockExists s := by unfold blockExists; omega
    have hnext := blk_add_one hblk
    rw [Nat.succ_mul, Nat.add_comm, runBusy_add, runBusy_hash_block f hq hrn hblk, if_pos (by omega),
      andThen_assoc, hashBlocks, viewOutcome_andThen]
    rcases loadStep_eq_loaded_or_fault s with h | ⟨r, h⟩ <;> rw [h]
    · exact ih (s := folded (loaded s)) hq rfl
        (by change (s.blk + 1).toNat + (k + 1) = blockCount s.mlen.toNat; omega)
    · rfl

/-- The commands of the blocks that are left do the same. -/
theorem runMany_hash_blocks (i : Instr) {s : State} (k : Nat) (he : s.err = false) (hq : quiet s)
    (hl : lengthFits s) (hk : s.blk.toNat + k = blockCount s.mlen.toNat) :
    viewOutcome registerView
        (runMany (List.replicate k [Instr.load, .compress]).flatten (inPhase i .idle s)) =
      viewOutcome (fun t => registerView (inPhase i .idle t)) (hashBlocks k s) := by
  induction k generalizing i s with
  | zero => rfl
  | succ k ih =>
    have hblk : blockExists s := by unfold blockExists; omega
    have hload : exec .load (inPhase i .idle s) =
        viewOutcome (fun t => inPhase .load .idle (inPhase i .idle t)) (loadStep s) := by
      rw [exec_load_eq (s := inPhase i .idle s) ⟨rfl, he⟩ hq hl hblk, loadStep_inPhase,
        viewOutcome_viewOutcome]
    rw [List.replicate_succ, List.flatten_cons, List.cons_append, List.cons_append, List.nil_append,
      runMany, hload, andThen_viewOutcome, hashBlocks, viewOutcome_andThen, viewOutcome_andThen]
    rcases loadStep_eq_loaded_or_fault s with h | ⟨r, h⟩ <;> rw [h]
    · have hcompress := exec_compress (s := inPhase .load .idle (loaded s)) ⟨rfl, he⟩ hq
      have hnext := blk_add_one hblk
      have hrest := ih .compress (s := folded (loaded s)) he hq hl
        (by change (s.blk + 1).toNat + k = blockCount s.mlen.toNat; omega)
      simp only [andThen_next, runMany]
      exact (congrArg (fun o => viewOutcome registerView (andThen o _)) hcompress).trans hrest
    · rfl

/-! ### The whole of `HASH` -/

theorem compressSteps_le (s : State) : compressSteps s ≤ 65 := by
  have := s.rc.isLt
  unfold compressSteps Config.roundsFast
  split <;> omega

/-- Everything `P_SCHED` can do, by the state it leaves. -/
theorem schedStep_eq_scheduled_or_fault (s : State) :
    (∃ seen rc, schedStep s = .next (scheduled s seen rc)) ∨ ∃ r, schedStep s = .fault r := by
  rcases schedStep_cases s with ⟨-, h⟩ | ⟨-, a, -, h⟩ | ⟨-, -, h⟩
  · exact .inl ⟨_, _, h⟩
  · exact .inr ⟨_, h⟩
  · exact .inl ⟨_, _, h⟩

/-- A command that has ended, or stopped, stays so. -/
theorem runBusy_of_ended (i : Instr) (n : Nat) (o : Result) :
    andThen (viewOutcome (inPhase i .idle) o) (runBusy n) = viewOutcome (inPhase i .idle) o := by
  cases o with
  | next t => exact runBusy_idle n rfl
  | fault r => rfl
  | refused r => rfl

/-- The run of `HASH` has the outcome of `hashRun`. -/
theorem exec_hash_eq_hashRun {s : State} (f : Mode) (hr : ready s) (hq : quiet s) (hl : lengthFits s) :
    exec (.hash f) s = viewOutcome (inPhase (.hash f) .idle) (hashRun f s) := by
  have hop : operandsLegal (.hash f) s := ⟨fun _ => hl, nofun, nofun⟩
  have hinit (n : Nat) : runBusy (n + 1) (startState (.hash f) s) =
      runBusy n (inPhase (.hash f) .pSched (initStep f s)) :=
    runBusy_inPhase (.hash f) (ph := .pInit) n (by simp) hq
  have hsched (n : Nat) : runBusy (n + 1) (inPhase (.hash f) .pSched (initStep f s)) =
      andThen (schedStep (initStep f s)) fun t => runBusy n (inPhase (.hash f) .pLoad t) := by
    rw [runBusy_inPhase (s := initStep f s) _ _ (by simp) hq, phaseStep_pSched, andThen_viewOutcome]
    rfl
  have hbound : stepBound (.hash f) s = blockCount s.mlen.toNat * 66 + 1 + 1 := by
    rw [stepBound, hashStepBound, Nat.add_comm]
  rw [exec_of_legal hr.1 hr.2 hop nofun nofun, hbound, hinit, hsched, hashRun, viewOutcome_andThen]
  rcases schedStep_eq_scheduled_or_fault (initStep f s) with ⟨seen, rc, h⟩ | ⟨r, h⟩ <;> rw [h]
  · have hsteps : blockCount s.mlen.toNat * (1 + compressSteps (scheduled (initStep f s) seen rc)) ≤
        blockCount s.mlen.toNat * 66 :=
      Nat.mul_le_mul_left _ (by have := compressSteps_le (scheduled (initStep f s) seen rc); omega)
    obtain ⟨rest, hrest⟩ := Nat.exists_eq_add_of_le hsteps
    have hblocks := runBusy_hash_blocks f (s := scheduled (initStep f s) seen rc)
      (blockCount s.mlen.toNat - 1) hq rfl (Nat.zero_add _)
    rw [andThen_next, andThen_next, hrest, runBusy_add]
    exact (congrArg (andThen · (runBusy rest)) hblocks).trans (runBusy_of_ended _ rest _)
  · rfl

/-- Settles O25: the run and the sequence of commands both have the outcome of `hashRun`. -/
theorem hashEqualsItsCommandSequence : Obligations.HashEqualsItsCommandSequence := by
  intro s f hr hq hl
  have hinit := exec_init hr hq f
  have hsched : exec .sched (inPhase (.init f) .idle (initStep f s)) =
      viewOutcome (fun t => inPhase .sched .idle (inPhase (.init f) .idle t)) (schedStep (initStep f s)) := by
    rw [exec_sched_eq (s := inPhase (.init f) .idle (initStep f s)) ⟨rfl, hr.2⟩ hq hl, schedStep_inPhase,
      viewOutcome_viewOutcome]
  rw [exec_hash_eq_hashRun f hr hq hl, viewOutcome_viewOutcome, runMany, hinit, andThen_next, runMany,
    hsched, andThen_viewOutcome, viewOutcome_andThen, hashRun, viewOutcome_andThen]
  rcases schedStep_eq_scheduled_or_fault (initStep f s) with ⟨seen, rc, h⟩ | ⟨r, h⟩ <;> rw [h]
  · exact (runMany_hash_blocks .sched (s := scheduled (initStep f s) seen rc) (blockCount s.mlen.toNat)
      hr.2 hq hl (Nat.zero_add _)).symm
  · rfl

/-! ### The message in the buffer, or an unwritten byte -/

/-- The bytes of the buffer below `MLEN`. -/
def bufferMessage (s : State) : List Byte := (List.range s.mlen.toNat).map (msgByte s.msg)

theorem holdsMessage_bufferMessage {s : State} (hw : messageWritten s) :
    holdsMessage s (bufferMessage s) := by
  refine ⟨by simp [bufferMessage], fun a ha => ?_⟩
  have hlt : a < s.mlen.toNat := by simpa [bufferMessage] using ha
  obtain ⟨b, hb⟩ := Option.isSome_iff_exists.1 (hw a hlt)
  simp [bufferMessage, hlt, msgByte, hb]

/-- Loading the blocks stops at the lowest unwritten byte of the message. -/
theorem hashBlocks_of_unwritten {s : State} {a : Nat} (k : Nat)
    (ha : firstUnwritten s.msg s.mlen.toNat 0 = some a) (hlow : 64 * s.blk.toNat ≤ a)
    (hk : s.blk.toNat + k = blockCount s.mlen.toNat) :
    hashBlocks k s = .fault (.unwrittenMessageByte a) := by
  obtain ⟨-, hlt, hnone, hbelow⟩ := (firstUnwritten_eq_some_iff _ _ _ _).1 ha
  induction k generalizing s with
  | zero =>
    unfold blockCount at hk
    omega
  | succ k ih =>
    have hblk : blockExists s := by unfold blockExists; omega
    rw [hashBlocks]
    rcases loadStep_cases s with ⟨b, hb, h⟩ | ⟨hb, h⟩ <;> rw [h]
    · obtain ⟨hblow, hbhigh, hbnone, hbbelow⟩ := (firstUnwritten_eq_some_iff _ _ _ _).1 hb
      have hab : ¬ a < b := fun hab => by simpa [hnone] using hbbelow a hlow hab
      have hba : ¬ b < a := fun hba => by simpa [hbnone] using hbelow b (Nat.zero_le b) hba
      rw [andThen_fault, Nat.le_antisymm (Nat.le_of_not_lt hab) (Nat.le_of_not_lt hba)]
    · have hhigh : ¬ a < 64 * s.blk.toNat + 64 := fun hhigh => by
        simpa [hnone] using (firstUnwritten_eq_none_iff _ _ _).1 hb a hlow (by omega)
      have hnext := blk_add_one hblk
      exact ih (s := folded (loaded s)) ha
        (by change 64 * (s.blk + 1).toNat ≤ a; omega)
        (by change (s.blk + 1).toNat + k = blockCount s.mlen.toNat; omega) hlt hnone hbelow

/-- In both modes `HASH` stops at the lowest unwritten byte of the message (R249; log 5). -/
theorem exec_hash_of_unwritten {s : State} {a : Nat} (f : Mode) (hr : ready s) (hq : quiet s)
    (hl : lengthFits s) (ha : firstUnwritten s.msg s.mlen.toNat 0 = some a) :
    exec (.hash f) s = .fault (.unwrittenMessageByte a) := by
  rw [exec_hash_eq_hashRun f hr hq hl, hashRun]
  rcases schedStep_cases (initStep f s) with ⟨-, h⟩ | ⟨-, b, hb, h⟩ | ⟨-, hb, -⟩
  · rw [h]
    exact congrArg (viewOutcome _)
      (hashBlocks_of_unwritten (s := scheduled (initStep f s) 0 8) _ ha (Nat.zero_le a) (Nat.zero_add _))
  · cases ha.symm.trans hb
    rw [h]
    rfl
  · cases ha.symm.trans hb

/-- Which byte is the lowest unwritten one depends on the bytes searched only. -/
theorem firstUnwritten_congr {m m' : List Host.Cell} {n a : Nat}
    (h : ∀ x, x < a + n → msgRead m x = msgRead m' x) : firstUnwritten m n a = firstUnwritten m' n a := by
  induction n generalizing a with
  | zero => rfl
  | succ n ih =>
    rw [firstUnwritten, firstUnwritten, h a (by omega), ih fun x hx => h x (by omega)]

/-- Settles O24: with the message written both engines hold the same message; otherwise the same byte is
the lowest unwritten one. -/
theorem hashDependsOnTheMessageOnly : Obligations.HashDependsOnTheMessageOnly := by
  intro f s t hrs hqs hrt hqt hls hcfg hmlen hmsg
  have hlt : lengthFits t := by rw [lengthFits, ← hmlen, ← hcfg]; exact hls
  have hsame : firstUnwritten s.msg s.mlen.toNat 0 = firstUnwritten t.msg t.mlen.toNat 0 := by
    rw [← hmlen]
    exact firstUnwritten_congr fun a ha => hmsg a (by omega)
  cases hs : firstUnwritten s.msg s.mlen.toNat 0 with
  | some a =>
    exact .inr ⟨_, exec_hash_of_unwritten f hrs hqs hls hs,
      exec_hash_of_unwritten f hrt hqt hlt (hsame ▸ hs)⟩
  | none =>
    have hw : messageWritten s := fun a ha =>
      (firstUnwritten_eq_none_iff _ _ _).1 hs a (Nat.zero_le a) (by omega)
    have hms := holdsMessage_bufferMessage hw
    have hmt : holdsMessage t (bufferMessage s) :=
      ⟨hmlen ▸ hms.1, fun a ha => (hmsg a (hms.1 ▸ ha)).symm.trans (hms.2 a ha)⟩
    refine .inl ⟨_, _, exec_hash hrs hqs hls hms, exec_hash hrt hqt hlt hmt, ?_⟩
    simp [hashed, hcfg]

end Sys2Proof.Machine

/-! The single engine step and the commands that run none (spec/46_sequencer.md R185, R186, R190, R191). -/

namespace Sys2Proof.Machine

open Sys2Proof.Safety

/-! ### The acceptance of a command (R191) -/

/-- Case 1: a busy engine drops every command. -/
theorem exec_of_busy (i : Instr) {s : State} (hb : s.busy = true) :
    exec i s = .next (raise .busyAccess 0 s) := by
  rw [exec_eq_issue]
  exact if_pos hb

/-- Case 2: after an error every command but `CLRERR` is ignored. -/
theorem exec_of_err {i : Instr} {s : State} (hb : s.busy = false) (he : s.err = true)
    (hi : i ≠ .clrerr) : exec i s = .next s := by
  simp [exec_eq_issue, issue, hb, he, hi]

theorem exec_nop_of_idle {s : State} (hb : s.busy = false) : exec .nop s = .next s := by
  cases he : s.err with
  | true => exact exec_of_err hb he nofun
  | false => exact issue_ready .nop none _ hb he

theorem exec_clrerr_of_idle {s : State} (hb : s.busy = false) :
    exec .clrerr s = .next (clearError s) := by
  simp [exec_eq_issue, issue, hb, operandCheck, acceptedRun]

/-- An empty record stays as it is. -/
theorem clearError_eq_self {s : State} (hinv : errorInv s) (he : s.err = false) : clearError s = s := by
  obtain ⟨hecode, heinfo⟩ := hinv.2 he
  rw [clearError, ← he, ← hecode, ← heinfo]

/-- Settles O30: case 1 of the acceptance. -/
theorem commandsWhileBusyAreDropped : Obligations.CommandsWhileBusyAreDropped :=
  fun i _ hb => exec_of_busy i hb

/-- Settles O8: no case of the acceptance of `NOP` changes an idle engine. -/
theorem nopHasNoEffect : Obligations.NopHasNoEffect :=
  fun _ => ⟨exec_nop_of_idle, exec_of_busy .nop⟩

/-- Settles O9: `CLRERR` passes the error filter, and no other command does. -/
theorem clrerrClearsTheErrorRecord : Obligations.ClrerrClearsTheErrorRecord := by
  refine fun s => ⟨exec_clrerr_of_idle, fun hb hinv he => ?_, fun hb he i => exec_of_err hb he,
    exec_of_busy .clrerr⟩
  rw [exec_clrerr_of_idle hb, clearError_eq_self hinv he]

/-- Settles O5: the decoded command is the one whose word it is. -/
theorem stepRunsTheDecodedCommand : Obligations.StepRunsTheDecodedCommand := by
  constructor
  · intro s a rest c i hb hinbox hdecode
    refine step_command hb (a := a) (rest := rest) ?_
    rw [hinbox, ← encode_of_decode hdecode]
    rfl
  · intro s i hb
    have hword : BitVec.ofNat 32 ((encode i).toNat % 2 ^ 32) = encode i := by
      rw [Nat.mod_eq_of_lt (encode i).isLt, BitVec.ofNat_toNat, BitVec.setWidth_eq]
    have hinbox : (s.withFetchWord 32 (encode i).toNat).inbox = ⟨.whenIdle, lineCommand i⟩ :: s.inbox := by
      rw [State.withFetchWord, hword]
      rfl
    exact step_command hb hinbox

/-! ### One phase (Table R190) -/

/-- With a quiet host a step of a busy engine is one phase. -/
theorem step_of_quiet {s : State} (hb : s.busy = true) (hq : quiet s) : step s = phaseStep s := by
  rw [step_of_busy hb, tick_of_quiet hb hq]

theorem phaseStep_of_pSched {s : State} (hp : s.seqPh = .pSched) :
    phaseStep s = andThen (schedStep s) fun t =>
      .next (goTo (if s.seqOp = 0x18 then .pLoad else .idle) t) := by
  simp only [phaseStep, hp, ← runsHash_iff]
  rcases schedStep_eq_scheduled_or_fault s with ⟨seen, rc, h⟩ | ⟨r, h⟩ <;> rw [h] <;> rfl

theorem phaseStep_of_pLoad {s : State} (hp : s.seqPh = .pLoad) :
    phaseStep s = andThen (loadStep s) fun t => .next (goTo
      (if s.seqOp = 0x18 then (if s.mode = .standard then .pTdiff else .pFround) else .idle) t) := by
  have hfirst : (if s.mode = .standard then Phase.pTdiff else .pFround) = compressPhase s := by
    rcases compressPhase_cases s with ⟨hm, h⟩ | ⟨hm, h⟩ <;> simp [hm, h]
  simp only [phaseStep, hp, ← runsHash_iff, hfirst]
  rcases loadStep_eq_loaded_or_fault s with h | ⟨r, h⟩ <;> rw [h] <;> rfl

/-- Settles O7: phase by phase, the transition tested on the registers after the phase's own update. -/
theorem busyStepFollowsThePhaseTable : Obligations.BusyStepFollowsThePhaseTable := by
  intro s hb hq
  rw [step_of_quiet hb hq]
  refine ⟨fun hp => ?_, phaseStep_of_pSched, phaseStep_of_pLoad, fun hp => ?_, fun hp => ?_,
    fun hp => ?_, fun hp => ?_⟩
  · simp only [phaseStep, hp, ← runsHash_iff]
    rfl
  · simp only [phaseStep, hp, ← runsComposite_iff]
    rfl
  · simp only [phaseStep, hp, ← runsComposite_iff]
    rfl
  · simp only [phaseStep, hp, ← runsComposite_iff]
    rfl
  · simp only [phaseStep, hp, ← runsHash_iff]
    simp only [afterChain, Bool.and_eq_true, decide_eq_true_eq]
    rfl

end Sys2Proof.Machine

/-! The length of a run (spec/46_sequencer.md R189, R190, R192). The one idea is a number, `stepsLeft`, that is 0
on an idle engine and that every engine step lowers by one, whatever reads and writes land during it: it
bounds every command, and for `HASH` it is the stated number of steps. -/

namespace Sys2Proof.Machine

open Sys2Proof.Safety

/-! ### No stop where the message is written (R249) -/

theorem messageWritten_of_engineView_eq {s t : State} (h : engineView t = engineView s)
    (hw : messageWritten s) : messageWritten t := by
  obtain ⟨-, -, -, -, -, -, -, -, hmlen, -, -, -, -, hmsg⟩ := eq_of_engineView_eq h
  simpa only [messageWritten, hmlen, hmsg] using hw

/-- After a reset the message is empty. -/
theorem messageWritten_resetEvent (s : State) : messageWritten (resetEvent s) :=
  fun _ ha => absurd ha (Nat.not_lt_zero _)

theorem schedStep_next_of_written {s : State} (hw : messageWritten s) :
    ∃ t, schedStep s = .next t := by
  cases hm : s.mode with
  | standard => exact ⟨_, schedStep_of_written hm hw⟩
  | fast => exact ⟨_, schedStep_of_fast hm⟩

theorem phaseStep_next_of_written {s : State} (hw : messageWritten s) :
    ∃ t, phaseStep s = .next t := by
  obtain ⟨u, hsched⟩ := schedStep_next_of_written hw
  have hload := loadStep_of_written hw
  cases hp : s.seqPh with
  | pSched => exact ⟨_, by simp only [phaseStep, hp, hsched, andThen_next]; rfl⟩
  | pLoad => exact ⟨_, by simp only [phaseStep, hp, hload, andThen_next]; rfl⟩
  | idle | pInit | pTdiff | pRound | pFround | pChain => exact ⟨_, by simp only [phaseStep, hp]; rfl⟩

theorem messageWritten_phaseStep {s t : State} (hw : messageWritten s) (h : phaseStep s = .next t) :
    messageWritten t := by
  obtain ⟨-, hmlen, hmsg, -⟩ := phaseStep_keeps h
  simpa only [messageWritten, hmlen, hmsg] using hw

theorem tick_of_written {s : State} (hb : s.busy = true) (hw : messageWritten s) :
    ∃ t, tick s = .next t ∧ messageWritten t := by
  rcases tick_cases hb with ⟨u, hu, -, h⟩ | ⟨v, l, -, h, -⟩
  · have hwu := messageWritten_of_engineView_eq hu hw
    obtain ⟨t, ht⟩ := phaseStep_next_of_written hwu
    have hwt : messageWritten t := messageWritten_phaseStep hwu ht
    exact ⟨{ t with inbox := elapse t.inbox }, by rw [h, ht, andThen_next], hwt⟩
  · exact ⟨_, h, messageWritten_resetEvent v⟩

theorem runBusy_of_written (n : Nat) {s : State} (hw : messageWritten s) :
    ∃ t, runBusy n s = .next t := by
  induction n generalizing s with
  | zero => exact ⟨s, rfl⟩
  | succ n ih =>
    cases hb : s.busy with
    | false => exact ⟨s, runBusy_idle _ hb⟩
    | true =>
      obtain ⟨t, ht, hwt⟩ := tick_of_written hb hw
      rw [runBusy_succ n hb, ht]
      exact ih hwt

theorem messageWritten_startState (i : Instr) {s : State} (hw : messageWritten s) :
    messageWritten (startState i s) := by
  cases i <;> exact hw

/-- Settles O20: the only stop of a phase is at an unwritten byte, and no input unwrites one but a reset,
after which the message is empty. -/
theorem everyCommandCompletes : Obligations.EveryCommandCompletes := by
  intro i s hw
  rcases exec_cases i s with ⟨-, h⟩ | ⟨-, -, -, h⟩ | ⟨-, -, -, e, -, h⟩ | ⟨-, -, h⟩ | ⟨-, -, h⟩ |
    ⟨hb, he, hop, hnop, hclrerr, -⟩
  · exact ⟨_, h⟩
  · exact ⟨_, h⟩
  · exact ⟨_, h⟩
  · exact ⟨_, h⟩
  · exact ⟨_, h⟩
  · rw [exec_of_legal hb he hop hnop hclrerr]
    exact runBusy_of_written _ (messageWritten_startState i hw)

/-! ### The engine steps left -/

/-- The engine steps of a block of `HASH` as `SCHED` fixes them (R189). -/
def scheduledSteps (s : State) : Mode → Nat
  | .standard => 3 + scheduledRounds (uniqueBytes (bufferSeen s))
  | .fast => 10

/-- The engine steps of the blocks after the present one (R189). -/
def blocksAfter (s : State) : Nat :=
  if runsHash s then (blockCount s.mlen.toNat - (s.blk.toNat + 1)) * (1 + compressSteps s) else 0

/-- The engine steps left of the running command, the present phase included (Table R190). -/
def stepsLeft (s : State) : Nat :=
  match s.seqPh with
  | .idle => 0
  | .pInit => 1 + if runsHash s then 1 + blockCount s.mlen.toNat * scheduledSteps s s.seqF else 0
  | .pSched => 1 + if runsHash s then
      (blockCount s.mlen.toNat - s.blk.toNat) * scheduledSteps s s.mode else 0
  | .pLoad => 1 + if runsHash s then compressSteps s + blocksAfter s else 0
  | .pTdiff => 1 + if runsComposite s then s.rc.toNat + 1 + blocksAfter s else 0
  | .pRound => 1 + if runsComposite s then
      s.rc.toNat - (s.rn.toNat + 1) + 1 + blocksAfter s else 0
  | .pFround => 1 + if runsComposite s then 8 - (s.rn.toNat + 1) + 1 + blocksAfter s else 0
  | .pChain => 1 + blocksAfter s

theorem stepsLeft_engineView (s : State) : stepsLeft (engineView s) = stepsLeft s := rfl

theorem stepsLeft_of_engineView_eq {s t : State} (h : engineView t = engineView s) :
    stepsLeft t = stepsLeft s := by
  rw [← stepsLeft_engineView, h, stepsLeft_engineView]

/-- The run has ended exactly when no step is left. -/
theorem stepsLeft_eq_zero_iff {s : State} (hs : sequencerInv s) : stepsLeft s = 0 ↔ s.busy = false := by
  rw [hs.1]
  unfold stepsLeft
  cases s.seqPh <;> simp

theorem runsComposite_of_runsHash {s : State} (h : runsHash s = true) : runsComposite s = true := by
  simp [runsComposite, h]

theorem blocksAfter_of_not_runsComposite {s : State} (h : runsComposite s = false) :
    blocksAfter s = 0 := by
  have hh : runsHash s = false := by
    cases hh : runsHash s with
    | false => rfl
    | true => exact absurd (runsComposite_of_runsHash hh) (by simp [h])
  simp [blocksAfter, hh]

@[simp] theorem runsHash_goTo (ph : Phase) (s : State) : runsHash (goTo ph s) = runsHash s := rfl
@[simp] theorem runsComposite_goTo (ph : Phase) (s : State) :
    runsComposite (goTo ph s) = runsComposite s := rfl
@[simp] theorem blocksAfter_goTo (ph : Phase) (s : State) : blocksAfter (goTo ph s) = blocksAfter s := rfl
@[simp] theorem compressSteps_goTo (ph : Phase) (s : State) :
    compressSteps (goTo ph s) = compressSteps s := rfl
@[simp] theorem scheduledSteps_goTo (ph : Phase) (s : State) (f : Mode) :
    scheduledSteps (goTo ph s) f = scheduledSteps s f := by cases f <;> rfl
@[simp] theorem scheduledSteps_initStep (f' : Mode) (s : State) (f : Mode) :
    scheduledSteps (initStep f' s) f = scheduledSteps s f := by cases f <;> rfl

/-- A block that exists is the first of those left. -/
theorem stepsLeft_goTo_pLoad {s : State} (hh : runsHash s = true) (hblk : blockExists s) :
    stepsLeft (goTo .pLoad s) =
      (blockCount s.mlen.toNat - s.blk.toNat) * (1 + compressSteps s) := by
  have hleft : blockCount s.mlen.toNat - s.blk.toNat =
      blockCount s.mlen.toNat - (s.blk.toNat + 1) + 1 := by
    unfold blockExists at hblk
    omega
  simp only [stepsLeft, goTo_seqPh, goTo_mlen, goTo_blk, runsHash_goTo, compressSteps_goTo, hh, if_true,
    blocksAfter, hleft, Nat.succ_mul]
  omega

theorem stepsLeft_goTo_afterLoad {s : State} (hrn : runsHash s = true → s.rn = 0) :
    stepsLeft (goTo (afterLoad s) s) = if runsHash s then compressSteps s + blocksAfter s else 0 := by
  cases hh : runsHash s with
  | false => simp [afterLoad, hh, stepsLeft]
  | true =>
    have hc := runsComposite_of_runsHash hh
    rcases compressPhase_cases s with ⟨hm, hph⟩ | ⟨hm, hph⟩ <;>
      simp [afterLoad, hh, hph, stepsLeft, hc, compressSteps, hm, hrn hh, Config.roundsFast] <;> omega

theorem stepsLeft_goTo_afterRound (s : State) :
    stepsLeft (goTo (afterRound s) s) =
      if runsComposite s then s.rc.toNat - s.rn.toNat + 1 + blocksAfter s else 0 := by
  cases hc : runsComposite s with
  | false => simp [afterRound, hc, stepsLeft]
  | true =>
    by_cases hlt : s.rn.toNat < s.rc.toNat <;> simp [afterRound, hc, hlt, stepsLeft] <;> omega

/-- `P_TDIFF` leads into the loop at its start. -/
theorem stepsLeft_goTo_afterTdiff {s : State} (hrn : runsComposite s = true → s.rn = 0) :
    stepsLeft (goTo (afterTdiff s) s) =
      if runsComposite s then s.rc.toNat + 1 + blocksAfter s else 0 := by
  cases hc : runsComposite s with
  | false => simp [afterTdiff, hc, stepsLeft]
  | true =>
    have hloop : afterTdiff s = afterRound s := by simp [afterTdiff, afterRound, hrn hc]
    simp [hloop, stepsLeft_goTo_afterRound, hc, hrn hc]

theorem stepsLeft_goTo_afterFround (s : State) :
    stepsLeft (goTo (afterFround s) s) =
      if runsComposite s then 8 - s.rn.toNat + 1 + blocksAfter s else 0 := by
  cases hc : runsComposite s with
  | false => simp [afterFround, hc, stepsLeft]
  | true =>
    by_cases hlt : s.rn.toNat < 8 <;> simp [afterFround, hc, hlt, stepsLeft, Config.roundsFast] <;> omega

theorem stepsLeft_goTo_afterChain (s : State) :
    stepsLeft (goTo (afterChain s) s) = if runsHash s then
      (blockCount s.mlen.toNat - s.blk.toNat) * (1 + compressSteps s) else 0 := by
  cases hh : runsHash s with
  | false => simp [afterChain, hh, stepsLeft]
  | true =>
    by_cases hblk : blockExists s
    · have hnext : afterChain s = .pLoad := by simp [afterChain, hh, hblk]
      rw [hnext, stepsLeft_goTo_pLoad hh hblk, if_pos rfl]
    · have hnext : afterChain s = .idle := by simp [afterChain, hh, hblk]
      have hnone : blockCount s.mlen.toNat - s.blk.toNat = 0 := by
        unfold blockExists at hblk
        omega
      rw [hnext, hnone, Nat.zero_mul, ite_self]
      rfl

/-- The block length `SCHED` fixes is that of the round count it writes. -/
theorem compressSteps_scheduled {s : State} {seen : BitVec 256} {rc : BitVec 6}
    (h : schedStep s = .next (scheduled s seen rc)) :
    1 + compressSteps (scheduled s seen rc) = scheduledSteps s s.mode := by
  rcases schedStep_cases s with ⟨hm, h'⟩ | ⟨-, a, -, h'⟩ | ⟨hm, -, h'⟩ <;> rw [h'] at h
  · simp [compressSteps, scheduled, scheduledSteps, hm, Config.roundsFast]
  · cases h
  · have hrc : (scheduled s seen rc).rc.toNat = scheduledRounds (uniqueBytes (bufferSeen s)) := by
      rw [← Host.Outcome.next.inj h]
      exact toNat_scheduledRounds (bufferSeen s)
    have hmode : (scheduled s seen rc).mode = .standard := hm
    simp only [compressSteps, hmode, hrc, scheduledSteps, hm]
    omega

/-! ### A phase is one step -/

theorem stepsLeft_of_pInit {s : State} (hp : s.seqPh = .pInit) :
    stepsLeft (goTo (if runsHash s then .pSched else .idle) (initStep s.seqF s)) + 1 = stepsLeft s := by
  have hhash : runsHash (initStep s.seqF s) = runsHash s := rfl
  cases hh : runsHash s <;> simp [stepsLeft, hp, hh, hhash, Nat.add_comm]

theorem stepsLeft_of_pSched {s : State} {seen : BitVec 256} {rc : BitVec 6} (hp : s.seqPh = .pSched)
    (hsched : schedStep s = .next (scheduled s seen rc)) (hblk : runsHash s = true → blockExists s) :
    stepsLeft (goTo (if runsHash s then .pLoad else .idle) (scheduled s seen rc)) + 1 = stepsLeft s := by
  cases hh : runsHash s with
  | false => simp [stepsLeft, hp, hh]
  | true =>
    have hleft := stepsLeft_goTo_pLoad (s := scheduled s seen rc) hh (hblk hh)
    rw [compressSteps_scheduled hsched] at hleft
    rw [if_pos rfl, hleft]
    simp [stepsLeft, hp, hh, scheduled, Nat.add_comm]

theorem stepsLeft_of_pLoad {s : State} (hp : s.seqPh = .pLoad) (hrn : runsHash s = true → s.rn = 0) :
    stepsLeft (goTo (afterLoad s) (loaded s)) + 1 = stepsLeft s := by
  have hleft := stepsLeft_goTo_afterLoad (s := loaded s) hrn
  simp only [stepsLeft, hp]
  rw [Nat.add_comm]
  exact congrArg (1 + ·) hleft

theorem stepsLeft_of_pTdiff {s : State} (hp : s.seqPh = .pTdiff)
    (hrn : runsComposite s = true → s.rn = 0) :
    stepsLeft (goTo (afterTdiff s) (tdiffStep s)) + 1 = stepsLeft s := by
  have hleft := stepsLeft_goTo_afterTdiff (s := tdiffStep s) hrn
  simp only [stepsLeft, hp]
  rw [Nat.add_comm]
  exact congrArg (1 + ·) hleft

theorem stepsLeft_of_pRound {s : State} (hp : s.seqPh = .pRound)
    (hlt : runsComposite s = true → s.rn.toNat < s.rc.toNat) :
    stepsLeft (goTo (afterRound (roundStep s)) (roundStep s)) + 1 = stepsLeft s := by
  have hcomposite : runsComposite (roundStep s) = runsComposite s := rfl
  have hafter : blocksAfter (roundStep s) = blocksAfter s := rfl
  rw [stepsLeft_goTo_afterRound, hafter, hcomposite]
  cases hc : runsComposite s with
  | false => simp [stepsLeft, hp, hc]
  | true =>
    have hrn : (roundStep s).rn.toNat = s.rn.toNat + 1 :=
      toNat_add_one s.rn (Nat.lt_of_le_of_lt (hlt hc) s.rc.isLt)
    simp [stepsLeft, hp, hc, hrn, Nat.add_comm 1, -roundStep_rn]

theorem stepsLeft_of_pFround {s : State} (hp : s.seqPh = .pFround) (hlt : s.rn.toNat < 8) :
    stepsLeft (goTo (afterFround (froundStep s)) (froundStep s)) + 1 = stepsLeft s := by
  have hcomposite : runsComposite (froundStep s) = runsComposite s := rfl
  have hafter : blocksAfter (froundStep s) = blocksAfter s := rfl
  rw [stepsLeft_goTo_afterFround, hafter, hcomposite]
  cases hc : runsComposite s with
  | false => simp [stepsLeft, hp, hc]
  | true =>
    have hrn : (froundStep s).rn.toNat = s.rn.toNat + 1 := toNat_add_one s.rn (by omega)
    simp [stepsLeft, hp, hc, hrn, Nat.add_comm 1, -froundStep_rn]

theorem stepsLeft_of_pChain {s : State} (hp : s.seqPh = .pChain)
    (hblk : runsHash s = true → blockExists s) :
    stepsLeft (goTo (afterChain (chainStep s)) (chainStep s)) + 1 = stepsLeft s := by
  have hhash : runsHash (chainStep s) = runsHash s := rfl
  have hsteps : compressSteps (chainStep s) = compressSteps s := rfl
  rw [stepsLeft_goTo_afterChain, hhash, hsteps]
  cases hh : runsHash s with
  | false => simp [stepsLeft, hp, hh, blocksAfter]
  | true =>
    have hnext : (chainStep s).blk.toNat = s.blk.toNat + 1 := blk_add_one (hblk hh)
    simp [stepsLeft, hp, hh, blocksAfter, hnext, Nat.add_comm 1, -chainStep_blk]

/-- The invariant makes every phase of a busy engine one of the steps left. -/
theorem stepsLeft_phaseStep {s t : State} (hb : s.busy = true) (hs : sequencerInv s)
    (h : phaseStep s = .next t) : stepsLeft t + 1 = stepsLeft s := by
  obtain ⟨-, -, hblk, hrn, htdiff, hround, hfround⟩ := hs.2 hb
  have hop : runsHash s = true → s.seqOp = 0x18 := (runsHash_iff s).1
  have hop' : runsComposite s = true → s.seqOp = 0x17 ∨ s.seqOp = 0x18 :=
    fun hc => ((runsComposite_iff s).1 hc).symm
  rcases phaseStep_cases s with ⟨hp, h'⟩ | ⟨hp, h'⟩ | ⟨hp, ⟨a, _, _, h'⟩ | ⟨seen, rc, hsched, h'⟩⟩ |
    ⟨hp, ⟨a, _, h'⟩ | h'⟩ | ⟨hp, h'⟩ | ⟨hp, h'⟩ | ⟨hp, h'⟩ | ⟨hp, h'⟩ <;> rw [h'] at h <;> cases h
  · simp [hs.1.2 hp] at hb
  · exact stepsLeft_of_pInit hp
  · exact stepsLeft_of_pSched hp hsched fun hh => hblk (.inr ⟨hop hh, by simp [hp]⟩)
  · exact stepsLeft_of_pLoad hp fun hh => hrn ⟨hop hh, .inr hp⟩
  · exact stepsLeft_of_pTdiff hp fun hc => htdiff ⟨hop' hc, hp⟩
  · exact stepsLeft_of_pRound hp fun hc => hround ⟨hop' hc, hp⟩
  · exact stepsLeft_of_pFround hp (hfround hp)
  · exact stepsLeft_of_pChain hp fun hh => hblk (.inr ⟨hop hh, by simp [hp]⟩)

/-! ### An engine step, and a run -/

/-- The engine step of a busy engine is one of the steps left, or a reset has ended the run. -/
theorem stepsLeft_tick {s t : State} (hb : s.busy = true) (hs : sequencerInv s)
    (h : tick s = .next t) :
    stepsLeft t + 1 = stepsLeft s ∨ (t.busy = false ∧ ∃ p ∈ s.inbox, p.input = .reset) := by
  rcases tick_cases hb with ⟨u, hu, -, h'⟩ | ⟨v, l, -, h', hreset⟩ <;> rw [h'] at h
  · obtain ⟨v, hv, hnext⟩ := andThen_eq_next h
    cases hnext
    have hub : u.busy = true := (congrArg State.busy hu).trans hb
    rw [← stepsLeft_of_engineView_eq hu, ← stepsLeft_phaseStep hub (sequencerInv_congr hu.symm hs) hv]
    exact .inl rfl
  · cases h
    exact .inr ⟨rfl, hreset⟩

/-- A bound on the steps left is enough fuel for the run. -/
theorem runBusy_ends {n : Nat} {s t : State} (hs : sequencerInv s) (hn : stepsLeft s ≤ n)
    (h : runBusy n s = .next t) : t.busy = false := by
  induction n generalizing s with
  | zero =>
    cases h
    exact (stepsLeft_eq_zero_iff hs).1 (Nat.le_zero.1 hn)
  | succ n ih =>
    cases hb : s.busy with
    | false => rw [runBusy_idle _ hb] at h; cases h; exact hb
    | true =>
      rw [runBusy_succ n hb] at h
      obtain ⟨u, hu, h⟩ := andThen_eq_next h
      rcases stepsLeft_tick hb hs hu with hleft | ⟨hidle, -⟩
      · exact ih (sequencerInv_tick hb hs hu) (by omega) h
      · rw [runBusy_idle _ hidle] at h; cases h; exact hidle

theorem scheduledSteps_le (s : State) (f : Mode) : scheduledSteps s f ≤ 66 := by
  have := scheduledRounds_le (uniqueBytes_le (bufferSeen s))
  cases f <;> simp only [scheduledSteps] <;> omega

theorem stepsLeft_start_compress (s : State) : stepsLeft (startState .compress s) = compressSteps s := by
  have hcomposite : runsComposite (startState .compress s) = true := rfl
  have hafter : blocksAfter (startState .compress s) = 0 := rfl
  have hph : (startState .compress s).seqPh = compressPhase s := rfl
  unfold stepsLeft
  rw [hph, hcomposite, hafter]
  rcases compressPhase_cases s with ⟨hm, h⟩ | ⟨hm, h⟩
  · have hrc : (startState .compress s).rc = s.rc := rfl
    simp only [h, compressSteps, hm, hrc, if_true]
    omega
  · simp only [h, compressSteps, hm, if_true]
    rfl

theorem stepsLeft_start_hash (f : Mode) (s : State) :
    stepsLeft (startState (.hash f) s) = 2 + blockCount s.mlen.toNat * scheduledSteps s f := by
  have hstart : stepsLeft (startState (.hash f) s) =
      1 + (1 + blockCount s.mlen.toNat * scheduledSteps (startState (.hash f) s) f) := rfl
  have hsteps : scheduledSteps (startState (.hash f) s) f = scheduledSteps s f := by cases f <;> rfl
  rw [hstart, hsteps, ← Nat.add_assoc]

/-- Every command is run with enough fuel. -/
theorem stepsLeft_startState_le (i : Instr) (s : State) : stepsLeft (startState i s) ≤ stepBound i s := by
  cases i with
  | nop | clrerr => exact Nat.zero_le _
  | init _ | sched | load | tdiff | round | fround | chain => exact le_refl 1
  | compress => exact (stepsLeft_start_compress s).le
  | hash f =>
    rw [stepsLeft_start_hash]
    exact Nat.add_le_add_left (Nat.mul_le_mul_left _ (scheduledSteps_le s f)) 2

/-- Settles O21: a command that runs has enough fuel, and the others leave `BUSY` as it is. -/
theorem everyCommandEndsIdle : Obligations.EveryCommandEndsIdle := by
  intro i s t hb h
  rcases exec_cases i s with ⟨hbusy, -⟩ | ⟨-, -, -, h'⟩ | ⟨-, -, -, e, -, h'⟩ | ⟨-, -, h'⟩ |
    ⟨-, -, h'⟩ | ⟨-, he, hop, hnop, hclrerr, -⟩
  · simp [hb] at hbusy
  · rw [h'] at h; cases h; exact hb
  · rw [h'] at h; cases h; simpa using hb
  · rw [h'] at h; cases h; exact hb
  · rw [h'] at h; cases h; exact hb
  · rw [exec_of_legal hb he hop hnop hclrerr] at h
    exact runBusy_ends (sequencerInv_startState hop hnop hclrerr) (stepsLeft_startState_le i s) h

/-! ### The steps of `HASH` (R189) -/

/-- No reset lands while the command runs. -/
def Undisturbed (s : State) : Prop := quiet s ∨ noReset s.inbox

theorem undisturbed_tick {s t : State} (hb : s.busy = true) (hu : Undisturbed s)
    (h : tick s = .next t) : Undisturbed t := by
  rcases hu with hq | hn
  · rw [tick_of_quiet hb hq] at h
    obtain ⟨-, -, -, -, -, -, -, -, hinbox, -, -⟩ := phaseStep_keeps h
    exact .inl (by rw [quiet, hinbox]; exact hq)
  · exact .inr (tick_noReset hb hn h)

theorem stepsLeft_tick_of_undisturbed {s t : State} (hb : s.busy = true) (hs : sequencerInv s)
    (hu : Undisturbed s) (h : tick s = .next t) : stepsLeft t + 1 = stepsLeft s := by
  rcases hu with hq | hn
  · exact stepsLeft_phaseStep hb hs (tick_of_quiet hb hq ▸ h)
  · rcases stepsLeft_tick hb hs h with hleft | ⟨-, p, hp, hreset⟩
    · exact hleft
    · exact absurd hreset (hn p hp)

/-- After `n` engine steps `n` fewer are left. -/
theorem runBusy_stepsLeft (n : Nat) {s : State} (hs : sequencerInv s) (hu : Undisturbed s)
    (hw : messageWritten s) :
    ∃ t, runBusy n s = .next t ∧ sequencerInv t ∧ stepsLeft t = stepsLeft s - n := by
  induction n generalizing s with
  | zero => exact ⟨s, rfl, hs, rfl⟩
  | succ n ih =>
    cases hb : s.busy with
    | false =>
      refine ⟨s, runBusy_idle _ hb, hs, ?_⟩
      rw [(stepsLeft_eq_zero_iff hs).2 hb, Nat.zero_sub]
    | true =>
      obtain ⟨u, htick, hwu⟩ := tick_of_written hb hw
      obtain ⟨t, ht, hst, hleft⟩ := ih (sequencerInv_tick hb hs htick) (undisturbed_tick hb hu htick) hwu
      have hone := stepsLeft_tick_of_undisturbed hb hs hu htick
      exact ⟨t, by rw [runBusy_succ n hb, htick, andThen_next, ht], hst, by omega⟩

/-- With the message in the buffer `SCHED` fixes the digest contract's round count (R138). -/
theorem scheduledSteps_of_holdsMessage {s : State} {m : List Byte} (f : Mode) (hm : holdsMessage s m) :
    scheduledSteps s f = blockSteps m f := by
  have hseen : bufferSeen s = presence (messageAt m) m.length := by
    rw [bufferSeen, hm.1]
    exact presence_congr (msgByte_of_holdsMessage hm)
  cases f with
  | standard => rw [scheduledSteps, hseen, uniqueBytes_presence, ← rounds_standard_eq]; rfl
  | fast => rfl

/-- From its acceptance `HASH` is busy for exactly the stated engine steps. -/
theorem runBusy_hash_busy_iff {s : State} {m : List Byte} (f : Mode) (hu : Undisturbed s)
    (hl : lengthFits s) (hm : holdsMessage s m) (n : Nat) :
    ∃ t, runBusy n (startState (.hash f) s) = .next t ∧ (t.busy = true ↔ n < hashSteps m f) := by
  have hinv : sequencerInv (startState (.hash f) s) :=
    sequencerInv_startState ⟨fun _ => hl, nofun, nofun⟩ nofun nofun
  obtain ⟨t, ht, hst, hleft⟩ := runBusy_stepsLeft n hinv hu (messageWritten_of_holdsMessage hm)
  rw [stepsLeft_start_hash, scheduledSteps_of_holdsMessage f hm, hm.1] at hleft
  refine ⟨t, ht, ?_⟩
  rw [← Bool.not_eq_false, ← stepsLeft_eq_zero_iff hst, hashSteps]
  omega

/-- The engine steps of `HASH` are steps of the machine. -/
theorem runSteps_hash {s : State} {m : List Byte} (f : Mode) (hu : Undisturbed s) (hl : lengthFits s)
    (hm : holdsMessage s m) {n : Nat} (hn : n ≤ hashSteps m f) :
    runSteps n (startState (.hash f) s) = runBusy n (startState (.hash f) s) := by
  refine runSteps_eq_runBusy fun k hk => ?_
  obtain ⟨t, ht, hiff⟩ := runBusy_hash_busy_iff f hu hl hm k
  exact ⟨t, ht, hiff.2 (by omega)⟩

/-- `HASH` is its engine steps: the fuel beyond them is not used. -/
theorem exec_hash_eq_runSteps {s : State} {m : List Byte} (f : Mode) (hr : ready s) (hu : Undisturbed s)
    (hl : lengthFits s) (hm : holdsMessage s m) :
    exec (.hash f) s = runSteps (hashSteps m f) (startState (.hash f) s) := by
  have hfuel : hashSteps m f ≤ stepBound (.hash f) s := by
    have hstart := stepsLeft_startState_le (.hash f) s
    rwa [stepsLeft_start_hash, scheduledSteps_of_holdsMessage f hm, hm.1] at hstart
  obtain ⟨rest, hrest⟩ := Nat.exists_eq_add_of_le hfuel
  obtain ⟨t, ht, hiff⟩ := runBusy_hash_busy_iff f hu hl hm (hashSteps m f)
  have hidle : t.busy = false := by simpa using hiff
  have hop : operandsLegal (.hash f) s := ⟨fun _ => hl, nofun, nofun⟩
  rw [exec_of_legal hr.1 hr.2 hop nofun nofun, runSteps_hash f hu hl hm le_rfl, hrest, ht]
  exact runBusy_trans ht (runBusy_idle rest hidle)

/-- Settles O19: `hashSteps` is the stated total in each mode. -/
theorem hashTakesTheStatedSteps : Obligations.HashTakesTheStatedSteps := by
  intro s m f hr hu hl hm
  have hbusy := runBusy_hash_busy_iff f hu hl hm
  have hsteps := fun n (hn : n ≤ hashSteps m f) => runSteps_hash f hu hl hm hn
  have hexec := exec_hash_eq_runSteps f hr hu hl hm
  cases f <;> exact ⟨hbusy, hsteps, hexec⟩

end Sys2Proof.Machine

/-! What the error record can hold (spec/60_exceptions.md R211 to R221). The one idea is a predicate,
`RecordsOnly E`: while `ERR = 1` the code is that of a cause in `E`, while `ERR = 0` the record is empty.
With every cause in `E` it is the error record's invariant; and a command keeps it for any `E` that holds
the two access errors and the causes of the command's own operand check, so `E` may leave out what the
command never raises. -/

namespace Sys2Proof.Machine

open Sys2Proof.Safety

/-! ### The codes of Table R211 -/

/-- The codes of the six causes are 1 to 6. -/
theorem exists_errorCode_iff (k : BitVec 3) :
    (∃ e, k = errorCode e) ↔ 1 ≤ k.toNat ∧ k.toNat ≤ 6 := by
  constructor
  · rintro ⟨e, rfl⟩
    cases e <;> decide
  · rintro ⟨hlow, hhigh⟩
    have hcode : ∀ e, k.toNat = (errorCode e).toNat → ∃ e, k = errorCode e :=
      fun e h => ⟨e, BitVec.eq_of_toNat_eq h⟩
    interval_cases h : k.toNat
    exacts [hcode .illegalCmd rfl, hcode .busyAccess rfl, hcode .badAccess rfl, hcode .lenRange rfl,
      hcode .blkRange rfl, hcode .badRound rfl]

/-! ### A record of given causes -/

/-- The error record holds a cause in `E` while `ERR = 1` and is empty while `ERR = 0`. -/
def RecordsOnly (E : ErrorCause → Prop) (s : State) : Prop :=
  (s.err = true → ∃ e, E e ∧ s.ecode = errorCode e) ∧ (s.err = false → s.ecode = 0 ∧ s.einfo = 0)

theorem errorInv_iff (s : State) : errorInv s ↔ RecordsOnly (fun _ => True) s := by
  simp only [errorInv, RecordsOnly, true_and, exists_errorCode_iff]

/-- A record of causes with other codes than `k` holds another code than `k`. -/
theorem ecode_ne_of_recordsOnly {k : BitVec 3} {s : State} (hk : 0 ≠ k)
    (hs : RecordsOnly (errorCode · ≠ k) s) : s.ecode ≠ k := by
  cases herr : s.err with
  | true =>
    obtain ⟨e, he, hcode⟩ := hs.1 herr
    rw [hcode]
    exact he
  | false =>
    rw [(hs.2 herr).1]
    exact hk

section
variable {E : ErrorCause → Prop} {s t : State}

theorem recordsOnly_congr (h : SameErrorRecord s t) (hs : RecordsOnly E s) : RecordsOnly E t := by
  obtain ⟨herr, hecode, heinfo⟩ := h
  simpa only [RecordsOnly, herr, hecode, heinfo] using hs

/-- An empty record holds no cause, so it meets every `E`. -/
theorem recordsOnly_of_empty (herr : s.err = false) (hecode : s.ecode = 0) (heinfo : s.einfo = 0) :
    RecordsOnly E s :=
  ⟨by simp [herr], fun _ => ⟨hecode, heinfo⟩⟩

theorem recordsOnly_clearError (s : State) : RecordsOnly E (clearError s) :=
  recordsOnly_of_empty rfl rfl rfl

theorem recordsOnly_resetEvent (s : State) : RecordsOnly E (resetEvent s) :=
  recordsOnly_of_empty rfl rfl rfl

theorem recordsOnly_raise {e : ErrorCause} (he : E e) (c : Word) (hs : RecordsOnly E s) :
    RecordsOnly E (raise e c s) := by
  rcases raise_cases e c s with ⟨_, h⟩ | ⟨_, h⟩ <;> rw [h]
  · exact hs
  · exact ⟨fun _ => ⟨e, he, rfl⟩, nofun⟩

/-! ### What lands and what runs -/

theorem sameErrorRecord_reply (v : Word) (s : State) : SameErrorRecord s (reply v s) :=
  ⟨rfl, rfl, rfl⟩

/-- What lands while a command runs raises the two access errors and no other. -/
theorem recordsOnly_deliverBusy (hbusy : E .busyAccess) (hbad : E .badAccess) (i : HostInput)
    (hs : RecordsOnly E s) : RecordsOnly E (deliverBusy i s) := by
  cases i with
  | read off n =>
    simp only [deliverBusy, readBusy]
    split
    · exact recordsOnly_congr (sameErrorRecord_reply _ _) (recordsOnly_raise hbad _ hs)
    · split <;> exact hs
  | write off n v =>
    simp only [deliverBusy, writeBusy]
    split
    · exact recordsOnly_raise hbad _ hs
    · exact recordsOnly_raise hbusy _ hs
  | reset => exact recordsOnly_resetEvent s

theorem samePort_sameErrorRecord_phaseStep (h : phaseStep s = .next t) :
    SamePort s t ∧ SameErrorRecord s t := by
  obtain ⟨-, -, -, herr, hecode, heinfo, -, -, hinbox, hreplies, hfreeIx⟩ := phaseStep_keeps h
  exact ⟨⟨hinbox, hreplies, hfreeIx⟩, ⟨herr, hecode, heinfo⟩⟩

theorem recordsOnly_tick (hbusy : E .busyAccess) (hbad : E .badAccess) (hs : RecordsOnly E s)
    (h : tick s = .next t) : RecordsOnly E t :=
  tick_keeps (RecordsOnly E) (fun i _ => recordsOnly_deliverBusy hbusy hbad i) (fun _ _ => id)
    (fun _ _ hu h => recordsOnly_congr (samePort_sameErrorRecord_phaseStep h).2 hu) hs h

theorem sameErrorRecord_startState (i : Instr) (s : State) : SameErrorRecord s (startState i s) := by
  cases i <;> exact ⟨rfl, rfl, rfl⟩

/-- An accepted command raises nothing itself. -/
theorem recordsOnly_acceptedRun (hbusy : E .busyAccess) (hbad : E .badAccess) {i : Instr}
    (hs : RecordsOnly E s) (h : acceptedRun i s = .next t) : RecordsOnly E t := by
  have hrun : runBusy (stepBound i s) (startState i s) = .next t → RecordsOnly E t :=
    runBusy_keeps (RecordsOnly E) (fun _ _ hu _ => recordsOnly_tick hbusy hbad hu) _
      (recordsOnly_congr (sameErrorRecord_startState i s) hs)
  cases i with
  | nop => cases h; exact hs
  | clrerr => cases h; exact recordsOnly_clearError s
  | init _ | sched | load | tdiff | round | fround | chain | compress | hash _ => exact hrun h

/-- A command raises the two access errors and the causes of its own operand check, and no other. -/
theorem recordsOnly_exec (hbusy : E .busyAccess) (hbad : E .badAccess) {i : Instr}
    (hcheck : ∀ e, operandCheck i s = some e → E e) (hs : RecordsOnly E s)
    (h : exec i s = .next t) : RecordsOnly E t := by
  rw [exec_eq_issue] at h
  rcases issue_cases i (operandCheck i s) (acceptedRun i) s with ⟨_, h'⟩ | ⟨_, _, _, h'⟩ |
    ⟨_, _, e, he, h'⟩ | ⟨_, _, _, h'⟩ <;> rw [h'] at h
  · cases h; exact recordsOnly_raise hbusy _ hs
  · cases h; exact hs
  · cases h; exact recordsOnly_raise (hcheck e he) _ hs
  · exact recordsOnly_acceptedRun hbusy hbad hs h

/-- An access other than a command raises `BAD_ACCESS` or nothing on an idle engine. -/
theorem recordsOnly_deliverIdle (hbad : E .badAccess) {i : HostInput} (hs : RecordsOnly E s)
    (h : deliverIdle i s = .next t) : RecordsOnly E t := by
  rcases deliverIdle_cases h with rfl | ⟨-, -, -, ⟨herr, hecode, heinfo⟩ | ⟨c, herr, hecode, heinfo⟩, -⟩
  · exact recordsOnly_resetEvent s
  · exact recordsOnly_congr ⟨herr, hecode, heinfo⟩ hs
  · exact recordsOnly_congr ⟨herr, hecode, heinfo⟩ (recordsOnly_raise hbad c hs)

end

/-- Settles O47: whatever lands, every phase and every command records one of the six causes or nothing. -/
theorem stepKeepsTheErrorInvariant : Obligations.StepKeepsTheErrorInvariant := by
  intro s t hs h
  rw [errorInv_iff] at hs ⊢
  cases hb : s.busy with
  | true =>
    rw [step_of_busy hb] at h
    exact recordsOnly_tick trivial trivial hs h
  | false =>
    rw [step_of_idle hb] at h
    exact idleStep_keeps (RecordsOnly fun _ => True) (fun _ _ => id)
      (fun _ c _ => recordsOnly_raise trivial c)
      (fun _ _ _ => recordsOnly_exec trivial trivial fun _ _ => trivial)
      (fun _ _ _ => recordsOnly_deliverIdle trivial) hb hs h

/-! ### The operand checks (R215 to R217) -/

/-- On a ready engine a command whose operand check fails is recorded and does nothing (R191 case 4). -/
theorem exec_of_operandCheck {i : Instr} {s : State} {e : ErrorCause} (hr : ready s)
    (hcheck : operandCheck i s = some e) :
    exec i s = .next { s with err := true, ecode := errorCode e, einfo := encode i } := by
  rw [exec_eq_issue, issue_ready i _ _ hr.1 hr.2, hcheck]
  exact congrArg Host.Outcome.next (raise_of_no_err e (encode i) hr.2)

theorem lengthCheck_of_not_lengthFits {s : State} (hl : ¬ lengthFits s) :
    lengthCheck s = some .lenRange :=
  if_pos (Nat.lt_of_not_le hl)

/-- `LEN_RANGE` goes before `BLK_RANGE` (R126). -/
theorem loadCheck_of_not_lengthFits {s : State} (hl : ¬ lengthFits s) :
    loadCheck s = some .lenRange := by
  rw [loadCheck, lengthCheck_of_not_lengthFits hl]

theorem loadCheck_of_not_blockExists {s : State} (hl : lengthFits s) (hblk : ¬ blockExists s) :
    loadCheck s = some .blkRange := by
  rw [loadCheck, lengthCheck_eq_none.2 hl]
  exact if_pos (Nat.le_of_not_lt hblk)

theorem froundCheck_of_le {s : State} (hrn : 8 ≤ s.rn.toNat) : froundCheck s = some .badRound :=
  if_pos hrn

/-- A command on a ready engine with an empty error record leaves no code but those of the two access
errors and of its own operand check. -/
theorem ecode_ne_of_exec {i : Instr} {s t : State} {k : BitVec 3} (hr : ready s) (hinv : errorInv s)
    (hcode : ∀ c ∈ [0, errorCode .busyAccess, errorCode .badAccess], c ≠ k)
    (hcheck : ∀ e, operandCheck i s = some e → errorCode e ≠ k) (h : exec i s = .next t) :
    t.ecode ≠ k := by
  obtain ⟨hecode, heinfo⟩ := hinv.2 hr.2
  have hstart : RecordsOnly (errorCode · ≠ k) s := recordsOnly_of_empty hr.2 hecode heinfo
  have hend : RecordsOnly (errorCode · ≠ k) t :=
    recordsOnly_exec (hcode _ (by simp)) (hcode _ (by simp)) hcheck hstart h
  exact ecode_ne_of_recordsOnly (hcode _ (by simp)) hend

/-- The one operand check of `HASH` is that of its length. -/
theorem errorCode_of_operandCheck_hash {f : Mode} {s : State} {e : ErrorCause}
    (h : operandCheck (.hash f) s = some e) : errorCode e = 4 :=
  congrArg errorCode (lengthCheck_eq_some h).1

/-- Settles O32: the check of `LOAD` fails, and `HASH` has no such check. -/
theorem missingBlockRaisesBlkRange : Obligations.MissingBlockRaisesBlkRange := by
  refine fun s hr => ⟨fun hl hblk => ?_, fun hinv f t h => ?_⟩
  · exact exec_of_operandCheck (i := .load) hr
      (loadCheck_of_not_blockExists hl (Nat.not_lt_of_le hblk))
  · refine ecode_ne_of_exec hr hinv (by decide) (fun e he => ?_) h
    rw [errorCode_of_operandCheck_hash he]
    decide

/-- Settles O33: the check of `FROUND` fails; `COMPRESS` has no check and `HASH` not this one. -/
theorem ninthFastRoundRaisesBadRound : Obligations.NinthFastRoundRaisesBadRound := by
  refine fun s hr => ⟨fun hrn => ?_, fun hinv t h => ?_, fun hinv f t h => ?_⟩
  · exact exec_of_operandCheck (i := .fround) hr (froundCheck_of_le hrn)
  · exact ecode_ne_of_exec (i := .compress) hr hinv (by decide) nofun h
  · refine ecode_ne_of_exec hr hinv (by decide) (fun e he => ?_) h
    rw [errorCode_of_operandCheck_hash he]
    decide

/-- Settles O31: the three commands check the length first, and the capacity is below 2^61. -/
theorem lengthBeyondTheBufferRaisesLenRange : Obligations.LengthBeyondTheBufferRaisesLenRange := by
  refine fun s hr => ⟨fun hl i hi => ?_, fun hl => ?_⟩
  · have hlength := lengthCheck_of_not_lengthFits hl
    have hcheck : operandCheck i s = some .lenRange := by
      rcases hi with rfl | rfl | rfl | rfl
      · exact hlength
      · exact loadCheck_of_not_lengthFits hl
      · exact hlength
      · exact hlength
    exact exec_of_operandCheck hr hcheck
  · have hcap := s.cfg.capWordsPred.isLt
    have hlen : s.mlen.toNat ≤ 4 * (s.cfg.capWordsPred.val + 1) := hl
    omega

/-! ### Error entry and the words an idle engine is given -/

/-- Settles O27, with the code of each cause. -/
theorem firstErrorIsKept : Obligations.FirstErrorIsKept := by
  refine fun e info s => ⟨fun he => ?_, raise_of_err e info⟩
  rw [raise_of_no_err e info he]
  cases e <;> rfl

/-- An idle engine takes its next input: a command word goes to the acceptance. -/
theorem step_commandWord {s : State} {a : Arrival} {rest : List Pending} {c : Word}
    (hb : s.busy = false) (hi : s.inbox = ⟨a, .write 0x000 4 c⟩ :: rest) :
    step s = stepCommand c { s with inbox := rest } := by
  rw [step_of_idle hb]
  simp [idleStep, takeInput, hi, commandWord]

/-- An idle engine takes its next input: any other input is delivered. -/
theorem step_deliverIdle {s : State} {a : Arrival} {rest : List Pending} {i : HostInput}
    (hb : s.busy = false) (hi : s.inbox = ⟨a, i⟩ :: rest) (hc : commandWord i = none) :
    step s = deliverIdle i { s with inbox := rest } := by
  rw [step_of_idle hb]
  simp [idleStep, takeInput, hi, hc]

/-- Settles O6: there is no input to take. -/
theorem idleEngineHoldsItsState : Obligations.IdleEngineHoldsItsState := by
  intro s hb hi
  rw [step_of_idle hb]
  simp [idleStep, takeInput, hi]

/-- A word that R93 calls illegal is no command's. -/
theorem stepCommand_of_illegal {c : Word} (hc : legalWord c = false) (s : State) :
    stepCommand c s = .next (rejectCommand c s) := by
  unfold stepCommand
  cases h : decode c with
  | error r => rfl
  | ok i =>
    obtain ⟨hlegal, -⟩ := tableRow i
    rw [encode_of_decode h, hc] at hlegal
    cases hlegal

/-- While idle, the error filter of R191 drops exactly what error entry drops (R219). -/
theorem rejectCommand_of_idle (c : Word) {s : State} (hb : s.busy = false) :
    rejectCommand c s = raise .illegalCmd c s := by
  cases he : s.err <;> simp [rejectCommand, raise, hb, he]

/-- Settles O28: the rejection of the word is error entry. -/
theorem illegalWordRaisesIllegalCmd : Obligations.IllegalWordRaisesIllegalCmd := by
  intro s a rest c hb hi hc
  rw [step_commandWord hb hi, stepCommand_of_illegal hc,
    rejectCommand_of_idle c (s := { s with inbox := rest }) hb]
  exact ⟨fun he => congrArg Host.Outcome.next (raise_of_no_err .illegalCmd c he),
    fun he => congrArg Host.Outcome.next (raise_of_err .illegalCmd c he)⟩

/-- Settles O29: `CLRERR` has the word 1 and no other command has it. -/
theorem onlyClrerrIsPerformedAfterAnError : Obligations.OnlyClrerrIsPerformedAfterAnError := by
  intro s a rest c hb he hi
  rw [step_commandWord hb hi]
  constructor
  · intro hc
    rcases stepCommand_cases c (s := { s with inbox := rest }) hb with ⟨i, hi, h⟩ | ⟨_, h | h⟩ <;>
      rw [h]
    · have hne : i ≠ .clrerr := by
        rintro rfl
        exact hc (encode_of_decode hi).symm
      exact exec_of_err (s := { s with inbox := rest }) hb he hne
    · rw [raise_of_err _ _ (s := { s with inbox := rest }) he]
  · rintro rfl
    exact exec_clrerr_of_idle (s := { s with inbox := rest }) hb

end Sys2Proof.Machine

/-! The accesses the port does not perform (spec/20_memory.md R67, spec/60_exceptions.md R213, R214). On a
busy engine what such an access does commutes with the phase that follows it, because no phase looks at
the error record or at the port (`PortUpdate`); so the engine step is the one it would have been. -/

namespace Sys2Proof.Machine

open Sys2Proof.Safety

/-! ### Updates of the error record and the port -/

/-- A state is what the engine computes with, the host's side of the port and the error record. -/
theorem eq_of_engineView_eq_of_same {s t : State} (hview : engineView t = engineView s)
    (hport : SamePort s t) (hrecord : SameErrorRecord s t) : t = s := by
  obtain ⟨hcfg, hs, hw, hseen, hmode, hrc, hrn, hblk, hmlen, hbusy, hop, hf, hph, hmsg⟩ :=
    eq_of_engineView_eq hview
  obtain ⟨hinbox, hreplies, hfreeIx⟩ := hport
  obtain ⟨herr, hecode, heinfo⟩ := hrecord
  cases s
  cases t
  simp_all only

/-- An update that the engine does not see, that goes by the error record and the port alone, and that
leaves the inputs still to come. -/
structure PortUpdate (f : State → State) : Prop where
  view : ∀ s, engineView (f s) = engineView s
  congr : ∀ s t, SamePort s t → SameErrorRecord s t →
    SamePort (f s) (f t) ∧ SameErrorRecord (f s) (f t)
  inbox : ∀ s l, { f s with inbox := l } = f { s with inbox := l }

theorem portUpdate_raise (e : ErrorCause) (c : Word) : PortUpdate (raise e c) where
  view s := engineView_raise e c s
  congr := by
    rintro s t ⟨hinbox, hreplies, hfreeIx⟩ ⟨herr, hecode, heinfo⟩
    rcases raise_cases e c s with ⟨he, h⟩ | ⟨he, h⟩
    · rw [h, raise_of_err e c (herr.trans he)]
      exact ⟨⟨hinbox, hreplies, hfreeIx⟩, ⟨herr, hecode, heinfo⟩⟩
    · rw [h, raise_of_no_err e c (herr.trans he)]
      exact ⟨⟨hinbox, hreplies, hfreeIx⟩, ⟨rfl, rfl, rfl⟩⟩
  inbox s l := by
    unfold raise
    split <;> rfl

theorem portUpdate_reply (v : Word) : PortUpdate (reply v) where
  view _ := rfl
  congr _ _ hport hrecord :=
    ⟨⟨hport.inbox, congrArg (v :: ·) hport.replies, hport.freeIx⟩,
      ⟨hrecord.err, hrecord.ecode, hrecord.einfo⟩⟩
  inbox _ _ := rfl

theorem portUpdate_comp {f g : State → State} (hf : PortUpdate f) (hg : PortUpdate g) :
    PortUpdate (f ∘ g) where
  view s := (hf.view (g s)).trans (hg.view s)
  congr s t hport hrecord :=
    have h := hg.congr s t hport hrecord
    hf.congr _ _ h.1 h.2
  inbox s l := (hf.inbox (g s) l).trans (congrArg f (hg.inbox s l))

/-- A phase after the update is the phase, then the update. -/
theorem phaseStep_portUpdate {f : State → State} (hf : PortUpdate f) {s t : State}
    (h : phaseStep s = .next t) : phaseStep (f s) = .next (f t) := by
  have hview : viewOutcome engineView (phaseStep (f s)) = .next (engineView t) := by
    rw [← phaseStep_engineView, hf.view, phaseStep_engineView, h]
    rfl
  obtain ⟨hport, hrecord⟩ := samePort_sameErrorRecord_phaseStep h
  obtain ⟨hport, hrecord⟩ := hf.congr s t hport hrecord
  cases hu : phaseStep (f s) with
  | fault r => rw [hu] at hview; cases hview
  | refused r => rw [hu] at hview; cases hview
  | next u =>
    rw [hu] at hview
    obtain ⟨hport', hrecord'⟩ := samePort_sameErrorRecord_phaseStep hu
    have hsee : engineView (f t) = engineView u :=
      (hf.view t).trans (Host.Outcome.next.inj hview).symm
    have heq : f t = u := eq_of_engineView_eq_of_same hsee
      ⟨hport.inbox.trans hport'.inbox.symm, hport.replies.trans hport'.replies.symm,
        hport.freeIx.trans hport'.freeIx.symm⟩
      ⟨hrecord.err.trans hrecord'.err.symm, hrecord.ecode.trans hrecord'.ecode.symm,
        hrecord.einfo.trans hrecord'.einfo.symm⟩
    rw [heq]

/-- An input that does no more than the update adds it to the engine step it lands before. -/
theorem step_portUpdate {f : State → State} (hf : PortUpdate f) {s t : State} {i : HostInput}
    (hb : s.busy = true) (hi : s.inbox = [⟨.afterSteps 0, i⟩]) (hdeliver : deliverBusy i s = f s)
    (h : step { s with inbox := [] } = .next t) : step s = .next (f t) := by
  rw [step_of_quiet (s := { s with inbox := [] }) hb nofun] at h
  have hdue : deliverDue s.inbox s = f { s with inbox := [] } := by
    rw [deliverDue_one hb hi, hdeliver, hf.inbox]
  have hbusy : (f { s with inbox := [] }).busy = true := (congrArg State.busy (hf.view _)).trans hb
  have hinbox : t.inbox = [] := (samePort_sameErrorRecord_phaseStep h).1.inbox
  have hkeep : f t = { f t with inbox := [] } := by
    rw [hf.inbox, ← hinbox]
  rw [step_of_busy hb, tick, hdue, if_pos hbusy, phaseStep_portUpdate hf h, andThen_next, hkeep]
  rfl

/-! ### Accesses that land while busy -/

theorem deliverBusy_write_of_legal {s : State} {off n : Nat} (v : Word)
    (h : legalWrite s.cfg.msgCap off n) :
    deliverBusy (.write off n v) s = raise .busyAccess (offsetInfo off) s := by
  obtain ⟨tg, htg⟩ := Option.isSome_iff_exists.1 ((writeTarget_isSome_iff _ _ _).2 h)
  simp only [deliverBusy, writeBusy, htg]

theorem deliverBusy_write_of_illegal {s : State} {off n : Nat} (v : Word)
    (h : ¬ legalWrite s.cfg.msgCap off n) :
    deliverBusy (.write off n v) s = raise .badAccess (offsetInfo off) s := by
  simp only [deliverBusy, writeBusy, (writeTarget_eq_none_iff _ _ _).2 h]

theorem reply_raise (v : Word) (e : ErrorCause) (c : Word) (s : State) :
    reply v (raise e c s) = raise e c (reply v s) := by
  unfold raise
  split <;> simp_all [reply]

theorem badRead_eq (off : Nat) (s : State) :
    badRead off s = raise .badAccess (offsetInfo off) (reply 0 s) :=
  reply_raise 0 .badAccess (offsetInfo off) s

theorem deliverBusy_read_of_illegal {s : State} {off n : Nat} (h : ¬ legalRead s.cfg.msgCap off n) :
    deliverBusy (.read off n) s = raise .badAccess (offsetInfo off) (reply 0 s) := by
  simp only [deliverBusy, readBusy, (accessTarget_eq_none_iff _ _ _).2 h, badRead_eq]

/-- A legal read while busy returns a value, exact or free, and does nothing else. -/
theorem readBusy_of_legal {s : State} {off n : Nat} (h : legalRead s.cfg.msgCap off n) :
    ∃ v d, readBusy off n s = withReads (v :: s.replies) (s.freeIx + d) s := by
  obtain ⟨tg, htg⟩ := Option.isSome_iff_exists.1 ((accessTarget_isSome_iff _ _ _).2 h)
  cases hv : statusData tg s with
  | some v => exact ⟨v, 0, readBusy_of_status htg hv⟩
  | none => exact ⟨_, 1, readBusy_of_free htg hv⟩

/-- Settles O34: the write is an update of the error record, the read one of the replies. -/
theorem writesWhileBusyAreDropped : Obligations.WritesWhileBusyAreDropped := by
  refine fun s t off n hb h => ⟨fun v hlegal => ?_, fun hlegal => ?_⟩
  · exact step_portUpdate (s := { s with inbox := [⟨.afterSteps 0, .write off n v⟩] })
      (portUpdate_raise .busyAccess (offsetInfo off)) hb rfl (deliverBusy_write_of_legal v hlegal) h
  · obtain ⟨v, d, hread⟩ :=
      readBusy_of_legal (s := { s with inbox := [⟨.afterSteps 0, .read off n⟩] }) hlegal
    exact ⟨v, t.freeIx + d, step_read_busy hb rfl hread h⟩

/-! ### Illegal accesses -/

/-- The write of a word to `CMD` is a legal access (R67), so an illegal one is no command. -/
theorem commandWord_of_illegal {cap off n : Nat} (v : Word) (h : ¬ legalWrite cap off n) :
    commandWord (.write off n v) = none := by
  refine if_neg ?_
  rintro ⟨rfl, rfl⟩
  exact h (.inl (by decide))

/-- Settles O36: idle or busy, the access raises `BAD_ACCESS` and does nothing else but answer 0. -/
theorem illegalAccessRaisesBadAccess : Obligations.IllegalAccessRaisesBadAccess := by
  refine fun s off n v => ⟨fun hb a rest => ⟨fun hbad hi => ?_, fun hbad hi => ?_⟩,
    fun hb t h => ⟨fun hbad => ?_, fun hbad => ?_⟩⟩
  · rw [step_deliverIdle hb hi rfl]
    simp only [deliverIdle, readIdle, (accessTarget_eq_none_iff _ _ _).2 hbad, badRead_eq]
    rfl
  · rw [step_deliverIdle hb hi (commandWord_of_illegal v hbad)]
    simp only [deliverIdle, writeIdle, (writeTarget_eq_none_iff _ _ _).2 hbad]
    rfl
  · exact step_portUpdate (s := { s with inbox := [⟨.afterSteps 0, .read off n⟩] })
      (portUpdate_comp (portUpdate_raise .badAccess (offsetInfo off)) (portUpdate_reply 0)) hb rfl
      (deliverBusy_read_of_illegal hbad) h
  · exact step_portUpdate (s := { s with inbox := [⟨.afterSteps 0, .write off n v⟩] })
      (portUpdate_raise .badAccess (offsetInfo off)) hb rfl (deliverBusy_write_of_illegal v hbad) h

end Sys2Proof.Machine

/-! The hazards of `MSG` and the reset event (spec/70_reset_and_hazards.md R240 to R242, R249): a byte nothing
has written stops the command that reads it, and a reset lands alike on an idle and on a busy engine. -/

namespace Sys2Proof.Machine

open Sys2Proof.Safety

/-! ### Unwritten bytes of the message (R249) -/

/-- In standard mode `SCHED` stops at the lowest unwritten byte of the message. -/
theorem exec_sched_of_unwritten {s : State} {a : Nat} (hr : ready s) (hq : quiet s) (hl : lengthFits s)
    (hm : s.mode = .standard) (ha : firstUnwritten s.msg s.mlen.toNat 0 = some a) :
    exec .sched s = .fault (.unwrittenMessageByte a) := by
  rw [exec_sched_eq hr hq hl, schedStep, hm, ha]
  rfl

/-- `LOAD` stops at the lowest unwritten byte of its block. -/
theorem exec_load_of_unwritten {s : State} {a : Nat} (hr : ready s) (hq : quiet s) (hl : lengthFits s)
    (hblk : blockExists s)
    (ha : firstUnwritten s.msg (min s.mlen.toNat (64 * s.blk.toNat + 64) - 64 * s.blk.toNat)
      (64 * s.blk.toNat) = some a) :
    exec .load s = .fault (.unwrittenMessageByte a) := by
  rw [exec_load_eq hr hq hl hblk, loadStep, ha]
  rfl

/-- Settles O44: the byte is the lowest unwritten one of the range the command searches. -/
theorem unwrittenMessageBytesStopTheModel : Obligations.UnwrittenMessageBytesStopTheModel := by
  intro s a hr hq hl ha hnone
  constructor
  · intro hbelow
    have hfirst : firstUnwritten s.msg s.mlen.toNat 0 = some a :=
      (firstUnwritten_eq_some_iff _ _ _ _).2 ⟨Nat.zero_le a, by omega, hnone, fun b _ hb => hbelow b hb⟩
    exact ⟨fun hm => exec_sched_of_unwritten hr hq hl hm hfirst,
      exec_hash_of_unwritten .standard hr hq hl hfirst, exec_hash_of_unwritten .fast hr hq hl hfirst⟩
  · intro hk hbelow
    have hblk : blockExists s := by
      unfold blockExists blockCount
      omega
    rw [← hk] at hbelow
    exact exec_load_of_unwritten hr hq hl hblk
      ((firstUnwritten_eq_some_iff _ _ _ _).2 ⟨by omega, by omega, hnone, hbelow⟩)

/-! ### The reset event (R240) -/

/-- After a reset the engine is idle, so the inputs behind it stay to come. -/
theorem deliverDue_reset {s : State} (hb : s.busy = true) (rest : List Pending) :
    deliverDue (⟨.afterSteps 0, .reset⟩ :: rest) s = { resetEvent s with inbox := rest } := by
  rw [deliverDue, if_pos (by simp [hb, Pending.due])]
  cases rest <;> rfl

/-- A busy engine abandons its command where the reset lands: no phase follows. -/
theorem tick_of_reset {s : State} {rest : List Pending} (hb : s.busy = true)
    (hi : s.inbox = ⟨.afterSteps 0, .reset⟩ :: rest) :
    tick s = .next { resetEvent s with inbox := rest } := by
  rw [tick, hi, deliverDue_reset hb]
  rfl

/-- The next step takes the reset that is the next input, idle or busy. -/
theorem step_of_reset {s : State} {a : Arrival} {rest : List Pending}
    (hdue : s.busy = false ∨ a = .afterSteps 0) (hi : s.inbox = ⟨a, .reset⟩ :: rest) :
    step s = .next { resetEvent s with inbox := rest } := by
  cases hb : s.busy with
  | false => exact step_deliverIdle hb hi rfl
  | true =>
    obtain rfl : a = .afterSteps 0 := hdue.resolve_left (by simp [hb])
    rw [step_of_busy hb, tick_of_reset hb hi]

/-- Settles O45: idle or busy, the step is `resetEvent`, whose fields are those of Table R42. -/
theorem resetEventGivesTheResetValues : Obligations.ResetEventGivesTheResetValues := by
  intro s a rest hdue hi
  exact ⟨_, step_of_reset hdue hi, rfl, rfl, rfl, rfl, rfl, rfl, rfl, rfl, rfl, rfl, msgRead_nil,
    rfl, rfl, rfl⟩

end Sys2Proof.Machine
